-- ==== Sys2Proof/Word.lean ====
section
/-! DEFINITION. The words, bytes, numbers and small closed types of the Zeus2 block (00_scope.md R7, R9; 10_state.md). -/

namespace Sys2Proof

/-- A word: 32 bits, bit 0 the least significant (R7). -/
abbrev Word := BitVec 32

/-- A byte (R7). -/
abbrev Byte := BitVec 8

/-- A register offset, 0 to 127 (R30, R140). -/
abbrev Offset := BitVec 7

/-- The register file: a flat array of 128 words (R30). -/
abbrev RegFile := Vector Word 128

/-- The contents of one bank of Wave Memory: (byte address, byte) pairs, addresses strictly rising, one pair for
every byte that has been written since power-on and none for any other (R37, R381). -/
abbrev Memory := List Host.Cell

/-- A value of the type `F` (R9): a finite value, held exactly as the rational it is, or one of the two infinities that
`fl` can answer. No NaN is ever stored, and -0.0 is not distinguished from 0.0 (R303). -/
inductive F where
  | fin (q : Rat)
  | posInf
  | negInf
deriving DecidableEq, Repr, Inhabited

/-- Three components, numbered as the spec numbers them: `point[0..2]` (R35). -/
structure Vec3 (α : Type) where
  c0 : α
  c1 : α
  c2 : α
deriving DecidableEq, Repr

/-- Nine components, `m<row><column>`: `matrix[r][c]` (R35). -/
structure Mat3 (α : Type) where
  m00 : α
  m01 : α
  m02 : α
  m10 : α
  m11 : α
  m12 : α
  m20 : α
  m21 : α
  m22 : α
deriving DecidableEq, Repr

def Vec3.map {α β : Type} (g : α → β) (p : Vec3 α) : Vec3 β := ⟨g p.c0, g p.c1, g p.c2⟩

def Mat3.map {α β : Type} (g : α → β) (m : Mat3 α) : Mat3 β :=
  ⟨g m.m00, g m.m01, g m.m02, g m.m10, g m.m11, g m.m12, g m.m20, g m.m21, g m.m22⟩

/-- The framing of a render-quad sub-command: `quad_size` is 10 or 14 words (R33, R47). -/
inductive Framing where
  | ten
  | fourteen
deriving DecidableEq, Repr

/-- A texture width class: 64, 128 or 256 texels (R40, R42). -/
inductive TexWidth where
  | w64
  | w128
  | w256
deriving DecidableEq, Repr, Inhabited

/-- The two banks of Wave Memory (R80). -/
inductive Bank where
  | bank0
  | bank1
deriving DecidableEq, Repr

/-- A rectangle of inclusive pixel bounds with non-negative corners: the clip rectangle (R38, R182). -/
structure Rect where
  minX : Nat
  maxX : Nat
  minY : Nat
  maxY : Nat
deriving DecidableEq, Repr

/-- A rectangle of inclusive bounds over the integers: the visible rectangle as `Geometry` answers it (R182). -/
structure IntRect where
  minX : Int
  maxX : Int
  minY : Int
  maxY : Int
deriving DecidableEq, Repr, Inhabited

end Sys2Proof
end

