-- ==== Sys2Proof/Config.lean ====
section
/-! DEFINITION. The configuration record `Cfg` (00_scope.md R5): one field for everything the source leaves open. The operations of
the machine take it as their argument; Sys2Proof/Machine/Params.lean gives each field its default, `Config.defaults`, at which
`exec` and `step` run. The two OPEN functions, `Geometry` and `PortEffect`, have no default and are opaque constants there, as
are the free values: whatever is proved holds for every value of them. -/

namespace Sys2Proof

/-- What `Geometry(R)` answers (R182): the totals, the visible rectangle, the clip rectangle, the scale flag, the refresh
rate. The clip rectangle is given by its least corner and its extents, `max = min + span`, so that
`0 <= min <= max` on both axes, which R182 asks of every instantiation, holds by construction. DESIGN CHOICE:
notes/assumptions/7.md. -/
structure GeomAnswer where
  htotal : Int
  vtotal : Int
  vis : IntRect
  clipX : Nat
  clipY : Nat
  clipSpanX : Nat
  clipSpanY : Nat
  yscale : Bool
  refresh : Nat
deriving DecidableEq, Repr, Inhabited

/-- What `PortEffect` may read of the state (R183): the value of each register of `PORT_OFFSETS`, as pairs in the order of that
set, and the two banks, whole, so that no read of it raises a failure. DESIGN CHOICE: notes/assumptions/8.md. -/
structure PortView where
  ports : List (Offset × Word)
  wave0 : Memory
  wave1 : Memory
deriving DecidableEq, Repr

/-- One thing `PortEffect` may do (R183): write a register of `PORT_OFFSETS`, write a byte of a bank, call
`PointerWrite`. It must not touch any other state. DESIGN CHOICE (a list of actions): notes/assumptions/8.md. -/
inductive PortAction where
  | setReg (o : Offset) (v : Word)
  | setByte (b : Bank) (addr : Nat) (v : Byte)
  | pointer (idx : BitVec 8) (data : BitVec 24)
deriving DecidableEq, Repr

/-- `PortEffect(o, oldval, v, state)` (R183): its effect, as the actions it performs in order. -/
abbrev PortEffect := Offset → Word → Word → PortView → List PortAction

/-- Where a field of the quad buffer stands: its word, and its least significant bit there (R136). -/
structure BitPos where
  word : Nat
  lo : Nat
deriving DecidableEq, Repr

/-- Where the five fields of one vertex stand: `x`, `y`, `z` of 16 bits, `u`, `v` of 8 (R136). -/
structure VertexLayout where
  x : BitPos
  y : BitPos
  z : BitPos
  u : BitPos
  v : BitPos
deriving DecidableEq, Repr

/-- `QUAD_LAYOUT`: where the four vertices stand in the quad buffer (R136). -/
structure QuadLayout where
  v0 : VertexLayout
  v1 : VertexLayout
  v2 : VertexLayout
  v3 : VertexLayout
deriving DecidableEq, Repr

/-- `Cfg` (R5), field by field in the order of its table. The fields its source fixes are no fields here: 128 registers of 32
bits (`RegFile`), and the default depth bias 2.0 (`Config.zbaseDefault`). The timer periods are not represented
(notes/assumptions/19.md). -/
structure Cfg where
  /-- `FIFO_TRIGGER`: the offset whose writes push to the FIFO. -/
  fifoTrigger : Offset
  /-- `FIFO_CAP`: capacity of the FIFO buffer in words. -/
  fifoCap : Nat
  /-- `PTR_PRIMARY`: the offset through which pointer sub-registers are written. -/
  ptrPrimary : Offset
  /-- `PTR_IDX_RENDER`. -/
  ptrIdxRender : BitVec 8
  /-- `PTR_IDX_TEX`. -/
  ptrIdxTex : BitVec 8
  /-- `PTR_IDX_QSIZE`. -/
  ptrIdxQsize : BitVec 8
  /-- `RENDER_SHIFT`. -/
  renderShift : Nat
  /-- `ID_CONST`, read at offset 0. -/
  idConst : Word
  /-- `STATUS_FIXED`. -/
  statusFixed : Word
  /-- `STATUS_VBLANK`. -/
  statusVblank : Word
  /-- `MAGIC7`, read at offset 7. -/
  magic7 : Word
  /-- `SCANPOS_OFFSET`. -/
  scanposOffset : Offset
  /-- `W0`, the width of bank 0 in cells. -/
  W0 : Nat
  /-- `H0`, the height of bank 0 in cells. -/
  H0 : Nat
  /-- `W1`, the width of bank 1 in cells. -/
  W1 : Nat
  /-- `H1`, the height of bank 1 in cells. -/
  H1 : Nat
  /-- `CELL0`: bytes per cell of bank 0. -/
  cell0 : Nat
  /-- `CELL1`: bytes per cell of bank 1. -/
  cell1 : Nat
  /-- `PALBASE_REG`: the register whose value is the palette base, an expanded address. -/
  palbaseReg : Offset
  /-- `TRANS_KEY`, the transparent colour key. -/
  transKey : Nat
  /-- `TEXWIDTH_TABLE` (R289). -/
  texWidthTable : List (BitVec 12 × TexWidth)
  /-- `DL_COUNT_MAX`, the display-list sanity bound. -/
  dlCountMax : Nat
  /-- `DL_OP_TEXSEL`, the opcodes that select the texture offset. -/
  dlOpTexsel : List (BitVec 8)
  /-- `DL_OP_SYNC`. -/
  dlOpSync : List (BitVec 8)
  /-- `DL_OP_REG`. -/
  dlOpReg : List (BitVec 8)
  /-- `DL_OP_QUAD`. -/
  dlOpQuad : List (BitVec 8)
  /-- `NEAR_EPS`, the near plane. -/
  nearEps : Rat
  /-- `PROJ_K`, the projection constant. -/
  projK : Rat
  /-- `CENTER_X`. -/
  centerX : Rat
  /-- `CENTER_Y`. -/
  centerY : Rat
  /-- `NUDGE`. -/
  nudge : Rat
  /-- `DEPTH_PER_Z`. -/
  depthPerZ : Rat
  /-- `MAX_DEPTH`. -/
  maxDepth : Nat
  /-- `QUAD_LAYOUT`. -/
  quadLayout : QuadLayout
  /-- `TIMING_OFFSETS`. -/
  timingOffsets : List Offset
  /-- `Geometry` (R182). -/
  geometry : RegFile → GeomAnswer
  /-- `PORT_OFFSETS`. -/
  portOffsets : List Offset
  /-- `PortEffect` (R183); `none` is a configuration that does not supply it. -/
  portEffect : Option PortEffect
  /-- `fl`, the rounding applied after each real-valued operation (R9). -/
  fl : Rat → F

namespace Config

/-- `Geometry` (R182, D36): OPEN, no default; the source names neither the offsets nor the bit fields. Free function. -/
opaque geometry : RegFile → GeomAnswer

/-- `PortEffect` (R183, D42): OPEN, no default. `none` is a configuration that does not supply it. Free value. -/
opaque portEffect : Option PortEffect

/-- What a byte of a bank holds when nothing has written it since power-on (R381, D43): any value, per byte.
Free value: notes/assumptions/5.md. -/
opaque powerOnByte : Bank → Nat → Byte

/-- The width an unrecognized texture-format code gets when no code has been recognized since reset (R289, U3): any one of
64, 128, 256, a free choice of the step. The argument counts the choices made, so each is free by itself:
notes/assumptions/9.md. -/
opaque freeWidth : Nat → TexWidth

/-- The answer of `display.vblank()`: any value at each call (R45, R352, U17). The argument counts the free choices made, so
each call's answer is free by itself: notes/assumptions/6.md. -/
opaque displayVblank : Nat → Bool

/-- The answer of `display.vpos()`, a scan line: any value at each call (R45, R352, U17). As `displayVblank`. -/
opaque displayVpos : Nat → Nat

end Config

end Sys2Proof
end

