-- ==== Sys2Proof/Machine/Float.lean ====
section
/-! DEFINITION. The rounding `fl` of the configuration at its default (00_scope.md R5, R9): round to nearest, ties to even, into
IEEE-754 binary32, subnormals included, no flush to zero (R303). Rationals are built by `mkRat` only, so that every value
here is computed by plain evaluation. -/

namespace Sys2Proof.Machine

/-- The integer nearest to `n / d`, a tie going to the even one. -/
def roundEven (n d : Nat) : Nat :=
  let k := n / d
  let r := n % d
  if 2 * r < d ∨ (2 * r = d ∧ k % 2 = 0) then k else k + 1

/-- `m * 2^p` as a rational. -/
def dyadic (m : Int) (p : Int) : Rat := mkRat (m * 2 ^ p.toNat) (2 ^ (-p).toNat)

/-- `2^p <= n / d`, for `d > 0`. -/
def powLe (p : Int) (n d : Nat) : Bool := decide (d * 2 ^ p.toNat ≤ n * 2 ^ (-p).toNat)

/-- The exponent `e` with `2^e <= n / d < 2^(e+1)`, for `n, d > 0`. -/
def binaryExponent (n d : Nat) : Int :=
  let e : Int := (n.log2 : Int) - (d.log2 : Int)
  if powLe e n d then e else e - 1

/-- `fl(r)`: the binary32 value nearest to `r` (R9). 24 bits of significand, least exponent of a unit -149, values that
round to `2^128` or beyond become infinite. -/
def fl (r : Rat) : F :=
  if r.num = 0 then .fin 0
  else
    let n := r.num.natAbs
    let d := r.den
    let p : Int := max (binaryExponent n d - 23) (-149)
    let k := roundEven (n * 2 ^ (-p).toNat) (d * 2 ^ p.toNat)
    if 2 ^ 128 ≤ k * 2 ^ p.toNat then (if r.num < 0 then .negInf else .posInf)
    else .fin (dyadic (if r.num < 0 then -(k : Int) else (k : Int)) p)

end Sys2Proof.Machine
end

