-- ==== Sys2Proof/Machine/Params.lean ====
section
/-! DEFINITION. The default of each field of `Cfg` (00_scope.md R5), and the record of all of them, `Config.defaults`, at which the
machine runs. Every default marked GK in R5 is PRESUMED (the spec takes it from general knowledge, not from its source):
notes/assumptions/1.md. They stand in a file of Machine so that a later repair can mend a value. -/

namespace Sys2Proof.Config

/-- `FIFO_TRIGGER`: the offset whose writes push to the FIFO. PRESUMED (GK, D2). -/
def fifoTrigger : Offset := 0x08#7

/-- `FIFO_CAP`: capacity of the FIFO buffer in words; any value of at least 14 behaves the same (D31, R225). -/
def fifoCap : Nat := 32

/-- `PTR_PRIMARY`: the offset through which pointer sub-registers are written. PRESUMED (GK, D3). -/
def ptrPrimary : Offset := 0x20#7

/-- `PTR_IDX_RENDER`. PRESUMED (GK, D4). -/
def ptrIdxRender : BitVec 8 := 0x04#8

/-- `PTR_IDX_TEX`. PRESUMED (GK, D4). -/
def ptrIdxTex : BitVec 8 := 0x05#8

/-- `PTR_IDX_QSIZE`. PRESUMED (GK, D4). -/
def ptrIdxQsize : BitVec 8 := 0x40#8

/-- `RENDER_SHIFT`. PRESUMED (GK, D5). -/
def renderShift : Nat := 16

/-- `ID_CONST`, read at offset 0. PRESUMED (GK, D7). -/
def idConst : Word := 0x00000020#32

/-- `STATUS_FIXED`. PRESUMED (GK, D7). -/
def statusFixed : Word := 0x00000000#32

/-- `STATUS_VBLANK`. PRESUMED (GK, D7). -/
def statusVblank : Word := 0x00000004#32

/-- `MAGIC7`, read at offset 7. PRESUMED (GK, D7). -/
def magic7 : Word := 0x10451998#32

/-- `SCANPOS_OFFSET`. PRESUMED (GK, D7). -/
def scanposOffset : Offset := 0x54#7

/-- `W0`, the width of bank 0 in cells. PRESUMED (GK, D8). -/
def W0 : Nat := 1024

/-- `H0`. PRESUMED (GK, D8). -/
def H0 : Nat := 2048

/-- `W1`, the width of bank 1 in cells. PRESUMED (GK, D8). -/
def W1 : Nat := 512

/-- `H1`. PRESUMED (GK, D8). -/
def H1 : Nat := 1024

/-- `CELL0`: bytes per cell of bank 0, two words (R81, D8). -/
def cell0 : Nat := 8

/-- `CELL1`: bytes per cell of bank 1. PRESUMED (GK, D8). -/
def cell1 : Nat := 12

/-- `SIZE0` at the defaults, in bytes (R80). -/
def size0 : Nat := W0 * H0 * cell0

/-- `SIZE1` at the defaults, in bytes (R80). -/
def size1 : Nat := W1 * H1 * cell1

/-- `PALBASE_REG`. PRESUMED (GK, D25). It is also one of `PORT_OFFSETS` (90_conflicts.md C8). -/
def palbaseReg : Offset := 0x41#7

/-- `TRANS_KEY`, the transparent colour key; no 8-bit texel equals it. PRESUMED (GK, D25). -/
def transKey : Nat := 0x100

/-- `TEXWIDTH_TABLE` (R289). PRESUMED (GK, D26). -/
def texWidthTable : List (BitVec 12 × TexWidth) :=
  [(0x01d#12, .w256), (0x05d#12, .w256), (0x0dd#12, .w256), (0x11d#12, .w256), (0x15d#12, .w256), (0x85d#12, .w256),
   (0x95d#12, .w256), (0xc1d#12, .w256), (0xc5d#12, .w256), (0x059#12, .w128), (0x0d9#12, .w128), (0x119#12, .w128),
   (0x159#12, .w128), (0x055#12, .w64), (0x155#12, .w64)]

/-- `DL_COUNT_MAX`, the display-list sanity bound ("e.g. 4096", D28). -/
def dlCountMax : Nat := 4096

/-- The opcode of the row `D.TEXSEL` 0x21. PRESUMED (GK, D27). -/
def dlTexselA : BitVec 8 := 0x21#8

/-- The opcode of the row `D.TEXSEL` 0x22. PRESUMED (GK, D27). -/
def dlTexselB : BitVec 8 := 0x22#8

/-- The opcode of the row `D.SYNC`. PRESUMED (GK, D27). -/
def dlSync : BitVec 8 := 0x31#8

/-- The opcode of the row `D.SETREG`. PRESUMED (GK, D27). -/
def dlReg : BitVec 8 := 0x29#8

/-- The opcode of the row `D.QUAD`. PRESUMED (GK, D27). -/
def dlQuad : BitVec 8 := 0x38#8

/-- `DL_OP_TEXSEL` (D27). -/
def dlOpTexsel : List (BitVec 8) := [dlTexselA, dlTexselB]

/-- `DL_OP_SYNC` (D27). -/
def dlOpSync : List (BitVec 8) := [dlSync]

/-- `DL_OP_REG` (D27). -/
def dlOpReg : List (BitVec 8) := [dlReg]

/-- `DL_OP_QUAD` (D27). -/
def dlOpQuad : List (BitVec 8) := [dlQuad]

/-- `QUAD_LAYOUT`, the table of R136. PRESUMED (GK, D19). -/
def quadLayout : QuadLayout where
  v0 := { x := ⟨2, 0⟩, y := ⟨3, 0⟩, z := ⟨6, 0⟩, u := ⟨1, 2⟩, v := ⟨1, 18⟩ }
  v1 := { x := ⟨2, 16⟩, y := ⟨3, 16⟩, z := ⟨6, 16⟩, u := ⟨4, 2⟩, v := ⟨4, 12⟩ }
  v2 := { x := ⟨8, 0⟩, y := ⟨9, 0⟩, z := ⟨7, 0⟩, u := ⟨4, 22⟩, v := ⟨5, 2⟩ }
  v3 := { x := ⟨8, 16⟩, y := ⟨9, 16⟩, z := ⟨7, 16⟩, u := ⟨5, 12⟩, v := ⟨5, 22⟩ }

/-- `ZBASE_DEFAULT` = 2.0 (source §4.4 step 2). -/
def zbaseDefault : F := .fin (mkRat 2 1)

/-- `NEAR_EPS` = 1/2048. PRESUMED (GK, D20). -/
def nearEps : Rat := mkRat 1 2048

/-- `PROJ_K` = 512. PRESUMED (GK, D20). -/
def projK : Rat := mkRat 512 1

/-- `CENTER_X` = 256.5. PRESUMED (GK, D20). -/
def centerX : Rat := mkRat 513 2

/-- `CENTER_Y` = 200.5. PRESUMED (GK, D20). -/
def centerY : Rat := mkRat 401 2

/-- `NUDGE` = 0.0005. PRESUMED (GK, D20). -/
def nudge : Rat := mkRat 1 2000

/-- `DEPTH_PER_Z` = 16. PRESUMED (GK, D20). -/
def depthPerZ : Rat := mkRat 16 1

/-- `MAX_DEPTH` = 0x7fff (the source's example, D20). -/
def maxDepth : Nat := 0x7fff

/-- `TIMING_OFFSETS`. PRESUMED (GK, D36). -/
def timingOffsets : List Offset := [0x33#7, 0x34#7, 0x35#7, 0x36#7, 0x37#7]

/-- `PORT_OFFSETS`. PRESUMED (GK, D42). -/
def portOffsets : List Offset :=
  [0x40#7, 0x41#7, 0x48#7, 0x49#7, 0x4e#7, 0x50#7, 0x51#7, 0x57#7, 0x58#7, 0x59#7, 0x5a#7, 0x5e#7]

/-- The configuration the machine runs at: every default of R5, and the open functions. -/
def defaults : Cfg where
  fifoTrigger := fifoTrigger
  fifoCap := fifoCap
  ptrPrimary := ptrPrimary
  ptrIdxRender := ptrIdxRender
  ptrIdxTex := ptrIdxTex
  ptrIdxQsize := ptrIdxQsize
  renderShift := renderShift
  idConst := idConst
  statusFixed := statusFixed
  statusVblank := statusVblank
  magic7 := magic7
  scanposOffset := scanposOffset
  W0 := W0
  H0 := H0
  W1 := W1
  H1 := H1
  cell0 := cell0
  cell1 := cell1
  palbaseReg := palbaseReg
  transKey := transKey
  texWidthTable := texWidthTable
  dlCountMax := dlCountMax
  dlOpTexsel := dlOpTexsel
  dlOpSync := dlOpSync
  dlOpReg := dlOpReg
  dlOpQuad := dlOpQuad
  nearEps := nearEps
  projK := projK
  centerX := centerX
  centerY := centerY
  nudge := nudge
  depthPerZ := depthPerZ
  maxDepth := maxDepth
  quadLayout := quadLayout
  timingOffsets := timingOffsets
  geometry := geometry
  portOffsets := portOffsets
  portEffect := portEffect
  fl := Machine.fl

end Sys2Proof.Config

namespace Sys2Proof

/-- `SIZE0 = W0*H0*CELL0` bytes (R80). -/
def Cfg.size0 (cfg : Cfg) : Nat := cfg.W0 * cfg.H0 * cfg.cell0

/-- `SIZE1 = W1*H1*CELL1` bytes (R80). -/
def Cfg.size1 (cfg : Cfg) : Nat := cfg.W1 * cfg.H1 * cfg.cell1

/-- The three sub-register indices a pointer write acts on (R177). -/
def Cfg.ptrIndices (cfg : Cfg) : List (BitVec 8) := [cfg.ptrIdxRender, cfg.ptrIdxTex, cfg.ptrIdxQsize]

end Sys2Proof
end

