-- ==== Sys2Proof/Syntax.lean ====
section
/-! DEFINITION. The instructions: one constructor per row of spec/opcode_table.json (30_encoding.md R145), 25 in all. Thirteen
FIFO commands (R131), six display-list sub-command rows (R133; `D.TEXSEL` has two opcodes and so two rows), three bus
operations and three pointer sub-register writes (R144, R177). Operands are the named fields of R132, R133, R136; bits
the spec ignores are no operands, except where a logged event shows them (R343). -/

namespace Sys2Proof

/-- One vertex of the quad buffer (R136): `x`, `y`, `z` signed 16-bit integers, `u`, `v` unsigned 8-bit integers. -/
structure QVertex where
  x : BitVec 16
  y : BitVec 16
  z : BitVec 16
  u : BitVec 8
  v : BitVec 8
deriving DecidableEq, Repr

inductive Instr where
  /-- FIFO 0x05 (R212). -/
  | setreg (reg : Offset) (value : Word)
  /-- FIFO 0x07 (R213): nine matrix words, three point words, as DSP floats. -/
  | setmat (m : Mat3 Word) (p : Vec3 Word)
  /-- FIFO 0x08 (R214): one word of padding first. -/
  | setmat8 (pad : Word) (m : Mat3 Word) (p : Vec3 Word)
  /-- FIFO 0x15 (R215). -/
  | setpt15 (p : Vec3 Word)
  /-- FIFO 0x16 (R216). -/
  | setpt16 (p : Vec3 Word)
  /-- FIFO 0x1c (R217). -/
  | pt2clr (p : Vec3 Word)
  /-- FIFO 0x23 (R218). -/
  | model23 (count : BitVec 16) (base : Word)
  /-- FIFO 0x24 (R219). -/
  | model24 (count : BitVec 16) (base : Word)
  /-- FIFO 0x31 (R220). -/
  | sync31
  /-- FIFO 0x32 (R221). -/
  | sync32
  /-- FIFO 0x38 (R222): the low bits of word 0 and the eleven words after it, which its log entry shows. -/
  | dquad (low : BitVec 24) (ws : List Word)
  /-- FIFO 0x40 (R223): the low bits of word 0, which its log entry shows. -/
  | nop40 (low : BitVec 24)
  /-- Any other FIFO opcode (R224): the whole word, which its log entry shows. -/
  | unk (w : Word)
  /-- Sub-command 0x21 (R255). -/
  | dTexsel21 (texoffs : Word)
  /-- Sub-command 0x22 (R255). -/
  | dTexsel22 (texoffs : Word)
  /-- Sub-command 0x31 (R256). -/
  | dSync
  /-- Sub-command 0x29 (R257). -/
  | dSetreg (reg : Offset) (value : Word)
  /-- Sub-command 0x38 (R258): the framing it was read in, and the four vertices of its quad buffer (R136). -/
  | dQuad (framing : Framing) (v0 : QVertex) (v1 : QVertex) (v2 : QVertex) (v3 : QVertex)
  /-- Any other sub-command opcode (R259): both words of the record, which its log entry shows. -/
  | dUnk (w0 : Word) (w1 : Word)
  /-- `BusRead(o)` (R170). -/
  | rd (o : Offset)
  /-- `BusWrite(o, v)` (R175). -/
  | wr (o : Offset) (v : Word)
  /-- `BusWrite(FIFO_TRIGGER, w)` (R144, R176). -/
  | push (w : Word)
  /-- `PTR PTR_IDX_RENDER, data` (R178). -/
  | ptrRender (data : BitVec 24)
  /-- `PTR PTR_IDX_TEX, data` (R179). -/
  | ptrTex (data : BitVec 24)
  /-- `PTR PTR_IDX_QSIZE, data` (R180). -/
  | ptrQsize (data : BitVec 24)
deriving DecidableEq, Repr

/-- A bus transaction as the host issues it (R140): an offset of 7 bits and, for a write, a value of 32 bits. -/
inductive BusOp where
  | read (o : Offset)
  | write (o : Offset) (v : Word)
deriving DecidableEq, Repr

/-- Where an instruction's words come from (R130, R145): the FIFO buffer, a display list walked in a framing (R142), or the
bus. The same opcode byte can mean different things in the first two. -/
inductive Code where
  | fifo (ws : List Word)
  | list (framing : Framing) (ws : List Word)
  | bus (op : BusOp)
deriving DecidableEq, Repr

end Sys2Proof
end

