-- ==== Sys2Proof/Machine/Fields.lean ====
section
/-! DEFINITION. The fields of command words, pointer words and texture offset words (30_encoding.md R130 to R139), each read
in one place, and the FIFO opcodes of R131. -/

namespace Sys2Proof

/-! ## FIFO opcodes (R131; printed by the source) -/

def opSetreg : BitVec 8 := 0x05#8
def opSetmat : BitVec 8 := 0x07#8
def opSetmat8 : BitVec 8 := 0x08#8
def opSetpt15 : BitVec 8 := 0x15#8
def opSetpt16 : BitVec 8 := 0x16#8
def opPt2clr : BitVec 8 := 0x1c#8
def opModel23 : BitVec 8 := 0x23#8
def opModel24 : BitVec 8 := 0x24#8
def opSync31 : BitVec 8 := 0x31#8
def opSync32 : BitVec 8 := 0x32#8
def opDquad : BitVec 8 := 0x38#8
def opNop40 : BitVec 8 := 0x40#8

/-- The twelve opcodes that R131 names; each of the other 244 decodes to `UNK`. -/
def fifoOpcodes : List (BitVec 8) :=
  [opSetreg, opSetmat, opSetmat8, opSetpt15, opSetpt16, opPt2clr, opModel23, opModel24, opSync31, opSync32, opDquad,
   opNop40]

/-! ## Fields of a word -/

/-- The opcode: `w[31:24]` (R130). -/
def topByte (w : Word) : BitVec 8 := w.extractLsb' 24 8

/-- `w[23:0]`. -/
def low24 (w : Word) : BitVec 24 := w.extractLsb' 0 24

/-- The register field of F-REG and of `D.SETREG`: `w[22:16]` (R132, R133). -/
def regField (w : Word) : Offset := w.extractLsb' 16 7

/-- `w[15:0]`: the count of F-MODEL (R132), and the low half of a coordinate word (R135). -/
def lowHalf (w : Word) : BitVec 16 := w.extractLsb' 0 16

/-- `w[31:16]`: the high half of a coordinate word (R135). -/
def highHalf (w : Word) : BitVec 16 := w.extractLsb' 16 16

/-- The sub-register index of a pointer word: `value[31:24]` (R139). -/
def ptrIndex (w : Word) : BitVec 8 := w.extractLsb' 24 8

/-- The data of a pointer word: `value[23:0]` (R139). -/
def ptrData (w : Word) : BitVec 24 := w.extractLsb' 0 24

/-- The texture-format code: `texoffs[15:0]` (R138). -/
def formatCode (texoffs : Word) : BitVec 16 := texoffs.extractLsb' 0 16

/-- The key of the width lookup: `code[11:0]` (R138, 90_conflicts.md C2). -/
def widthKey (code : BitVec 16) : BitVec 12 := code.extractLsb' 0 12

/-- The texture-page selector: `texoffs[31:16]` (R138). -/
def pageSelector (texoffs : Word) : BitVec 16 := texoffs.extractLsb' 16 16

/-- The `n` bits of a buffer that begin at a position; a word that is missing reads as 0 (R136). -/
def BitPos.read (p : BitPos) (n : Nat) (q : List Word) : BitVec n := (q.getD p.word 0#32).extractLsb' p.lo n

/-! ## Words built from fields -/

/-- A word with the given opcode and low 24 bits. -/
def opWord (op : BitVec 8) (low : BitVec 24) : Word := op ++ low

/-- A word with the given halves. -/
def halves (hi lo : BitVec 16) : Word := hi ++ lo

/-- The number of words of a framing: 10 or 14 (R33). -/
def Framing.words : Framing → Nat
  | .ten => 10
  | .fourteen => 14

/-- The number of texels of a width class (R289). -/
def TexWidth.texels : TexWidth → Nat
  | .w64 => 64
  | .w128 => 128
  | .w256 => 256

end Sys2Proof
end

