-- ==== Sys2Proof/Machine/Operands.lean ====
section
/-! DEFINITION. What operands stand for: expanded addresses (20_memory.md R84, R85), DSP floats and packed halves (30_encoding.md R134,
R135), pixel, texel and palette addresses (20_memory.md R88 to R92), and the integers of the pixel shader (43_rasterizer.md R292, R295,
R299, R300). -/

namespace Sys2Proof.Machine

/-! ## Expanded addresses -/

/-- `Expand0(e)`: a bank 0 pointer (R84). Total. -/
def expand0 (cfg : Cfg) (e : Word) : Nat :=
  ((e.toNat % cfg.W0) + ((e.toNat >>> 16) % cfg.H0) * cfg.W0) * cfg.cell0

/-- `Expand1(e)`: a bank 1 pointer (R85). Total. -/
def expand1 (cfg : Cfg) (e : Word) : Nat :=
  ((e.toNat % cfg.W1) + ((e.toNat >>> 16) % cfg.H1) * cfg.W1) * cfg.cell1

/-! ## Numbers in command words -/

/-- The real value of a DSP float (R134): signed exponent `w[31:24]`, sign `w[23]`, fraction `w[22:0]`; exponent -128 is
zero. PRESUMED (GK, D16): notes/assumptions/1.md. -/
def dspValue (w : Word) : Rat :=
  let e := (topByte w).toInt
  let f : Int := ((w.extractLsb' 0 23).toNat : Int)
  if e = -128 then 0
  else dyadic (if w.getLsbD 23 then f - 2 ^ 24 else f + 2 ^ 23) (e - 23)

/-- `DspFloat(w)`: the value converted to `F` by the configuration's `fl` (R134), the corner encodings too. -/
def dspFloat (cfg : Cfg) (w : Word) : F := cfg.fl (dspValue w)

/-- `s16` of a half, as a coordinate (R135). -/
def s16 (h : BitVec 16) : Rat := mkRat h.toInt 1

/-- An unsigned texture coordinate (R282). -/
def u8 (b : BitVec 8) : Rat := mkRat b.toNat 1

/-! ## Pixels of bank 1 -/

/-- The number of the pixel-pair cell of row `y`, column `x` (R88). -/
def pixelCell (y x : Nat) : Nat := (y % 512) * 256 + (x % 512) / 2

/-- `ColorAddr(rb, y, x)` (R88). -/
def colorAddr (rb y x : Nat) : Nat := rb + 12 * pixelCell y x + 4 * (x % 2)

/-- `DepthAddr(rb, y, x)` (R88). -/
def depthAddr (rb y x : Nat) : Nat := rb + 12 * pixelCell y x + 8 + 2 * (x % 2)

/-- A colour word: red in 23:16, green in 15:8, blue in 7:0, zero above (R89, R301). -/
def colorWord (r g b : Int) : Word :=
  0#8 ++ BitVec.ofInt 8 r ++ BitVec.ofInt 8 g ++ BitVec.ofInt 8 b

/-! ## Texels and palette entries of bank 0 -/

/-- `TexelOffset(w, v, u)` (R91): 4 by 2 blocks, two rows in `2*w` bytes, no wrap. -/
def texelOffset (w : TexWidth) (v u : Nat) : Nat :=
  (v / 2) * (2 * w.texels) + (u / 4) * 8 + (v % 2) * 4 + u % 4

/-- `ex(c5) = (c5 << 3) | (c5 >> 2)` (R299). -/
def expand5 (c5 : BitVec 5) : BitVec 8 := (c5.zeroExtend 8 <<< 3) ||| (c5.zeroExtend 8 >>> 2)

/-- Three channels. -/
structure Rgb where
  r : Int
  g : Int
  b : Int
deriving DecidableEq, Repr

/-- The expanded colour of a palette entry: red 14:10, green 9:5, blue 4:0, bit 15 ignored (R92, R299). -/
def entryColor (e : BitVec 16) : Rgb :=
  ⟨(expand5 (e.extractLsb' 10 5)).toNat, (expand5 (e.extractLsb' 5 5)).toNat, (expand5 (e.extractLsb' 0 5)).toNat⟩

/-! ## Integers of the shader -/

/-- `mix(a, b, f) = a + floor((b - a) * f / 256)` (R300). -/
def mix (a b f : Int) : Int := a + (b - a) * f / 256

/-- `mix` on each channel separately (R300, R304). -/
def mixRgb (a b : Rgb) (f : Int) : Rgb := ⟨mix a.r b.r f, mix a.g b.g f, mix a.b b.b f⟩

/-- The bilinear blend: horizontally with `fu`, then vertically with `fv` (R300). -/
def blend (c00 c01 c10 c11 : Rgb) (fu fv : Int) : Rgb :=
  mixRgb (mixRgb c00 c01 fu) (mixRgb c10 c11 fu) fv

/-- `rnd(r) = ceil(r - 1/2)`: the nearest integer, a tie going down (R292). -/
def rnd (r : Rat) : Int := -((r.den - 2 * r.num) / (2 * r.den))

end Sys2Proof.Machine
end

