-- ==== Sys2Proof/WellFormed.lean ====
section
/-! DEFINITION. When a term of `Instr` stands for an instruction, and when a configuration is well formed. -/

namespace Sys2Proof

/-- The checks, at the default configuration. `DQUAD` has eleven words after its first (R131). `UNK` and `D.UNK` stand only for opcodes that no other row
of their set matches (R131, R133, R145). `WR` stands for the writes that are neither `PUSH` nor one of the three
pointer writes (R144, R177). Every other constructor admits every operand. -/
def Instr.wf : Instr → Bool
  | .setreg _ _ => true
  | .setmat _ _ => true
  | .setmat8 _ _ _ => true
  | .setpt15 _ => true
  | .setpt16 _ => true
  | .pt2clr _ => true
  | .model23 _ _ => true
  | .model24 _ _ => true
  | .sync31 => true
  | .sync32 => true
  | .dquad _ ws => ws.length == 11
  | .nop40 _ => true
  | .unk w => !fifoOpcodes.contains (topByte w)
  | .dTexsel21 _ => true
  | .dTexsel22 _ => true
  | .dSync => true
  | .dSetreg _ _ => true
  | .dQuad _ _ _ _ _ => true
  | .dUnk w0 _ =>
      !(Config.dlOpTexsel.contains (topByte w0) || Config.dlOpSync.contains (topByte w0)
        || Config.dlOpReg.contains (topByte w0) || Config.dlOpQuad.contains (topByte w0))
  | .rd _ => true
  | .wr o v => !(o == Config.fifoTrigger || (o == Config.ptrPrimary && Config.defaults.ptrIndices.contains (ptrIndex v)))
  | .push _ => true
  | .ptrRender _ => true
  | .ptrTex _ => true
  | .ptrQsize _ => true

/-- The conditions the rules put on a `Cfg` (93_implementation_defined.md U19): the four offset sets pairwise disjoint (R175),
the three indices distinct (R177), the four opcode sets disjoint (R254), `FIFO_CAP >= 14` (R225), `SCANPOS_OFFSET` none
of 0, 1, 7 (R170). -/
def Cfg.wf (cfg : Cfg) : Bool :=
  !cfg.timingOffsets.contains cfg.fifoTrigger && !cfg.portOffsets.contains cfg.fifoTrigger
  && !cfg.timingOffsets.contains cfg.ptrPrimary && !cfg.portOffsets.contains cfg.ptrPrimary
  && cfg.fifoTrigger != cfg.ptrPrimary
  && cfg.timingOffsets.all (fun o => !cfg.portOffsets.contains o)
  && decide cfg.ptrIndices.Nodup
  && decide (cfg.dlOpTexsel ++ cfg.dlOpSync ++ cfg.dlOpReg ++ cfg.dlOpQuad).Nodup
  && decide (14 ≤ cfg.fifoCap)
  && !([0#7, 1#7, 7#7] : List Offset).contains cfg.scanposOffset

end Sys2Proof
end

