-- ==== Sys2Proof/Decode.lean ====
section
/-! DEFINITION. Decoding (30_encoding.md R130 to R137, 41_fifo_commands.md R210, R211, 42_display_list.md R252 to R254): total on any
words, refusing by name only a command that is not yet whole; then the encoder (R143). -/

namespace Sys2Proof

/-- Why words are not (yet) an instruction. No encoding traps (R141): the only reason is that words are missing. -/
inductive DecodeError where
  /-- There is no first word, so no opcode. -/
  | empty
  /-- Fewer words than the opcode needs (R210, R252). -/
  | incomplete (held : Nat) (need : Nat)
deriving DecidableEq, Repr

/-- `Required(op)` (R211). -/
def required (op : BitVec 8) : Nat :=
  if op = opSetreg then 2
  else if op = opSetmat then 13
  else if op = opSetmat8 then 14
  else if op = opSetpt15 ∨ op = opSetpt16 ∨ op = opPt2clr then 4
  else if op = opModel23 ∨ op = opModel24 then 2
  else if op = opDquad then 12
  else 1

/-- Words needed by a sub-command in a framing (R253). -/
def needed (cfg : Cfg) (framing : Framing) (op : BitVec 8) : Nat :=
  if cfg.dlOpQuad.contains op then framing.words else 2

/-- Word `k` of a command, 0 where there is none. -/
def wordAt (ws : List Word) (k : Nat) : Word := ws.getD k 0#32

/-- Nine words from word `k` on, row 0 first (R132, D18). -/
def matrixAt (ws : List Word) (k : Nat) : Mat3 Word :=
  ⟨wordAt ws k, wordAt ws (k + 1), wordAt ws (k + 2), wordAt ws (k + 3), wordAt ws (k + 4), wordAt ws (k + 5),
   wordAt ws (k + 6), wordAt ws (k + 7), wordAt ws (k + 8)⟩

/-- Three words from word `k` on, component 0 first (R132, D18). -/
def pointAt (ws : List Word) (k : Nat) : Vec3 Word := ⟨wordAt ws k, wordAt ws (k + 1), wordAt ws (k + 2)⟩

/-- One vertex of a quad buffer (R136, R281, R282). -/
def VertexLayout.read (l : VertexLayout) (q : List Word) : QVertex :=
  ⟨l.x.read 16 q, l.y.read 16 q, l.z.read 16 q, l.u.read 8 q, l.v.read 8 q⟩

/-- The four vertices of a quad buffer, where `QUAD_LAYOUT` puts them (R136). -/
def quadAt (cfg : Cfg) (framing : Framing) (q : List Word) : Instr :=
  .dQuad framing (cfg.quadLayout.v0.read q) (cfg.quadLayout.v1.read q) (cfg.quadLayout.v2.read q) (cfg.quadLayout.v3.read q)

/-- The FIFO command whose opcode is `op` and whose words are `d`, of which there are enough (R131, R132). -/
def fifoCommand (op : BitVec 8) (d : List Word) : Instr :=
  if op = opSetreg then .setreg (regField (wordAt d 0)) (wordAt d 1)
  else if op = opSetmat then .setmat (matrixAt d 1) (pointAt d 10)
  else if op = opSetmat8 then .setmat8 (wordAt d 1) (matrixAt d 2) (pointAt d 11)
  else if op = opSetpt15 then .setpt15 (pointAt d 1)
  else if op = opSetpt16 then .setpt16 (pointAt d 1)
  else if op = opPt2clr then .pt2clr (pointAt d 1)
  else if op = opModel23 then .model23 (lowHalf (wordAt d 0)) (wordAt d 1)
  else if op = opModel24 then .model24 (lowHalf (wordAt d 0)) (wordAt d 1)
  else if op = opSync31 then .sync31
  else if op = opSync32 then .sync32
  else if op = opDquad then .dquad (low24 (wordAt d 0)) ((d.drop 1).take 11)
  else if op = opNop40 then .nop40 (low24 (wordAt d 0))
  else .unk (wordAt d 0)

/-- Decode the FIFO buffer (R210): the opcode is the top byte of the first word pushed. -/
def decodeFifo (d : List Word) : Except DecodeError Instr :=
  match d with
  | [] => .error .empty
  | w :: _ =>
    if d.length < required (topByte w) then .error (.incomplete d.length (required (topByte w)))
    else .ok (fifoCommand (topByte w) d)

/-- The sub-command whose opcode is `op` and whose words are `buf`, of which there are enough (R133, R254). The first opcode of
`DL_OP_TEXSEL` is the first of its two rows, any other the second; the two mean the same. -/
def listCommand (cfg : Cfg) (framing : Framing) (op : BitVec 8) (buf : List Word) : Instr :=
  if cfg.dlOpTexsel.contains op then
    if cfg.dlOpTexsel.head? = some op then .dTexsel21 (wordAt buf 1) else .dTexsel22 (wordAt buf 1)
  else if cfg.dlOpSync.contains op then .dSync
  else if cfg.dlOpReg.contains op then .dSetreg (regField (wordAt buf 0)) (wordAt buf 1)
  else if cfg.dlOpQuad.contains op then quadAt cfg framing buf
  else .dUnk (wordAt buf 0) (wordAt buf 1)

/-- Decode the walker's local buffer in the walk's framing (R252, R253). -/
def decodeList (cfg : Cfg) (framing : Framing) (buf : List Word) : Except DecodeError Instr :=
  match buf with
  | [] => .error .empty
  | w :: _ =>
    if buf.length < needed cfg framing (topByte w) then .error (.incomplete buf.length (needed cfg framing (topByte w)))
    else .ok (listCommand cfg framing (topByte w) buf)

/-- Decode a bus transaction (R140, R144, R145): a write of `FIFO_TRIGGER` is `PUSH`, a write of `PTR_PRIMARY` with one of
the three indices is that pointer row, every other write is `WR`. -/
def decodeBus (cfg : Cfg) (op : BusOp) : Instr :=
  match op with
  | .read o => .rd o
  | .write o v =>
    if o = cfg.fifoTrigger then .push v
    else if o = cfg.ptrPrimary then
      if ptrIndex v = cfg.ptrIdxRender then .ptrRender (ptrData v)
      else if ptrIndex v = cfg.ptrIdxTex then .ptrTex (ptrData v)
      else if ptrIndex v = cfg.ptrIdxQsize then .ptrQsize (ptrData v)
      else .wr o v
    else .wr o v

/-- Decode words from the stream they came from. -/
def decode (cfg : Cfg) (c : Code) : Except DecodeError Instr :=
  match c with
  | .fifo ws => decodeFifo ws
  | .list framing ws => decodeList cfg framing ws
  | .bus op => .ok (decodeBus cfg op)

/-! ## The encoder (R143, R144), at the default configuration: bits the spec ignores are emitted as 0 -/

def Mat3.toList (m : Mat3 Word) : List Word := [m.m00, m.m01, m.m02, m.m10, m.m11, m.m12, m.m20, m.m21, m.m22]

def Vec3.toList (p : Vec3 Word) : List Word := [p.c0, p.c1, p.c2]

/-- A word with a register field (F-REG, `D.SETREG`). -/
def regWord (op : BitVec 8) (reg : Offset) : Word := op ++ (0#1 ++ reg ++ 0#16)

/-- A word with a count (F-MODEL). -/
def countWord (op : BitVec 8) (count : BitVec 16) : Word := op ++ (0#8 ++ count)

/-- The 10 or 14 words of a quad buffer, in the table of R136. -/
def quadWords (framing : Framing) (a b c d : QVertex) : List Word :=
  [opWord Config.dlQuad 0#24,
   0#6 ++ a.v ++ 0#8 ++ a.u ++ 0#2,
   halves b.x a.x,
   halves b.y a.y,
   0#2 ++ c.u ++ 0#2 ++ b.v ++ 0#2 ++ b.u ++ 0#2,
   0#2 ++ d.v ++ 0#2 ++ d.u ++ 0#2 ++ c.v ++ 0#2,
   halves b.z a.z,
   halves d.z c.z,
   halves d.x c.x,
   halves d.y c.y] ++ List.replicate (framing.words - 10) 0#32

/-- The words of an instruction, in its own stream, at the default configuration. -/
def encode : Instr → Code
  | .setreg reg value => .fifo [regWord opSetreg reg, value]
  | .setmat m p => .fifo (opWord opSetmat 0#24 :: (m.toList ++ p.toList))
  | .setmat8 pad m p => .fifo (opWord opSetmat8 0#24 :: pad :: (m.toList ++ p.toList))
  | .setpt15 p => .fifo (opWord opSetpt15 0#24 :: p.toList)
  | .setpt16 p => .fifo (opWord opSetpt16 0#24 :: p.toList)
  | .pt2clr p => .fifo (opWord opPt2clr 0#24 :: p.toList)
  | .model23 count base => .fifo [countWord opModel23 count, base]
  | .model24 count base => .fifo [countWord opModel24 count, base]
  | .sync31 => .fifo [opWord opSync31 0#24]
  | .sync32 => .fifo [opWord opSync32 0#24]
  | .dquad low ws => .fifo (opWord opDquad low :: ws)
  | .nop40 low => .fifo [opWord opNop40 low]
  | .unk w => .fifo [w]
  | .dTexsel21 texoffs => .list .ten [opWord Config.dlTexselA 0#24, texoffs]
  | .dTexsel22 texoffs => .list .ten [opWord Config.dlTexselB 0#24, texoffs]
  | .dSync => .list .ten [opWord Config.dlSync 0#24, 0#32]
  | .dSetreg reg value => .list .ten [regWord Config.dlReg reg, value]
  | .dQuad framing a b c d => .list framing (quadWords framing a b c d)
  | .dUnk w0 w1 => .list .ten [w0, w1]
  | .rd o => .bus (.read o)
  | .wr o v => .bus (.write o v)
  | .push w => .bus (.write Config.fifoTrigger w)
  | .ptrRender data => .bus (.write Config.ptrPrimary (Config.ptrIdxRender ++ data))
  | .ptrTex data => .bus (.write Config.ptrPrimary (Config.ptrIdxTex ++ data))
  | .ptrQsize data => .bus (.write Config.ptrPrimary (Config.ptrIdxQsize ++ data))

/-! ## Words of the opcode table -/

/-- The fourteen 32-bit words of a table number, first word lowest; every bit at or above `nbits` is 0. -/
def tableWords (nbits w : Nat) : List Word :=
  (List.range 14).map fun k => BitVec.ofNat 32 ((w % 2 ^ nbits) >>> (32 * k))

/-- The stream a table number is read from. The table gives a row's words and not its stream, and the same word can stand
in two or three streams (R130), so the model picks one: the FIFO where the number is that of a FIFO row with its length,
else the display list where the number has a sub-command's length (2, 10 or 14 words), else, for a single word, the
first of FIFO, display list, pointer whose named rows match its top byte, else the FIFO's `UNK`.
DESIGN CHOICE: notes/assumptions/2.md. -/
def tableCode (nbits w : Nat) : Code :=
  let ws := tableWords nbits w
  let op := topByte (wordAt ws 0)
  if nbits = 32 * Framing.ten.words ∧ Config.dlOpQuad.contains op then .list .ten (ws.take 10)
  else if nbits = 32 * Framing.fourteen.words ∧ Config.dlOpQuad.contains op then .list .fourteen ws
  else if nbits = 64 ∧ required op ≠ 2 then .list .ten (ws.take (needed Config.defaults .ten op))
  else if fifoOpcodes.contains op then .fifo (ws.take (required op))
  else if (Config.dlOpTexsel ++ Config.dlOpSync ++ Config.dlOpReg ++ Config.dlOpQuad).contains op then .list .ten (ws.take (needed Config.defaults .ten op))
  else if Config.defaults.ptrIndices.contains op then .bus (.write Config.ptrPrimary (wordAt ws 0))
  else .fifo (ws.take 1)

/-- The instruction the decoder reads from a table number. -/
def decodeTableWord (nbits w : Nat) : Option Instr := (decode Config.defaults (tableCode nbits w)).toOption

end Sys2Proof
end

