-- ==== Sys2Proof/Machine/State.lean ====
section
/-! DEFINITION. The state of the machine (10_state.md R30 to R48), the failures it records (60_exceptions.md R340 to R342), the
refusals, the inputs it answers between transactions, what it tells the outside, and reset. The updates named here are
the only ways the rest of the model changes a field. -/

namespace Sys2Proof.Machine

/-- The failures that stop the machine (R340 to R342). A failure is first TAKEN, as `raise` says (R349): a next state whose
`fail` field records it. The state that records one accepts nothing further (R44), so a step from it ends in this fault.
Safe: the source gives the machine no behaviour after a failure. DEDUCED: notes/assumptions/10.md. -/
inductive Fault where
  /-- Raised by `MODEL23` and `MODEL24` when the count is above `DL_COUNT_MAX` (R250, R341). The source's "fatal (abort
  emulation)". Safe. -/
  | displayListFatal (base : Word) (count : Nat)
  /-- Raised by `MemRead` and `MemWrite` at a byte address outside the bank (R83, R342). Safe. -/
  | waveRange (bank : Bank) (addr : Int) (size : Nat)
  /-- Raised by `D.SETREG` aimed at `FIFO_TRIGGER` (R257, R342). Safe. -/
  | reentrantFifo (reg : Offset) (value : Word)
  /-- Raised by `PT2CLR` and by scan conversion when no timing write was accepted since reset (R217, R291, R342). Safe. -/
  | unsetClip
deriving DecidableEq, Repr

/-- Where the spec gives the machine no successor (R11 "Refused"). Each is safe: nothing can be proved through it. -/
inductive Refusal where
  /-- An instruction that has no meaning in this model yet. Safe. No arm of `exec` answers it. -/
  | notModelled (mnemonic : String)
  /-- The near clip gave six vertices (R286, 90_conflicts.md C4, U5). Safe. -/
  | sixVertexClip
  /-- A row of the polygon has more than two edge crossings (R293, U6). Safe. -/
  | nonConvexPolygon
  /-- A value of the rasterizer's arithmetic is not finite, or a retained vertex has `Z <= 0` (R283, R287, R303, U7).
  Safe. -/
  | nonFiniteCoordinate
  /-- A texel coordinate is negative (R91, R295, U8). Safe. -/
  | negativeTexel
  /-- A write to a Wave Memory port in a configuration without `PortEffect` (R183, U10). Safe. -/
  | portUnmodelled (o : Offset)
  /-- A push onto a full FIFO buffer (R176, U13). Unreachable. Safe. -/
  | fifoOverflow
  /-- A Wave Memory access that is not naturally aligned (R87, U14). Unreachable. Safe. -/
  | misalignedWaveAccess (bank : Bank) (addr : Int) (size : Nat)
  /-- A quad drawn while the legacy debug toggle is active (R354, U11). Safe. -/
  | debugToggleActive
deriving DecidableEq, Repr

/-- A timer: "timers are either pending or fired" (R43, R347). -/
inductive TimerState where
  | idle
  | pending
deriving DecidableEq, Repr

/-- The three timers (R43). -/
inductive Timer where
  | fifo
  | vblOn
  | vblOff
deriving DecidableEq, Repr

/-- Every field that survives a transaction: what a snapshot captures (R185). -/
structure Arch where
  /-- `R`, 128 words (R30). -/
  regs : RegFile
  /-- `wave0` (R37). -/
  wave0 : Memory
  /-- `wave1` (R37). -/
  wave1 : Memory
  /-- `matrix` (R35). -/
  matrix : Mat3 F
  /-- `point` (R35). -/
  point : Vec3 F
  /-- `point2` (R36). -/
  point2 : Vec3 F
  /-- `fifo`, oldest word first (R34). -/
  fifo : List Word
  /-- `clip`; `none` is the spec's `unset` (R38). -/
  clip : Option Rect
  /-- `yscale`, 0 or 1 (R38). -/
  yscale : Bool
  /-- `renderbase`, a bank 1 byte address (R33). -/
  renderbase : Nat
  /-- `texbase`, a bank 0 cell index (R33). -/
  texbase : Nat
  /-- `quad_size`, 10 or 14 (R33). -/
  quadSize : Framing
  /-- `zbase` (R39). -/
  zbase : F
  /-- `texwidth_prev`; `none` is the spec's `unset` (R42). -/
  texwidthPrev : Option TexWidth
  /-- `irq_fifo` (R43). -/
  irqFifo : Bool
  /-- `irq_vblank` (R43). -/
  irqVblank : Bool
  /-- `t_fifo` (R43). -/
  tFifo : TimerState
  /-- `t_vbl_on` (R43). -/
  tVblOn : TimerState
  /-- `t_vbl_off` (R43). -/
  tVblOff : TimerState
  /-- `fail`; `none` is the spec's `none` (R44). -/
  fail : Option Fault
deriving DecidableEq, Repr

/-- The walker's transients, alive during one walk (R41). -/
structure Walker where
  /-- `base`: the expanded address the outer loop will take next, 0 when there is none (R251). -/
  base : Word
  /-- The number of records less one (R250). -/
  count : Nat
  /-- The pointer of the list being read; `none` while the outer loop is at its test (R251). -/
  list : Option Nat
  /-- `cur`: the record the next iteration reads (R46). -/
  cur : Nat
  /-- `buf`, the local buffer. -/
  buf : List Word
  /-- `dl_quadsize`, the walk's own framing. -/
  dlQuadsize : Framing
  /-- `texoffs`, the stashed texture offset. -/
  texoffs : Word
deriving DecidableEq, Repr

/-- The walker when no walk is alive. -/
def Walker.clear : Walker := ⟨0#32, 0, none, 0, [], .ten, 0#32⟩

/-- Which part of a transaction the next step performs. The machine has no program counter (R46): this, `fifo` and the
walker play its role. DESIGN CHOICE (a transaction is several steps): notes/assumptions/3.md. -/
inductive Phase where
  /-- Between transactions (R355). -/
  | idle
  /-- A word was appended to `fifo`; the FIFO processor runs (R210). -/
  | command
  /-- The walker runs (R251). -/
  | walk
deriving DecidableEq, Repr

/-- What may happen between transactions, each chosen by an agent outside the core (R6). -/
inductive Input where
  /-- The host bus issues a transaction (R140). -/
  | bus (op : BusOp)
  /-- A timer fires, if it is pending (R345 to R347). -/
  | fire (t : Timer)
  /-- The diagnostic event `SetZbase(z)` (R354). -/
  | setZbase (z : F)
  /-- The legacy debug toggle is set or cleared (R354). -/
  | debugToggle (active : Bool)
  /-- Device reset (R380). -/
  | deviceReset
  /-- `Snapshot()` (R185). -/
  | snapshot
  /-- `Restore(s)` (R186). -/
  | restore (a : Arch)
deriving DecidableEq, Repr

/-- A logged event (R343). -/
inductive LogEvent where
  | fifoUnknown (w0 : Word)
  | directQuad (ws : List Word)
  | nop40 (w0 : Word)
  | correctingQuadSize
  | dlUnknown (w0 : Word) (w1 : Word)
  | unknownTexFormat (code : BitVec 16)
  | pointerUnknown (idx : BitVec 8) (data : BitVec 24)
deriving DecidableEq, Repr

/-- What the core tells the outside. No rule reads it back. DESIGN CHOICE (kept as a list): notes/assumptions/13.md. -/
inductive Output where
  /-- The value a `BusRead` returns (R170). -/
  | readData (o : Offset) (v : Word)
  /-- `display.configure(htotal, vtotal, vis, refresh)` (R182, R352). -/
  | configure (htotal : Int) (vtotal : Int) (vis : IntRect) (refresh : Nat)
  /-- A captured snapshot (R185). -/
  | snapshot (a : Arch)
  /-- A logged event (R343). -/
  | log (e : LogEvent)
deriving DecidableEq, Repr

/-- The whole state: what a snapshot captures, `seen_codes` (R42), the walker's transients (R41), and the model's own
fields: the phase, the inputs still to come, the outputs so far, the debug toggle (R354) and the count of free choices made.
The display collaborator's answers are no fields (R45). -/
structure State extends Arch where
  seenCodes : List (BitVec 16)
  walker : Walker
  phase : Phase
  inputs : List Input
  outputs : List Output
  debugToggle : Bool
  freeIndex : Nat
deriving DecidableEq, Repr

/-! ## Updates, one per named change -/

def State.setReg (s : State) (o : Offset) (v : Word) : State := { s with regs := s.regs.set o.toNat v o.isLt }

def State.setWave0 (s : State) (m : Memory) : State := { s with wave0 := m }

def State.setWave1 (s : State) (m : Memory) : State := { s with wave1 := m }

def State.setMatrix (s : State) (m : Mat3 F) : State := { s with matrix := m }

def State.setPoint (s : State) (p : Vec3 F) : State := { s with point := p }

def State.setPoint2 (s : State) (p : Vec3 F) : State := { s with point2 := p }

def State.setFifo (s : State) (ws : List Word) : State := { s with fifo := ws }

def State.setScreen (s : State) (c : Rect) (y : Bool) : State := { s with clip := some c, yscale := y }

def State.setRenderbase (s : State) (p : Nat) : State := { s with renderbase := p }

def State.setTexbase (s : State) (c : Nat) : State := { s with texbase := c }

def State.setQuadSize (s : State) (f : Framing) : State := { s with quadSize := f }

def State.setZbase (s : State) (z : F) : State := { s with zbase := z }

def State.setTexwidthPrev (s : State) (w : TexWidth) : State := { s with texwidthPrev := some w }

def State.setFifoTimer (s : State) (t : TimerState) : State := { s with tFifo := t }

def State.fireFifo (s : State) : State := { s with tFifo := .idle, irqFifo := true }

def State.fireVblOn (s : State) : State := { s with irqVblank := true, tVblOn := .idle, tVblOff := .pending }

def State.fireVblOff (s : State) : State := { s with irqVblank := false, tVblOff := .idle, tVblOn := .pending }

def State.setFail (s : State) (f : Fault) : State := { s with fail := some f }

def State.setSeenCodes (s : State) (cs : List (BitVec 16)) : State := { s with seenCodes := cs }

def State.setWalker (s : State) (w : Walker) : State := { s with walker := w }

def State.setPhase (s : State) (p : Phase) : State := { s with phase := p }

def State.setInputs (s : State) (is : List Input) : State := { s with inputs := is }

def State.emit (s : State) (o : Output) : State := { s with outputs := s.outputs ++ [o] }

def State.setDebugToggle (s : State) (b : Bool) : State := { s with debugToggle := b }

def State.nextFree (s : State) : State := { s with freeIndex := s.freeIndex + 1 }

def State.setArch (s : State) (a : Arch) : State := { s with toArch := a }

/-! ## Reset (R48, R380, R381) -/

/-- The value 0.0. -/
def zeroF : F := .fin 0

/-- Every field a device reset sets, over the Wave Memory and the `fail` it leaves untouched (R48, R380). -/
def resetArch (wave0 wave1 : Memory) (fail : Option Fault) : Arch where
  regs := Vector.replicate 128 0#32
  wave0 := wave0
  wave1 := wave1
  matrix := ⟨zeroF, zeroF, zeroF, zeroF, zeroF, zeroF, zeroF, zeroF, zeroF⟩
  point := ⟨zeroF, zeroF, zeroF⟩
  point2 := ⟨zeroF, zeroF, zeroF⟩
  fifo := []
  clip := none
  yscale := false
  renderbase := 0
  texbase := 0
  quadSize := .ten
  zbase := Config.zbaseDefault
  texwidthPrev := none
  irqFifo := false
  irqVblank := false
  tFifo := .idle
  tVblOn := .pending
  tVblOff := .idle
  fail := fail

/-- Right after device start and the reset that follows it (R48, R381): no byte of Wave Memory has been written, no failure
is recorded. Nothing is waiting, nothing has been told; the toggle's position is DESIGN CHOICE (notes/assumptions/12.md). -/
def State.reset : State where
  toArch := resetArch [] [] none
  seenCodes := []
  walker := Walker.clear
  phase := .idle
  inputs := []
  outputs := []
  debugToggle := false
  freeIndex := 0

end Sys2Proof.Machine
end

