-- ==== Sys2Proof/Machine/Ops.lean ====
section
/-! DEFINITION. The shared operations: failing (60_exceptions.md R341, R342, R349), sequencing, the Wave Memory controller
(20_memory.md R82 to R92) and the register file. -/

namespace Sys2Proof

/-! ## One bank as data -/

/-- The byte at an address, `none` where nothing has been written since power-on. -/
def Memory.lookup (m : Memory) (a : Nat) : Option Byte :=
  match m with
  | [] => none
  | (k, v) :: rest => if k = a then some v else Memory.lookup rest a

/-- Write one byte, keeping the addresses strictly rising. -/
def Memory.write (m : Memory) (a : Nat) (b : Byte) : Memory :=
  match m with
  | [] => [(a, b)]
  | (k, v) :: rest =>
    if a < k then (a, b) :: (k, v) :: rest
    else if k = a then (a, b) :: rest
    else (k, v) :: Memory.write rest a b

/-- The canonical form: addresses strictly rising. An unlisted address has no value of its own, so no entry can equal what
an unlisted address reads as. -/
def Memory.wf (m : Memory) : Bool :=
  match m with
  | [] => true
  | (k, _) :: rest => rest.all (fun c => decide (k < c.1)) && Memory.wf rest

/-- What a byte of a bank reads as: the byte written last, or the free power-on value (R381). -/
def Memory.byteAt (b : Bank) (m : Memory) (a : Nat) : Byte := (m.lookup a).getD (Config.powerOnByte b a)

/-- `n` bytes from `a` on, little-endian: the sum of `bank[a+i] * 256^i` (R83). -/
def Memory.readLE (b : Bank) (m : Memory) (a : Nat) : Nat → Nat
  | 0 => 0
  | n + 1 => (m.byteAt b a).toNat + 256 * Memory.readLE b m (a + 1) n

/-- The low `8n` bits of `v` into the `n` bytes from `a` on, little-endian (R83). -/
def Memory.writeLE (m : Memory) (a : Nat) (v : Nat) : Nat → Memory
  | 0 => m
  | n + 1 => Memory.writeLE (m.write a (BitVec.ofNat 8 v)) (a + 1) (v / 256) n

namespace Machine

/-! ## Failing and sequencing -/

/-- Why a computation gives no value: a failure is raised, or the spec gives no successor (R11). -/
inductive Stop where
  | raise (f : Fault)
  | refuse (r : Refusal)
deriving DecidableEq, Repr

/-- A value, or the reason there is none. -/
abbrev Access (α : Type) := Except Stop α

/-- The outcome of a step of this machine. -/
abbrev Result := Host.Outcome State Fault Refusal

/-- TAKING A FAILURE (R341, R342, R349): the only state change is `fail`; everything written before stays written, and
the transaction ends at once. There is no return (R350). -/
def raise (f : Fault) (s : State) : Result := .next (s.setFail f)

/-- End a transaction for a reason. -/
def stop (e : Stop) (s : State) : Result :=
  match e with
  | .raise f => raise f s
  | .refuse r => .refused r

/-- Go on with `k` unless the transaction has ended (R348: the first `raise` or `refuse` reached ends it). -/
def andThen (o : Result) (k : State → Result) : Result :=
  match o with
  | .next s =>
    match s.fail with
    | none => k s
    | some _ => .next s
  | .fault f => .fault f
  | .refused r => .refused r

/-- `for i in lo .. lo+n-1`, in that order (R8). -/
def forRange (f : Nat → State → Result) (lo : Nat) : Nat → State → Result
  | 0, s => .next s
  | n + 1, s => andThen (f lo s) (forRange f (lo + 1) n)

/-- No transaction is accepted once a failure is recorded (R44, R175). -/
def accepting (s : State) (k : Result) : Result :=
  match s.fail with
  | none => k
  | some f => .fault f

/-! ## The Wave Memory controller -/

/-- The size of a bank in bytes (R80). -/
def bankSize (cfg : Cfg) : Bank → Nat
  | .bank0 => cfg.size0
  | .bank1 => cfg.size1

/-- The contents of a bank. -/
def State.bank (s : State) : Bank → Memory
  | .bank0 => s.wave0
  | .bank1 => s.wave1

/-- Replace the contents of a bank. -/
def State.setBank (s : State) (b : Bank) (m : Memory) : State :=
  match b with
  | .bank0 => s.setWave0 m
  | .bank1 => s.setWave1 m

/-- Whether an access of `n` bytes at `a` may be made (R83, R87): inside the bank, and aligned, tested in that order
(DEDUCED: notes/assumptions/17.md). -/
def checkAccess (cfg : Cfg) (b : Bank) (a : Int) (n : Nat) : Access Unit :=
  if a < 0 ∨ (bankSize cfg b : Int) < a + n then .error (.raise (.waveRange b a n))
  else if a % n ≠ 0 then .error (.refuse (.misalignedWaveAccess b a n))
  else .ok ()

/-- `MemRead(b, a, n)` on a bank's contents (R83). -/
def memRead (cfg : Cfg) (b : Bank) (m : Memory) (a : Int) (n : Nat) : Access Nat :=
  match checkAccess cfg b a n with
  | .ok _ => .ok (m.readLE b a.toNat n)
  | .error e => .error e

/-- `MemWrite(b, a, n, v)` (R83): a failing write writes nothing. -/
def memWrite (cfg : Cfg) (b : Bank) (a : Int) (n : Nat) (v : Nat) (s : State) : Result :=
  match checkAccess cfg b a n with
  | .ok _ => .next (s.setBank b ((s.bank b).writeLE a.toNat v n))
  | .error e => stop e s

/-- `Read8(b, p, k)` (R86). -/
def read8 (cfg : Cfg) (b : Bank) (m : Memory) (p : Nat) (k : Int) : Access Nat := memRead cfg b m (p + k) 1

/-- `Read16(b, p, k)` (R86). -/
def read16 (cfg : Cfg) (b : Bank) (m : Memory) (p : Nat) (k : Int) : Access Nat := memRead cfg b m (p + 2 * k) 2

/-- `Read32(b, p, k)` (R86). -/
def read32 (cfg : Cfg) (b : Bank) (m : Memory) (p : Nat) (k : Int) : Access Nat := memRead cfg b m (p + 4 * k) 4

/-- `Write8(b, p, k, v)` (R86). -/
def write8 (cfg : Cfg) (b : Bank) (p : Nat) (k : Int) (v : Nat) (s : State) : Result := memWrite cfg b (p + k) 1 v s

/-- `Write16(b, p, k, v)` (R86). -/
def write16 (cfg : Cfg) (b : Bank) (p : Nat) (k : Int) (v : Nat) (s : State) : Result := memWrite cfg b (p + 2 * k) 2 v s

/-- `Write32(b, p, k, v)` (R86). -/
def write32 (cfg : Cfg) (b : Bank) (p : Nat) (k : Int) (v : Nat) (s : State) : Result := memWrite cfg b (p + 4 * k) 4 v s

/-- `ReadPix(rb, y, x)` (R90). -/
def readPix (cfg : Cfg) (m : Memory) (rb y x : Nat) : Access Nat := memRead cfg .bank1 m (colorAddr rb y x) 4

/-- `WritePix(rb, y, x, c)` (R90). -/
def writePix (cfg : Cfg) (rb y x : Nat) (c : Word) (s : State) : Result := memWrite cfg .bank1 (colorAddr rb y x) 4 c.toNat s

/-- `ReadDepth(rb, y, x)` (R90). -/
def readDepth (cfg : Cfg) (m : Memory) (rb y x : Nat) : Access Nat := memRead cfg .bank1 m (depthAddr rb y x) 2

/-- `WriteDepth(rb, y, x, d)` (R90). -/
def writeDepth (cfg : Cfg) (rb y x : Nat) (d : Nat) (s : State) : Result := memWrite cfg .bank1 (depthAddr rb y x) 2 d s

/-- `Texel(tb, w, v, u)` for `u, v >= 0` (R91). -/
def texel (cfg : Cfg) (m : Memory) (tb : Nat) (w : TexWidth) (v u : Nat) : Access Nat := read8 cfg .bank0 m tb (texelOffset w v u)

/-- `PalEntry(pb, t)` (R92). -/
def palEntry (cfg : Cfg) (m : Memory) (pb t : Nat) : Access Nat := read16 cfg .bank0 m pb t

/-! ## The register file -/

/-- `R[i]`: the stored value, without any read override (R8). -/
def State.reg (s : State) (o : Offset) : Word := s.regs[o.toNat]'o.isLt

end Machine

end Sys2Proof
end

