-- ==== Sys2Proof/Machine/Flags.lean ====
section
/-! DEFINITION. The flags and the synthesized words (10_state.md R47; 40_register_bus.md R171 to R174, R180, R182). The machine has no condition codes:
its one-bit or mode-like state is `quad_size`, `yscale`, the vblank bit of STATUS and the two interrupt lines. -/

namespace Sys2Proof.Machine

/-- The quad-size flag a pointer write selects: 10 when the data is zero, else 14 (R180). -/
def quadSizeOf (data : BitVec 24) : Framing := if data = 0#24 then .ten else .fourteen

/-- `Status()`: the fixed pattern or-ed with the live vblank bit (R172). -/
def statusWord (cfg : Cfg) (vblank : Bool) : Word := cfg.statusFixed ||| (if vblank then cfg.statusVblank else 0#32)

/-- `ScanPos()`: the scan line in both halves (R174). -/
def scanPos (vpos : Nat) : Word := BitVec.ofNat 16 vpos ++ BitVec.ofNat 16 vpos

/-- Whether recomputed timing is applied (R182): the totals strictly positive and the visible rectangle, not inverted,
within them. -/
def GeomAnswer.accepted (g : GeomAnswer) : Bool :=
  decide (0 < g.htotal) && decide (0 < g.vtotal)
  && decide (g.vis.minX ≤ g.vis.maxX) && decide (g.vis.minY ≤ g.vis.maxY)
  && decide (0 ≤ g.vis.minX) && decide (g.vis.maxX < g.htotal)
  && decide (0 ≤ g.vis.minY) && decide (g.vis.maxY < g.vtotal)

/-- The clip rectangle an answer of `Geometry` gives (R182). -/
def GeomAnswer.clip (g : GeomAnswer) : Rect := ⟨g.clipX, g.clipX + g.clipSpanX, g.clipY, g.clipY + g.clipSpanY⟩

/-- What `GeometryUpdate` does with an answer of `Geometry` (R182): the display is configured, then `clip` and `yscale`
replaced, or everything is retained and nothing logged. -/
def applyGeometry (g : GeomAnswer) (s : State) : State :=
  if GeomAnswer.accepted g then
    (s.emit (.configure g.htotal g.vtotal g.vis g.refresh)).setScreen (GeomAnswer.clip g) g.yscale
  else s

/-- What the firing of a timer does (R345, R346); a timer that is idle does not fire (R347). -/
def fireTimer (t : Timer) (s : State) : State :=
  match t with
  | .fifo => if s.tFifo = .pending then s.fireFifo else s
  | .vblOn => if s.tVblOn = .pending then s.fireVblOn else s
  | .vblOff => if s.tVblOff = .pending then s.fireVblOff else s

end Sys2Proof.Machine
end

