-- ==== Sys2Proof/Machine/Registers.lean ====
section
/-! DEFINITION. The register bus: `BusRead`, `BusWrite` and the side effects of a write (40_register_bus.md R170 to R184). Shared by
the bus rows, `SETREG` and `D.SETREG`. -/

namespace Sys2Proof.Machine

/-- `BusRead(o)` (R170 to R174): the value it returns, and the state after. No state of the machine changes; a query of the
display is a free choice of this step (R45, R352, U17), so the count of free choices goes up by one with each. -/
def busRead (cfg : Cfg) (o : Offset) (s : State) : Word × State :=
  if o = 0#7 then (cfg.idConst, s)
  else if o = 1#7 then (statusWord cfg (Config.displayVblank s.freeIndex), s.nextFree)
  else if o = 7#7 then (cfg.magic7, s)
  else if o = cfg.scanposOffset then (scanPos (Config.displayVpos s.freeIndex), s.nextFree)
  else (s.reg o, s)

/-- `FifoPush(v)` up to the point where the FIFO processor runs (R176). The processor is the next step of the machine
(`Phase.command`), which ends the push: `finishCommand` or `incompleteCommand`. -/
def fifoPush (cfg : Cfg) (v : Word) (s : State) : Result :=
  if s.fifo.length = cfg.fifoCap then .refused .fifoOverflow
  else .next ((s.setFifo (s.fifo ++ [v])).setPhase .command)

/-- `FifoProcess` answered "incomplete" (R210): the words stay, and the FIFO-ready timer is armed (R176). -/
def incompleteCommand (s : State) : State := (s.setFifoTimer .pending).setPhase .idle

/-- `FifoProcess` answered "processed" (R210): the whole buffer is emptied and the FIFO-ready timer is armed (R176). -/
def finishCommand (s : State) : State := ((s.setFifo []).setFifoTimer .pending).setPhase .idle

/-- The effect of a write to the render pointer (R178): bits shifted out of 32 are lost. -/
def renderPointer (cfg : Cfg) (data : BitVec 24) : Nat := expand1 cfg (data.zeroExtend 32 <<< cfg.renderShift)

/-- The effect of a write to the texture pointer (R179). -/
def texturePointer (cfg : Cfg) (data : BitVec 24) : Nat := data.toNat % (cfg.W0 * cfg.H0)

/-- `PointerWrite(idx, data)` (R177 to R181). -/
def pointerWrite (cfg : Cfg) (idx : BitVec 8) (data : BitVec 24) (s : State) : State :=
  if idx = cfg.ptrIdxRender then s.setRenderbase (renderPointer cfg data)
  else if idx = cfg.ptrIdxTex then s.setTexbase (texturePointer cfg data)
  else if idx = cfg.ptrIdxQsize then s.setQuadSize (quadSizeOf data)
  else s.emit (.log (.pointerUnknown idx data))

/-- `GeometryUpdate()` (R182), run after the store. -/
def geometryUpdate (cfg : Cfg) (s : State) : State := applyGeometry (cfg.geometry s.regs) s

/-- One action of a `PortEffect` (R183). A register outside `PORT_OFFSETS` is not written: `PortEffect` must not touch any
other state. A byte outside its bank raises `WaveRangeFault`, as every `MemWrite` does. -/
def portAction (cfg : Cfg) (a : PortAction) (s : State) : Result :=
  match a with
  | .setReg o v => .next (if cfg.portOffsets.contains o then s.setReg o v else s)
  | .setByte b addr v => memWrite cfg b addr 1 v.toNat s
  | .pointer idx data => .next (pointerWrite cfg idx data s)

/-- The actions of a `PortEffect`, in order. -/
def portActions (cfg : Cfg) : List PortAction → State → Result
  | [], s => .next s
  | a :: rest, s => andThen (portAction cfg a s) (portActions cfg rest)

/-- What a `PortEffect` may read of the state (R183): the port registers and the banks, nothing else. The banks are handed over
whole: a read past the end of a bank, of which R183 says nothing and which R83 makes a fault of a `MemRead`, raises no
`WaveRangeFault` here. DESIGN CHOICE: notes/assumptions/8.md. -/
def portView (cfg : Cfg) (s : State) : PortView :=
  ⟨cfg.portOffsets.map fun o => (o, s.reg o), s.wave0, s.wave1⟩

/-- `PortWrite(o, oldval, v)` (R183), for the `PortEffect` of the configuration. -/
def portWrite (cfg : Cfg) (o : Offset) (oldval v : Word) (s : State) : Result :=
  match cfg.portEffect with
  | none => .refused (.portUnmodelled o)
  | some f => portActions cfg (f o oldval v (portView cfg s)) s

/-- `BusWrite(o, v)` (R175): nothing is accepted after a failure; the old value is read, the new one stored, and then the
side effect of the offset runs. -/
def busWrite (cfg : Cfg) (o : Offset) (v : Word) (s : State) : Result :=
  accepting s <|
    let oldval := s.reg o
    let t := s.setReg o v
    if o = cfg.fifoTrigger then fifoPush cfg v t
    else if o = cfg.ptrPrimary then .next (pointerWrite cfg (ptrIndex v) (ptrData v) t)
    else if cfg.timingOffsets.contains o then .next (geometryUpdate cfg t)
    else if cfg.portOffsets.contains o then portWrite cfg o oldval v t
    else .next t

end Sys2Proof.Machine
end

