-- ==== Sys2Proof/Machine/Bus.lean ====
section
/-! DEFINITION. The meanings of the bus rows and the pointer rows of the opcode table (40_register_bus.md). -/

namespace Sys2Proof.Machine

/-- A read by the host (R170): the value is told to the outside; nothing is accepted after a failure (R44). -/
def hostRead (cfg : Cfg) (o : Offset) (s : State) : Result :=
  accepting s <|
    let vt := busRead cfg o s
    .next (vt.2.emit (.readData o vt.1))

/-- A write by the host to a pointer sub-register (R144, R177). -/
def hostPointer (cfg : Cfg) (idx : BitVec 8) (data : BitVec 24) (s : State) : Result :=
  busWrite cfg cfg.ptrPrimary (idx ++ data) s

/-! ## The meanings, at the configuration the machine runs at -/

/-- `RD o` (R170). -/
def execRd (o : Offset) (s : State) : Result := hostRead Config.defaults o s

/-- `WR o, v` (R175). -/
def execWr (o : Offset) (v : Word) (s : State) : Result := busWrite Config.defaults o v s

/-- `PUSH w` (R144, R176). -/
def execPush (w : Word) (s : State) : Result := busWrite Config.defaults Config.defaults.fifoTrigger w s

/-- `PTR PTR_IDX_RENDER, data` (R144, R178). -/
def execPtrRender (data : BitVec 24) (s : State) : Result := hostPointer Config.defaults Config.defaults.ptrIdxRender data s

/-- `PTR PTR_IDX_TEX, data` (R144, R179). -/
def execPtrTex (data : BitVec 24) (s : State) : Result := hostPointer Config.defaults Config.defaults.ptrIdxTex data s

/-- `PTR PTR_IDX_QSIZE, data` (R144, R180). -/
def execPtrQsize (data : BitVec 24) (s : State) : Result := hostPointer Config.defaults Config.defaults.ptrIdxQsize data s

end Sys2Proof.Machine
end

