-- ==== Sys2Proof/Machine/Raster.lean ====
section
/-! DEFINITION. The rasterizer (43_rasterizer.md R280 to R306): decode, transform, near clip, projection, nudge, width class, capture, scan
conversion, pixel shader. Arithmetic is over the rationals with the configuration's `fl` after each single operation, in the order the
rules write the operations (00_scope.md R9); a result that is not finite ends the quad (R303; DEDUCED: notes/assumptions/11.md). -/

namespace Sys2Proof.Machine

/-! ## Arithmetic in F -/

/-- A value that must be finite (R283, R287, R303). -/
def finite (x : F) : Access Rat :=
  match x with
  | .fin q => .ok q
  | .posInf => .error (.refuse .nonFiniteCoordinate)
  | .negInf => .error (.refuse .nonFiniteCoordinate)

def fadd (cfg : Cfg) (a b : Rat) : Access Rat := finite (cfg.fl (a + b))

def fsub (cfg : Cfg) (a b : Rat) : Access Rat := finite (cfg.fl (a - b))

def fmul (cfg : Cfg) (a b : Rat) : Access Rat := finite (cfg.fl (a * b))

/-- A quotient; the divisors of R285, R287, R293, R294 are never 0, and a divisor of 0 has no finite quotient. -/
def fdiv (cfg : Cfg) (a b : Rat) : Access Rat :=
  if b = 0 then .error (.refuse .nonFiniteCoordinate) else finite (cfg.fl (a / b))

/-- `a + t*(b - a)` (R285, R293, R294). -/
def lerp (cfg : Cfg) (a b t : Rat) : Access Rat := do
  let d ← fsub cfg b a
  let m ← fmul cfg t d
  fadd cfg a m

/-! ## Vertices -/

/-- A camera-space vertex `(X, Y, Z, U, V)` (R284). -/
structure CamVertex where
  x : Rat
  y : Rat
  z : Rat
  u : Rat
  v : Rat
deriving DecidableEq, Repr

/-- A screen vertex `(sx, sy, Z, U, V)` (R287). -/
structure ScreenVertex where
  sx : Rat
  sy : Rat
  z : Rat
  u : Rat
  v : Rat
deriving DecidableEq, Repr

/-- One row of the transform: `x*m0 + y*m1 + z*m2 + p`, left to right (R283). -/
def transformRow (cfg : Cfg) (x y z : Rat) (m0 m1 m2 p : F) : Access Rat := do
  let m0 ← finite m0
  let m1 ← finite m1
  let m2 ← finite m2
  let p ← finite p
  let a ← fmul cfg x m0
  let b ← fmul cfg y m1
  let ab ← fadd cfg a b
  let c ← fmul cfg z m2
  let abc ← fadd cfg ab c
  fadd cfg abc p

/-- Transform one vertex, add the depth bias and the texture page (R281 to R284). -/
def camVertex (cfg : Cfg) (m : Mat3 F) (p : Vec3 F) (zbase : F) (texoffs : Word) (q : QVertex) : Access CamVertex := do
  let x := s16 q.x
  let y := s16 q.y
  let z := s16 q.z
  let cx ← transformRow cfg x y z m.m00 m.m01 m.m02 p.c0
  let cy ← transformRow cfg x y z m.m10 m.m11 m.m12 p.c1
  let cz ← transformRow cfg x y z m.m20 m.m21 m.m22 p.c2
  let bias ← finite zbase
  let cz ← fadd cfg cz bias
  let v ← fadd cfg (u8 q.v) (mkRat (pageSelector texoffs).toNat 1)
  pure ⟨cx, cy, cz, u8 q.u, v⟩

/-! ## Near clip -/

/-- A vertex is outside when `Z < NEAR_EPS` (R285). -/
def outside (cfg : Cfg) (a : CamVertex) : Bool := decide (a.z < cfg.nearEps)

/-- The crossing of an edge with the near plane (R285). -/
def nearCrossing (cfg : Cfg) (a b : CamVertex) : Access CamVertex := do
  let n ← fsub cfg cfg.nearEps a.z
  let d ← fsub cfg b.z a.z
  let t ← fdiv cfg n d
  let x ← lerp cfg a.x b.x t
  let y ← lerp cfg a.y b.y t
  let z ← lerp cfg a.z b.z t
  let u ← lerp cfg a.u b.u t
  let v ← lerp cfg a.v b.v t
  pure ⟨x, y, z, u, v⟩

/-- The output vertices of one edge: the crossing if the edge crosses, then its end if that is inside (R285). -/
def clipEdge (cfg : Cfg) (a b : CamVertex) : Access (List CamVertex) :=
  if outside cfg a != outside cfg b then do
    let c ← nearCrossing cfg a b
    pure (if outside cfg b then [c] else [c, b])
  else pure (if outside cfg b then [] else [b])

/-- `ClipNear` over the four vertices, in polygon order (R285). -/
def clipNear (cfg : Cfg) (a b c d : CamVertex) : Access (List CamVertex) := do
  let e0 ← clipEdge cfg d a
  let e1 ← clipEdge cfg a b
  let e2 ← clipEdge cfg b c
  let e3 ← clipEdge cfg c d
  pure (e0 ++ e1 ++ e2 ++ e3)

/-! ## Projection -/

/-- Perspective division and translation to the screen centre (R287). -/
def project (cfg : Cfg) (a : CamVertex) : Access ScreenVertex :=
  if a.z ≤ 0 then .error (.refuse .nonFiniteCoordinate)
  else do
    let ooz ← fdiv cfg cfg.projK a.z
    let mx ← fmul cfg a.x ooz
    let sx ← fadd cfg mx cfg.centerX
    let my ← fmul cfg a.y ooz
    let sy ← fadd cfg my cfg.centerY
    pure ⟨sx, sy, a.z, a.u, a.v⟩

/-- The greatest of a list of values, `a` where the list is empty. -/
def maxOf (a : Rat) (l : List Rat) : Rat := l.foldl max a

/-- The least of a list of values. -/
def minOf (a : Rat) (l : List Rat) : Rat := l.foldl min a

/-- `fl(c + NUDGE)` when `c` is the maximum, else `c` (R288). -/
def nudgeIf (cfg : Cfg) (top c : Rat) : Access Rat := if c = top then fadd cfg c cfg.nudge else pure c

/-- Nudge every vertex tied for a maximum, on each axis, both maxima computed before any change (R288). -/
def nudge (cfg : Cfg) (sv : List ScreenVertex) : Access (List ScreenVertex) :=
  match sv with
  | [] => pure []
  | a :: rest => do
    let maxx := maxOf a.sx (rest.map ScreenVertex.sx)
    let maxy := maxOf a.sy (rest.map ScreenVertex.sy)
    sv.mapM fun p => do
      let sx ← nudgeIf cfg maxx p.sx
      let sy ← nudgeIf cfg maxy p.sy
      pure { p with sx := sx, sy := sy }

/-- The polygon a quad becomes on the screen: `none` when it is discarded as degenerate (R280, R286). -/
def quadPolygon (cfg : Cfg) (m : Mat3 F) (p : Vec3 F) (zbase : F) (texoffs : Word) (v0 v1 v2 v3 : QVertex) :
    Access (Option (List ScreenVertex)) := do
  let a ← camVertex cfg m p zbase texoffs v0
  let b ← camVertex cfg m p zbase texoffs v1
  let c ← camVertex cfg m p zbase texoffs v2
  let d ← camVertex cfg m p zbase texoffs v3
  let cv ← clipNear cfg a b c d
  if cv.length < 3 then pure none
  else if 5 < cv.length then .error (.refuse .sixVertexClip)
  else do
    let sv ← cv.mapM (project cfg)
    let sv ← nudge cfg sv
    pure (some sv)

/-! ## Texture class and capture -/

/-- The class the table gives a key (R289). -/
def tableWidth (cfg : Cfg) (key : BitVec 12) : Option TexWidth := cfg.texWidthTable.lookup key

/-- `ClassifyWidth(texoffs)` (R289): the width, and the state after. An unrecognized code retains the previous class; where
there is none, the width is a free choice of this step (90_conflicts.md C3). -/
def classifyWidth (cfg : Cfg) (texoffs : Word) (s : State) : TexWidth × State :=
  match tableWidth cfg (widthKey (formatCode texoffs)) with
  | some w => (w, s.setTexwidthPrev w)
  | none =>
    let t :=
      if s.seenCodes.contains (formatCode texoffs) then s
      else (s.emit (.log (.unknownTexFormat (formatCode texoffs)))).setSeenCodes (s.seenCodes ++ [formatCode texoffs])
    match s.texwidthPrev with
    | some w => (w, t)
    | none => (Config.freeWidth s.freeIndex, t.nextFree)

/-- The copy-on-dispatch data of one primitive (R40). -/
structure Extra where
  texwidth : TexWidth
  transkey : Nat
  texbase : Nat
  palbase : Nat
deriving DecidableEq, Repr

/-- `Capture(w)` (R290). -/
def capture (cfg : Cfg) (w : TexWidth) (s : State) : Extra :=
  ⟨w, cfg.transKey, s.texbase * cfg.cell0, expand0 cfg (s.reg cfg.palbaseReg)⟩

/-! ## Scan conversion -/

/-- `r + 1/2` for an integer `r`: the sample line of a row, the sample point of a column (R292, R293). -/
def sampleAt (cfg : Cfg) (i : Nat) : Access Rat := fadd cfg i (mkRat 1 2)

/-- Whether an edge crosses the row whose sample line is `yc` (R293). -/
def crosses (yc : Rat) (e : ScreenVertex × ScreenVertex) : Bool :=
  decide (min e.1.sy e.2.sy ≤ yc) && decide (yc < max e.1.sy e.2.sy)

/-- The point where an edge crosses the row (R293). Its `sy` is not used. -/
def crossing (cfg : Cfg) (yc : Rat) (e : ScreenVertex × ScreenVertex) : Access ScreenVertex := do
  let n ← fsub cfg yc e.1.sy
  let d ← fsub cfg e.2.sy e.1.sy
  let t ← fdiv cfg n d
  let sx ← lerp cfg e.1.sx e.2.sx t
  let z ← lerp cfg e.1.z e.2.z t
  let u ← lerp cfg e.1.u e.2.u t
  let v ← lerp cfg e.1.v e.2.v t
  pure ⟨sx, yc, z, u, v⟩

/-- The edges `(sv[i], sv[(i+1) mod n])` (R291). -/
def edges (sv : List ScreenVertex) : List (ScreenVertex × ScreenVertex) := sv.zip (sv.rotate 1)

/-- The span of row `y`: its left and right ends, `none` where the row is empty (R293). A closed outline crosses a line an
even number of times, so one crossing, like more than two, is no convex polygon (DEDUCED: notes/assumptions/16.md). -/
def rowSpan (cfg : Cfg) (sv : List ScreenVertex) (y : Nat) : Access (Option (ScreenVertex × ScreenVertex)) := do
  let yc ← sampleAt cfg y
  let cs ← ((edges sv).filter (crosses yc)).mapM (crossing cfg yc)
  match cs with
  | [] => pure none
  | [a, b] => pure (some (if b.sx < a.sx then (b, a) else (a, b)))
  | _ => .error (.refuse .nonConvexPolygon)

/-- The integers from `max(rnd(lo), cmin)` to `min(rnd(hi) - 1, cmax)`: the first, and how many (R292, R293). -/
def cover (lo hi : Rat) (cmin cmax : Nat) : Nat × Nat :=
  let first := (max (rnd lo) cmin).toNat
  let last := min (rnd hi - 1) cmax
  (first, (last + 1 - first).toNat)

/-- What interpolation hands the shader (R294). -/
structure Sample where
  z : Rat
  u : Rat
  v : Rat
deriving DecidableEq, Repr

/-- Interpolate along a span, each pixel directly from its ends (R294). -/
def sampleSpan (cfg : Cfg) (l r : ScreenVertex) (x : Nat) : Access Sample := do
  let xc ← sampleAt cfg x
  let n ← fsub cfg xc l.sx
  let d ← fsub cfg r.sx l.sx
  let s ← fdiv cfg n d
  let z ← lerp cfg l.z r.z s
  let u ← lerp cfg l.u r.u s
  let v ← lerp cfg l.v r.v s
  pure ⟨z, u, v⟩

/-! ## Pixel shader -/

/-- The integers of a pixel (R295). -/
structure Texcoord where
  depth : Nat
  u0 : Nat
  fu : Nat
  v0 : Nat
  fv : Nat
deriving DecidableEq, Repr

/-- Fixed-point conversion (R295): `none` where the depth is negative and the pixel rejected. -/
def fixedPoint (cfg : Cfg) (p : Sample) : Access (Option Texcoord) := do
  let d ← fmul cfg p.z cfg.depthPerZ
  if d.floor < 0 then pure none
  else do
    let u ← fmul cfg p.u (mkRat 256 1)
    let v ← fmul cfg p.v (mkRat 256 1)
    if u.floor / 256 < 0 ∨ v.floor / 256 < 0 then .error (.refuse .negativeTexel)
    else pure (some
      { depth := min d.floor.toNat cfg.maxDepth
        u0 := (u.floor / 256).toNat
        fu := (u.floor % 256).toNat
        v0 := (v.floor / 256).toNat
        fv := (v.floor % 256).toNat })

/-- Look a texel up in the palette and expand it (R299). -/
def texelColor (cfg : Cfg) (m : Memory) (pb t : Nat) : Access Rgb := do
  let e ← palEntry cfg m pb t
  pure (entryColor (BitVec.ofNat 16 e))

/-- Sample and blend the four neighbouring texels (R297 to R300): `none` where the top-left one is transparent. All four are
read before the test, the palette after it (R306). -/
def shadeColor (cfg : Cfg) (m : Memory) (e : Extra) (c : Texcoord) : Access (Option Word) := do
  let t00 ← texel cfg m e.texbase e.texwidth c.v0 c.u0
  let t01 ← texel cfg m e.texbase e.texwidth c.v0 (c.u0 + 1)
  let t10 ← texel cfg m e.texbase e.texwidth (c.v0 + 1) c.u0
  let t11 ← texel cfg m e.texbase e.texwidth (c.v0 + 1) (c.u0 + 1)
  if t00 = e.transkey then pure none
  else do
    let c00 ← texelColor cfg m e.palbase t00
    let c01 ← texelColor cfg m e.palbase t01
    let c10 ← texelColor cfg m e.palbase t10
    let c11 ← texelColor cfg m e.palbase t11
    let o := blend c00 c01 c10 c11 c.fu c.fv
    pure (some (colorWord o.r o.g o.b))

/-- Shade one pixel up to its writes (R295 to R300): the colour and depth to write, `none` where it is rejected. -/
def shadePixel (cfg : Cfg) (e : Extra) (y x : Nat) (p : Sample) (s : State) : Access (Option (Word × Nat)) := do
  let c ← fixedPoint cfg p
  match c with
  | none => pure none
  | some c => do
    let stored ← readDepth cfg s.wave1 s.renderbase y x
    if stored < c.depth then pure none
    else do
      let o ← shadeColor cfg s.wave0 e c
      pure (o.map fun w => (w, c.depth))

/-- Write colour and depth (R301). -/
def putPixel (cfg : Cfg) (y x : Nat) (w : Word) (d : Nat) (s : State) : Result :=
  andThen (writePix cfg s.renderbase y x w s) (writeDepth cfg s.renderbase y x d)

/-- Shade and write one pixel (R295 to R301). -/
def drawPixel (cfg : Cfg) (e : Extra) (y x : Nat) (p : Sample) (s : State) : Result :=
  match shadePixel cfg e y x p s with
  | .error r => stop r s
  | .ok none => .next s
  | .ok (some (w, d)) => putPixel cfg y x w d s

/-- Interpolate and draw the pixel of column `x` of a span (R294). -/
def drawColumn (cfg : Cfg) (e : Extra) (l r : ScreenVertex) (y x : Nat) (s : State) : Result :=
  match sampleSpan cfg l r x with
  | .error q => stop q s
  | .ok p => drawPixel cfg e y x p s

/-- Draw the columns of row `y` inside the clip rectangle, in increasing order (R293). -/
def drawRow (cfg : Cfg) (sv : List ScreenVertex) (clip : Rect) (e : Extra) (y : Nat) (s : State) : Result :=
  match rowSpan cfg sv y with
  | .error q => stop q s
  | .ok none => .next s
  | .ok (some (l, r)) =>
    let xs := cover l.sx r.sx clip.minX clip.maxX
    forRange (drawColumn cfg e l r y) xs.1 xs.2 s

/-- The rows a polygon covers inside the clip rectangle (R292). -/
def polygonRows (sv : List ScreenVertex) (clip : Rect) : Nat × Nat :=
  match sv with
  | [] => (0, 0)
  | a :: rest =>
    cover (minOf a.sy (rest.map ScreenVertex.sy)) (maxOf a.sy (rest.map ScreenVertex.sy)) clip.minY clip.maxY

/-- `ScanConvert(n, sv, extra)` (R291, R292): rows in increasing order. -/
def scanConvert (cfg : Cfg) (sv : List ScreenVertex) (e : Extra) (s : State) : Result :=
  match s.clip with
  | none => raise .unsetClip s
  | some clip =>
    let ys := polygonRows sv clip
    forRange (drawRow cfg sv clip e) ys.1 ys.2 s

/-- `QuadDraw(q, texoffs)` (R280). An active debug toggle has no meaning (R354). -/
def quadDraw (cfg : Cfg) (v0 v1 v2 v3 : QVertex) (texoffs : Word) (s : State) : Result :=
  if s.debugToggle then .refused .debugToggleActive
  else
    match quadPolygon cfg s.matrix s.point s.zbase texoffs v0 v1 v2 v3 with
    | .error q => stop q s
    | .ok none => .next s
    | .ok (some sv) =>
      let wt := classifyWidth cfg texoffs s
      scanConvert cfg sv (capture cfg wt.1 wt.2) wt.2

end Sys2Proof.Machine
end

