-- ==== Sys2Proof/Machine/DisplayList.lean ====
section
/-! DEFINITION. The meanings of the display-list sub-commands (42_display_list.md R255 to R259), on a state whose walker has just
completed one. -/

namespace Sys2Proof.Machine

/-- `texoffs <- buf[1]`, local to the walk (R255). -/
def selectTexture (texoffs : Word) (s : State) : State := s.setWalker { s.walker with texoffs := texoffs }

/-- `D.TEXSEL` with the first opcode of `DL_OP_TEXSEL` (R255). -/
def execDTexsel21 (texoffs : Word) (s : State) : Result := .next (selectTexture texoffs s)

/-- `D.TEXSEL` with the second opcode of `DL_OP_TEXSEL` (R255). -/
def execDTexsel22 (texoffs : Word) (s : State) : Result := .next (selectTexture texoffs s)

/-- `D.SYNC` (R256): a no-op marker; it touches neither `quad_size` nor `dl_quadsize`. -/
def execDSync (s : State) : Result := .next s

/-- A register write from a display list (R257): a full bus write; aimed at the FIFO trigger it raises
`ReentrantFifoFault`. -/
def listWrite (cfg : Cfg) (reg : Offset) (value : Word) (s : State) : Result :=
  if reg = cfg.fifoTrigger then raise (.reentrantFifo reg value) s else busWrite cfg reg value s

/-- `D.SETREG reg, value` (R257). -/
def execDSetreg (reg : Offset) (value : Word) (s : State) : Result := listWrite Config.defaults reg value s

/-- `D.QUAD` (R258): the quad is drawn with the current texture offset. The framing decides only how many words it took. -/
def execDQuad (_framing : Framing) (v0 v1 v2 v3 : QVertex) (s : State) : Result :=
  quadDraw Config.defaults v0 v1 v2 v3 s.walker.texoffs s

/-- `D.UNK` (R259): in 10-word framing the walk switches to 14-word framing; `quad_size` itself is unchanged. -/
def execDUnk (w0 w1 : Word) (s : State) : Result :=
  match s.walker.dlQuadsize with
  | .ten => .next ((s.emit (.log .correctingQuadSize)).setWalker { s.walker with dlQuadsize := .fourteen })
  | .fourteen => .next (s.emit (.log (.dlUnknown w0 w1)))

end Sys2Proof.Machine
end

