-- ==== Sys2Proof/Machine/Walk.lean ====
section
/-! DEFINITION. The display-list walker (42_display_list.md R250 to R253, R260): its entry, its outer loop, and the reading of one record.
One iteration of either loop is one step of the machine; the sub-command a record completes is run by that step. -/

namespace Sys2Proof.Machine

/-- `Walk(base, count)` (R250): the bound is checked first, before `base` is looked at. -/
def startWalk (cfg : Cfg) (base : Word) (count : BitVec 16) (s : State) : Result :=
  if cfg.dlCountMax < count.toNat then raise (.displayListFatal base count.toNat) s
  else .next ((s.setWalker
    { base := base, count := count.toNat, list := none, cur := 0, buf := [], dlQuadsize := s.quadSize,
      texoffs := 0#32 }).setPhase .walk)

/-- The test of the outer loop (R251): a non-zero base is resolved and reset to 0, and its records are iterated; with base 0
the walk is over, what is left in the local buffer is dropped (R260), and the command that began it is done. -/
def outerLoop (cfg : Cfg) (s : State) : State :=
  if s.walker.base = 0#32 then finishCommand (s.setWalker Walker.clear)
  else s.setWalker { s.walker with list := some (expand0 cfg s.walker.base), base := 0#32, cur := 0 }

/-- The walker after it has read a record: the words are in the buffer, and it is at the next record, or past the last one
(R251, R252). -/
def Walker.advance (w : Walker) (w0 w1 : Word) : Walker :=
  { w with
    buf := w.buf ++ [w0, w1]
    cur := w.cur + 1
    list := if w.cur < w.count then w.list else none }

/-- The two words of record `cur` of the list at `p` (R252, R133). -/
def readRecord (cfg : Cfg) (m : Memory) (p cur : Nat) : Access (Word × Word) := do
  let w0 ← read32 cfg .bank0 m p (2 * cur)
  let w1 ← read32 cfg .bank0 m p (2 * cur + 1)
  pure (BitVec.ofNat 32 w0, BitVec.ofNat 32 w1)

/-- "Then reset the local accumulation buffer" (R252). -/
def clearBuffer (s : State) : State := s.setWalker { s.walker with buf := [] }

end Sys2Proof.Machine
end

