-- ==== Sys2Proof/Machine/Fifo.lean ====
section
/-! DEFINITION. The meanings of the FIFO commands (41_fifo_commands.md R212 to R224). -/

namespace Sys2Proof.Machine

/-- A register write from the FIFO (R212): a full bus write, skipped when it targets the FIFO trigger register itself. -/
def commandWrite (cfg : Cfg) (reg : Offset) (value : Word) (s : State) : Result :=
  if reg = cfg.fifoTrigger then .next s else busWrite cfg reg value s

/-- `matrix` and `point` from their words, overwritten wholesale (R213, R214). -/
def setTransform (cfg : Cfg) (m : Mat3 Word) (p : Vec3 Word) (s : State) : State :=
  (s.setMatrix (m.map (dspFloat cfg))).setPoint (p.map (dspFloat cfg))

/-- `point` from its words, overwritten wholesale (R215, R216). -/
def setTranslation (cfg : Cfg) (p : Vec3 Word) (s : State) : State := s.setPoint (p.map (dspFloat cfg))

/-- The depth plane of one row of the clip rectangle, filled with `MAX_DEPTH` (R217). -/
def clearDepthRow (cfg : Cfg) (c : Rect) (y : Nat) (s : State) : Result :=
  forRange (fun x t => writeDepth cfg t.renderbase y x cfg.maxDepth t) c.minX (c.maxX + 1 - c.minX) s

/-- The depth plane of the clip rectangle, filled with `MAX_DEPTH` (R217). -/
def clearDepth (cfg : Cfg) (c : Rect) (s : State) : Result := forRange (clearDepthRow cfg c) c.minY (c.maxY + 1 - c.minY) s

/-- `point2` from its words, then the depth clear (R217): `point2` is written before the clip check; the colour plane is not
written. -/
def setPoint2AndClear (cfg : Cfg) (p : Vec3 Word) (s : State) : Result :=
  let t := s.setPoint2 (p.map (dspFloat cfg))
  match t.clip with
  | none => raise .unsetClip t
  | some c => clearDepth cfg c t

/-! ## The meanings, at the configuration the machine runs at -/

/-- `SETREG reg, value` (R212). -/
def execSetreg (reg : Offset) (value : Word) (s : State) : Result := commandWrite Config.defaults reg value s

/-- `SETMAT` (R213). -/
def execSetmat (m : Mat3 Word) (p : Vec3 Word) (s : State) : Result := .next (setTransform Config.defaults m p s)

/-- `SETMAT8` (R214): the leading word is ignored. -/
def execSetmat8 (_pad : Word) (m : Mat3 Word) (p : Vec3 Word) (s : State) : Result :=
  .next (setTransform Config.defaults m p s)

/-- `SETPT15` (R215). -/
def execSetpt15 (p : Vec3 Word) (s : State) : Result := .next (setTranslation Config.defaults p s)

/-- `SETPT16` (R216). -/
def execSetpt16 (p : Vec3 Word) (s : State) : Result := .next (setTranslation Config.defaults p s)

/-- `PT2CLR` (R217). -/
def execPt2clr (p : Vec3 Word) (s : State) : Result := setPoint2AndClear Config.defaults p s

/-- `MODEL23 count, base` (R218). -/
def execModel23 (count : BitVec 16) (base : Word) (s : State) : Result := startWalk Config.defaults base count s

/-- `MODEL24 count, base` (R219). -/
def execModel24 (count : BitVec 16) (base : Word) (s : State) : Result := startWalk Config.defaults base count s

/-- `SYNC31` (R220): 10-word framing; it orders nothing (R95). -/
def execSync31 (s : State) : Result := .next (s.setQuadSize .ten)

/-- `SYNC32` (R221). -/
def execSync32 (s : State) : Result := .next (s.setQuadSize .ten)

/-- `DQUAD` (R222): logged; nothing is drawn. -/
def execDquad (low : BitVec 24) (ws : List Word) (s : State) : Result :=
  .next (s.emit (.log (.directQuad (opWord opDquad low :: ws))))

/-- `NOP40` (R223): logged. -/
def execNop40 (low : BitVec 24) (s : State) : Result := .next (s.emit (.log (.nop40 (opWord opNop40 low))))

/-- `UNK` (R224): logged; the caller empties the buffer. -/
def execUnk (w : Word) (s : State) : Result := .next (s.emit (.log (.fifoUnknown w)))

end Sys2Proof.Machine
end

