-- ==== Sys2Proof/Machine/Dispatch.lean ====
section
/-! DEFINITION. One arm per constructor of Instr: the meaning it calls. -/

namespace Sys2Proof.Machine

def exec (i : Instr) (s : State) : Host.Outcome State Fault Refusal :=
  match i with
  -- FIFO commands (41_fifo_commands.md)
  | .setreg reg value => Sys2Proof.Machine.execSetreg reg value s
  | .setmat m p => Sys2Proof.Machine.execSetmat m p s
  | .setmat8 pad m p => Sys2Proof.Machine.execSetmat8 pad m p s
  | .setpt15 p => Sys2Proof.Machine.execSetpt15 p s
  | .setpt16 p => Sys2Proof.Machine.execSetpt16 p s
  | .pt2clr p => Sys2Proof.Machine.execPt2clr p s
  | .model23 count base => Sys2Proof.Machine.execModel23 count base s
  | .model24 count base => Sys2Proof.Machine.execModel24 count base s
  | .sync31 => Sys2Proof.Machine.execSync31 s
  | .sync32 => Sys2Proof.Machine.execSync32 s
  | .dquad low ws => Sys2Proof.Machine.execDquad low ws s
  | .nop40 low => Sys2Proof.Machine.execNop40 low s
  | .unk w => Sys2Proof.Machine.execUnk w s
  -- display-list sub-commands (42_display_list.md)
  | .dTexsel21 texoffs => Sys2Proof.Machine.execDTexsel21 texoffs s
  | .dTexsel22 texoffs => Sys2Proof.Machine.execDTexsel22 texoffs s
  | .dSync => Sys2Proof.Machine.execDSync s
  | .dSetreg reg value => Sys2Proof.Machine.execDSetreg reg value s
  | .dQuad framing a b c d => Sys2Proof.Machine.execDQuad framing a b c d s
  | .dUnk v w => Sys2Proof.Machine.execDUnk v w s
  -- bus operations and pointer writes (40_register_bus.md)
  | .rd o => Sys2Proof.Machine.execRd o s
  | .wr o v => Sys2Proof.Machine.execWr o v s
  | .push w => Sys2Proof.Machine.execPush w s
  | .ptrRender data => Sys2Proof.Machine.execPtrRender data s
  | .ptrTex data => Sys2Proof.Machine.execPtrTex data s
  | .ptrQsize data => Sys2Proof.Machine.execPtrQsize data s

end Sys2Proof.Machine
end

