-- ==== Sys2Proof/Machine/Events.lean ====
section
/-! DEFINITION. What the other agents do between transactions (00_scope.md R6): timer firings (60_exceptions.md R345 to R347), the
diagnostic inputs (R354), device reset (70_reset_and_hazards.md R380), snapshot and restore (40_register_bus.md R185, R186). -/

namespace Sys2Proof.Machine

/-- Device reset (R380): every field of R48 but Wave Memory and `fail`; no register side effect runs. -/
def deviceReset (s : State) : State :=
  ((((s.setArch (resetArch s.wave0 s.wave1 s.fail)).setSeenCodes []).setWalker Walker.clear).setPhase .idle)

/-- `Restore(a)` (R186): every captured field verbatim, no side effect (DEDUCED: notes/assumptions/14.md). -/
def restore (a : Arch) (s : State) : State := s.setArch a

/-- `Snapshot()` (R185): every field is handed out, no state changes. -/
def snapshot (s : State) : State := s.emit (.snapshot s.toArch)

/-- An input that is no bus transaction (the diagnostic ones: DESIGN CHOICE, notes/assumptions/15.md). A bus transaction is run
as an instruction, and leaves the state here unchanged. -/
def applyInput (i : Input) (s : State) : State :=
  match i with
  | .bus _ => s
  | .fire t => fireTimer t s
  | .setZbase z => s.setZbase z
  | .debugToggle active => s.setDebugToggle active
  | .deviceReset => deviceReset s
  | .snapshot => snapshot s
  | .restore a => restore a s

end Sys2Proof.Machine
end

