-- ==== Sys2Proof/Machine/Fetch.lean ====
section
/-! DEFINITION. Where the next instruction comes from, and what a step does around it (10_state.md R46). Between transactions the next
input is taken; after a push the FIFO processor reads the buffer (R210); during a walk the next record is read (R252). -/

namespace Sys2Proof.Machine

/-- What a step finds to do. -/
inductive Fetched where
  /-- It runs this instruction on this state. -/
  | run (i : Instr) (s : State)
  /-- It runs no instruction: this is the state after it. -/
  | moved (s : State)
  /-- It has no successor. -/
  | stuck (r : Refusal)
deriving DecidableEq, Repr

/-- A step that ends in a failure or a refusal before it runs an instruction. -/
def fetchStop (e : Stop) (s : State) : Fetched :=
  match e with
  | .raise f => .moved (s.setFail f)
  | .refuse r => .stuck r

/-- Take the next input, if there is one (R6, R94): a bus transaction runs an instruction, any other input acts at once. With
no input the core is idle, and its idleness has no state (R355). -/
def fetchInput (cfg : Cfg) (s : State) : Fetched :=
  match s.inputs with
  | [] => .moved s
  | .bus op :: rest => .run (decodeBus cfg op) (s.setInputs rest)
  | i :: rest => .moved (applyInput i (s.setInputs rest))

/-- The FIFO processor (R210): too few words leave everything but the timer as it is; else the command runs. -/
def fetchCommand (s : State) : Fetched :=
  match decodeFifo s.fifo with
  | .error _ => .moved (incompleteCommand s)
  | .ok i => .run i s

/-- One iteration of the walker (R251, R252): the outer loop's test, or one record; the record's words are appended to the
local buffer, and if the buffer then holds a whole sub-command, that runs. -/
def fetchRecord (cfg : Cfg) (s : State) : Fetched :=
  match s.walker.list with
  | none => .moved (outerLoop cfg s)
  | some p =>
    match readRecord cfg s.wave0 p s.walker.cur with
    | .error e => fetchStop e s
    | .ok (w0, w1) =>
      let t := s.setWalker (s.walker.advance w0 w1)
      match decodeList cfg t.walker.dlQuadsize t.walker.buf with
      | .error _ => .moved t
      | .ok i => .run i t

/-- What the next step does, by phase. -/
def fetch (cfg : Cfg) (s : State) : Fetched :=
  match s.phase with
  | .idle => fetchInput cfg s
  | .command => fetchCommand s
  | .walk => fetchRecord cfg s

/-- What follows an instruction of each stream, unless it raised a failure: a FIFO command empties the buffer and arms the
FIFO-ready timer (R176), a `MODEL` command not before its walk is over; a sub-command empties the walker's buffer
(R252). -/
def retire (p : Phase) (s : State) : State :=
  match s.fail with
  | some _ => s
  | none =>
    match p with
    | .idle => s
    | .command =>
      match s.phase with
      | .walk => s
      | .idle => finishCommand s
      | .command => finishCommand s
    | .walk => clearBuffer s

/-! ## Placing an instruction for the next step -/

/-- Where a sub-command's last record is placed: `Expand0(0x00010000)`, as the spec's own programs have it (95_test_vectors.md). -/
def placedList : Nat := 8192

/-- Store the words of an instruction where the very next step takes it from: the FIFO buffer; the walker's buffer and, for
the last record, bank 0; or the head of the inputs. DESIGN CHOICE: notes/assumptions/4.md. -/
def placeCode (c : Code) (s : State) : State :=
  let s := { s with fail := none }
  match c with
  | .fifo ws => (s.setFifo ws).setPhase .command
  | .list framing ws =>
    let early := ws.take (ws.length - 2)
    let w0 := wordAt ws (ws.length - 2)
    let w1 := wordAt ws (ws.length - 1)
    let m := (s.wave0.writeLE placedList w0.toNat 4).writeLE (placedList + 4) w1.toNat 4
    ((s.setWave0 m).setWalker
      { s.walker with base := 0#32, count := 0, list := some placedList, cur := 0, buf := early,
                      dlQuadsize := framing }).setPhase .walk
  | .bus op => (s.setInputs (.bus op :: s.inputs)).setPhase .idle

end Sys2Proof.Machine
end

