-- ==== Sys2Proof/Machine/Step.lean ====
section
/-! DEFINITION. One step: fetch, run, retire. All three are defined in files that a repair can mend. -/

namespace Sys2Proof.Machine

/-- One step of the machine. A state that records a failure accepts nothing further and no timer fires (R44, R341). -/
def step (s : State) : Host.Outcome State Fault Refusal :=
  match s.fail with
  | some f => .fault f
  | none =>
    match fetch Config.defaults s with
    | .moved t => .next t
    | .stuck r => .refused r
    | .run i t =>
      match exec i t with
      | .next u => .next (retire t.phase u)
      | .fault f => .fault f
      | .refused r => .refused r

/-- `s` with the instruction of a table number stored where the next step takes its instruction from. -/
def State.withFetchWord (s : State) (nbits w : Nat) : State := placeCode (tableCode nbits w) s

end Sys2Proof.Machine
end

