-- ==== Sys2Proof/Safety.lean ====
section
/-! DEFINITION. The terms claims are stated in: the invariants of the state, when a transaction has ended, when a quad can be drawn
to its end. -/

namespace Sys2Proof

/-- Every listed address lies below `size`. -/
def Memory.within (m : Memory) (size : Nat) : Bool := m.all fun c => decide (c.1 < size)

namespace Machine

/-! ## Invariants of what survives a transaction -/

/-- Both banks are in canonical form and list only addresses of the bank (R37, R80). -/
def Arch.memoryOk (a : Arch) : Bool :=
  a.wave0.wf && a.wave0.within Config.size0 && a.wave1.wf && a.wave1.within Config.size1

/-- `renderbase` is a multiple of `CELL1` below `W1*H1*CELL1`, and `texbase` is below `W0*H0` (R33). -/
def Arch.pointersOk (a : Arch) : Bool :=
  decide (a.renderbase % Config.cell1 = 0) && decide (a.renderbase < Config.size1)
  && decide (a.texbase < Config.W0 * Config.H0)

/-- `min <= max` on both axes of the clip rectangle (R38). -/
def Arch.clipOk (a : Arch) : Bool :=
  match a.clip with
  | none => true
  | some c => decide (c.minX ≤ c.maxX) && decide (c.minY ≤ c.maxY)

/-- The words of a command that is not yet whole, or none (R210, R225). -/
def fifoWaiting (ws : List Word) : Bool :=
  match ws with
  | [] => true
  | w :: _ => decide (ws.length < required (topByte w))

/-- A property of every snapshot that is still to be restored. -/
def State.restores (p : Arch → Bool) (s : State) : Bool :=
  s.inputs.all fun i =>
    match i with
    | .restore a => p a
    | .bus _ => true
    | .fire _ => true
    | .setZbase _ => true
    | .debugToggle _ => true
    | .deviceReset => true
    | .snapshot => true

/-- `Arch.memoryOk` of the state and of every snapshot still to be restored. -/
def State.MemoryOk (s : State) : Prop := s.toArch.memoryOk = true ∧ s.restores Arch.memoryOk = true

/-- `Arch.pointersOk` of the state and of every snapshot still to be restored. -/
def State.PointersOk (s : State) : Prop := s.toArch.pointersOk = true ∧ s.restores Arch.pointersOk = true

/-- `Arch.clipOk` of the state and of every snapshot still to be restored. -/
def State.ClipOk (s : State) : Prop := s.toArch.clipOk = true ∧ s.restores Arch.clipOk = true

/-- Between transactions the buffer holds no whole command; it never holds more than 14 words (R225). -/
def State.FifoOk (s : State) : Prop :=
  (s.phase = .idle → fifoWaiting s.fifo = true) ∧ s.fifo.length ≤ 14
  ∧ s.restores (fun a => fifoWaiting a.fifo) = true

/-- The local buffer holds no whole sub-command in the walk's framing (R252). -/
def Walker.waiting (w : Walker) : Bool :=
  match w.buf with
  | [] => true
  | x :: _ => decide (w.buf.length < needed Config.defaults w.dlQuadsize (topByte x))

/-- The walker's transients (R41, R46, R250 to R252): none survives a walk; the count is within the bound; a list being read
lies at a multiple of 8 inside bank 0, its next base is 0 and the record to read is one of its records; the buffer is even,
at most 14 words long, and holds no whole sub-command between two steps. -/
def State.WalkerOk (s : State) : Prop :=
  (s.phase ≠ .walk → s.walker = Walker.clear)
  ∧ s.walker.count ≤ Config.dlCountMax
  ∧ (∀ p, s.walker.list = some p → p % 8 = 0 ∧ p < Config.size0 ∧ s.walker.base = 0#32 ∧ s.walker.cur ≤ s.walker.count)
  ∧ s.walker.buf.length % 2 = 0 ∧ s.walker.buf.length ≤ 14
  ∧ (s.fail = none → s.walker.waiting = true)

/-! ## Transactions -/

/-- Steps until the transaction in progress has ended (between transactions, or a failure is recorded), at most `n`. -/
def runToEnd : Nat → State → Result
  | 0, s => .next s
  | n + 1, s =>
    if s.phase = .idle ∨ s.fail ≠ none then .next s
    else
      match step s with
      | .next t => runToEnd n t
      | .fault f => .fault f
      | .refused r => .refused r

/-! ## Quads that are drawn to their end -/

/-- The texels and palette entries a sample needs can be read (R295, R297, R299). -/
def sampleReady (m : Memory) (e : Extra) (p : Sample) : Bool :=
  match fixedPoint Config.defaults p with
  | .error _ => false
  | .ok none => true
  | .ok (some c) =>
    match shadeColor Config.defaults m e c with
    | .error _ => false
    | .ok _ => true

/-- Every column of a span can be sampled and shaded. -/
def spanReady (m : Memory) (e : Extra) (l r : ScreenVertex) (xs : Nat × Nat) : Bool :=
  (List.range' xs.1 xs.2).all fun x =>
    match sampleSpan Config.defaults l r x with
    | .error _ => false
    | .ok p => sampleReady m e p

/-- Every column of a row can be sampled and shaded. -/
def rowReady (sv : List ScreenVertex) (clip : Rect) (m : Memory) (e : Extra) (y : Nat) : Bool :=
  match rowSpan Config.defaults sv y with
  | .error _ => false
  | .ok none => true
  | .ok (some (l, r)) => spanReady m e l r (cover l.sx r.sx clip.minX clip.maxX)

/-- The sample of pixel (`y`, `x`), where the polygon covers it inside the clip rectangle (R292 to R294). -/
def coveredSample (sv : List ScreenVertex) (clip : Rect) (y x : Nat) : Option Sample :=
  let ys := polygonRows sv clip
  if ys.1 ≤ y ∧ y < ys.1 + ys.2 then
    match rowSpan Config.defaults sv y with
    | .error _ => none
    | .ok none => none
    | .ok (some (l, r)) =>
      let xs := cover l.sx r.sx clip.minX clip.maxX
      if xs.1 ≤ x ∧ x < xs.1 + xs.2 then (sampleSpan Config.defaults l r x).toOption else none
  else none

/-- The colour and depth a polygon writes at pixel (`y`, `x`) of a state, `none` where it writes nothing. -/
def pixelWrite (sv : List ScreenVertex) (clip : Rect) (e : Extra) (y x : Nat) (s : State) : Option (Word × Nat) :=
  match coveredSample sv clip y x with
  | none => none
  | some p =>
    match shadePixel Config.defaults e y x p s with
    | .error _ => none
    | .ok o => o

/-- The conditions under which a quad that is not discarded is drawn to its end (R382, R390): the toggle inactive, a polygon
of 3 to 5 vertices with finite coordinates, a clip rectangle, a render target aligned and inside bank 1, every row convex, and every
texel and palette entry it needs inside bank 0. -/
def quadReady (v0 v1 v2 v3 : QVertex) (s : State) : Bool :=
  !s.debugToggle && decide (s.renderbase % 4 = 0) && decide (s.renderbase + 12 * 131072 ≤ Config.size1)
  && (match quadPolygon Config.defaults s.matrix s.point s.zbase s.walker.texoffs v0 v1 v2 v3, s.clip with
      | .ok (some sv), some clip =>
        let wt := classifyWidth Config.defaults s.walker.texoffs s
        let ys := polygonRows sv clip
        (List.range' ys.1 ys.2).all (rowReady sv clip s.wave0 (capture Config.defaults wt.1 wt.2))
      | _, _ => false)

end Machine

end Sys2Proof
end

