-- ==== Sys2Proof/Certificates/Slice0/Obligations.lean ====
section
/-! DEFINITION. The statements for the provers. -/

open Sys2Proof Sys2Proof.Machine
open Sys2Proof.Config (defaults)

/-! ## Encodings -/

/-- Decoding the words of a well-formed instruction gives it back, with every operand at every value (R131 to R133, R136,
R139, R143). -/
def Obligations.DecodeEncodeAgree : Prop :=
  ∀ i : Instr, i.wf = true → decode defaults (encode i) = .ok i

/-- Words written out from the encoding tables decode to the instructions they stand for (R131 to R133, R139). The opcodes 0x22 and
0x29, the offset 0x20 and the index 0x04 are defaults of R5 marked GK, the spec's presumption (notes/assumptions/1.md). -/
def Obligations.WrittenOutWordsDecode : Prop :=
  decode defaults (.fifo [0x05100000#32, 0xDEADBEEF#32]) = .ok (.setreg 0x10#7 0xDEADBEEF#32)
  ∧ decode defaults (.fifo [0x24002000#32, 0x00010000#32]) = .ok (.model24 0x2000#16 0x00010000#32)
  ∧ decode defaults (.list .ten [0x22000000#32, 0x0000005D#32]) = .ok (.dTexsel22 0x0000005D#32)
  ∧ decode defaults (.list .ten [0x29200000#32, 0x05000123#32]) = .ok (.dSetreg 0x20#7 0x05000123#32)
  ∧ decode defaults (.bus (.write 0x20#7 0x04000190#32)) = .ok (.ptrRender 0x000190#24)

/-- The required word count of every opcode (R211). That every opcode of no command takes one word is the spec's own decision D32
(notes/assumptions/18.md). -/
def Obligations.RequiredWordCounts : Prop :=
  required 0x05#8 = 2 ∧ required 0x07#8 = 13 ∧ required 0x08#8 = 14
  ∧ required 0x15#8 = 4 ∧ required 0x16#8 = 4 ∧ required 0x1c#8 = 4
  ∧ required 0x23#8 = 2 ∧ required 0x24#8 = 2
  ∧ required 0x31#8 = 1 ∧ required 0x32#8 = 1 ∧ required 0x40#8 = 1 ∧ required 0x38#8 = 12
  ∧ ∀ op : BitVec 8, op ∉ [0x05#8, 0x07#8, 0x08#8, 0x15#8, 0x16#8, 0x1c#8, 0x23#8, 0x24#8, 0x31#8, 0x32#8, 0x40#8, 0x38#8] →
      required op = 1

/-- Bits that no field names have no effect: of the first word of `SETREG` and `D.SETREG` only the opcode and bits 22:16 count, of
`MODEL23` and `MODEL24` only the opcode and bits 15:0, of the transform, point and sync commands, of `D.TEXSEL` and of
`D.SYNC` only the opcode (R132, R133); of the words of a `D.QUAD` only the opcode, eight texture fields of words 1, 4 and 5,
and words 2, 3, 6, 7, 8 and 9 (R136). The sub-command opcodes and the quad layout are the spec's presumption
(notes/assumptions/1.md). -/
def Obligations.UnnamedBitsHaveNoEffect : Prop :=
  (∀ (w w' : Word) (rest : List Word), topByte w = topByte w' →
    ((topByte w = 0x05#8 → regField w = regField w' → decodeFifo (w :: rest) = decodeFifo (w' :: rest))
     ∧ (topByte w ∈ [0x23#8, 0x24#8] → lowHalf w = lowHalf w' → decodeFifo (w :: rest) = decodeFifo (w' :: rest))
     ∧ (topByte w ∈ [0x07#8, 0x08#8, 0x15#8, 0x16#8, 0x1c#8, 0x31#8, 0x32#8] →
         decodeFifo (w :: rest) = decodeFifo (w' :: rest))
     ∧ (∀ framing, topByte w = 0x29#8 → regField w = regField w' →
         decodeList defaults framing (w :: rest) = decodeList defaults framing (w' :: rest))
     ∧ (∀ framing, topByte w ∈ [0x21#8, 0x22#8, 0x31#8] →
         decodeList defaults framing (w :: rest) = decodeList defaults framing (w' :: rest))))
  ∧ ∀ (framing : Framing) (q q' : List Word), q.length = q'.length →
    topByte (q.getD 0 0#32) = 0x38#8 → topByte (q'.getD 0 0#32) = 0x38#8 →
    (∀ f ∈ [(1, 2), (1, 18), (4, 2), (4, 12), (4, 22), (5, 2), (5, 12), (5, 22)],
      (q.getD f.1 0#32).extractLsb' f.2 8 = (q'.getD f.1 0#32).extractLsb' f.2 8) →
    (∀ k ∈ [2, 3, 6, 7, 8, 9], q.getD k 0#32 = q'.getD k 0#32) →
    decodeList defaults framing q = decodeList defaults framing q'

/-! ## Steps -/

/-- A step runs the instruction that stands next in the stream its phase names: the transaction at the head of the inputs,
the command in the FIFO buffer, or the sub-command that the record just read completes; it is `exec` of that
instruction, followed by what retires it. -/
def Obligations.StepRunsDecodedInstruction : Prop :=
  (∀ s op rest, s.fail = none → s.phase = .idle → s.inputs = .bus op :: rest →
    step s = (match exec (decodeBus defaults op) (s.setInputs rest) with
      | .next u => .next (retire s.phase u)
      | .fault f => .fault f
      | .refused r => .refused r))
  ∧ (∀ s i, s.fail = none → s.phase = .command → decodeFifo s.fifo = .ok i →
    step s = (match exec i s with
      | .next u => .next (retire s.phase u)
      | .fault f => .fault f
      | .refused r => .refused r))
  ∧ (∀ s p w0 w1 i, s.fail = none → s.phase = .walk → s.walker.list = some p →
    readRecord defaults s.wave0 p s.walker.cur = .ok (w0, w1) →
    decodeList defaults s.walker.dlQuadsize (s.walker.buf ++ [w0, w1]) = .ok i →
    step s = (match exec i (s.setWalker (s.walker.advance w0 w1)) with
      | .next u => .next (retire s.phase u)
      | .fault f => .fault f
      | .refused r => .refused r))

/-- The words of a table number, placed in any state, are what the very next step decodes and runs. -/
def Obligations.PlacedTableWordRunsNext : Prop :=
  ∀ (s : State) (nbits w : Nat) (i : Instr), decodeTableWord nbits w = some i →
    ∃ t, fetch defaults (s.withFetchWord nbits w) = .run i t ∧ t.fail = none
      ∧ step (s.withFetchWord nbits w) = (match exec i t with
        | .next u => .next (retire t.phase u)
        | .fault f => .fault f
        | .refused r => .refused r)

/-! ## The register bus -/

/-- `RD o` returns the override of offsets 0, 1, 7 and `SCANPOS_OFFSET`, else the stored value; it changes nothing but what was
told to the outside (R170 to R174) and, where it asks the display, the model's own count of free choices: the display's
answer is free at each call (R352; notes/assumptions/6.md). The or of the status word and the composition of the scan word are
the spec's own decision D7 (notes/assumptions/18.md). -/
def Obligations.ReadAnswersOverrideOrStored : Prop :=
  ∀ (s : State) (o : Offset), s.fail = none →
    let vpos := Config.displayVpos s.freeIndex
    let value :=
      if o = 0#7 then Config.idConst
      else if o = 1#7 then
        Config.statusFixed ||| (if Config.displayVblank s.freeIndex then Config.statusVblank else 0#32)
      else if o = 7#7 then Config.magic7
      else if o = Config.scanposOffset then BitVec.ofNat 32 ((vpos % 65536) * 65536 + vpos % 65536)
      else s.reg o
    let t := if o = 1#7 ∨ o = Config.scanposOffset then s.nextFree else s
    exec (.rd o) s = .next (t.emit (.readData o value))

/-- A write to an offset without a read override and outside `PORT_OFFSETS`, then a read of that offset, answers the value
written; for the FIFO trigger, neither the command that the push completes, nor a walk it starts, nor any sub-command of
that walk writes the register again (R187, which the spec derives from other rules; that `D.SETREG` faults there is its own
decision D29, notes/assumptions/18.md). -/
def Obligations.WriteThenReadAnswersValue : Prop :=
  (∀ (s t : State) (o : Offset) (v : Word), o ∉ [0#7, 1#7, 7#7, Config.scanposOffset] → o ∉ Config.portOffsets →
    exec (.wr o v) s = .next t → exec (.rd o) t = .next (t.emit (.readData o v)))
  ∧ ∀ s t : State, s.phase ≠ .idle → step s = .next t → t.reg Config.fifoTrigger = s.reg Config.fifoTrigger

/-- A write to an offset that is not the FIFO trigger, the pointer register, a timing or a port offset stores the value and
does nothing else (R184). -/
def Obligations.UnassignedWriteOnlyStores : Prop :=
  ∀ (s : State) (o : Offset) (v : Word), s.fail = none → o ≠ Config.fifoTrigger → o ≠ Config.ptrPrimary →
    o ∉ Config.timingOffsets → o ∉ Config.portOffsets → exec (.wr o v) s = .next (s.setReg o v)

/-- A write to a timing offset stores, and then applies what `Geometry` answers for the registers as stored: with totals
strictly positive and the visible rectangle, not inverted, within them, the display is configured and `clip` and
`yscale` are replaced; otherwise nothing else changes. A clip rectangle so set has `min <= max` on both axes (R182). -/
def Obligations.TimingWriteAppliesAcceptedGeometry : Prop :=
  (∀ (s : State) (o : Offset) (v : Word), s.fail = none → o ∈ Config.timingOffsets →
    exec (.wr o v) s = .next (applyGeometry (Config.geometry (s.setReg o v).regs) (s.setReg o v)))
  ∧ (∀ (g : GeomAnswer) (s : State),
      (0 < g.htotal ∧ 0 < g.vtotal ∧ g.vis.minX ≤ g.vis.maxX ∧ g.vis.minY ≤ g.vis.maxY
        ∧ 0 ≤ g.vis.minX ∧ g.vis.maxX < g.htotal ∧ 0 ≤ g.vis.minY ∧ g.vis.maxY < g.vtotal →
        ∃ c : Rect, c.minX = g.clipX ∧ c.minY = g.clipY ∧ c.maxX = g.clipX + g.clipSpanX ∧ c.maxY = g.clipY + g.clipSpanY
          ∧ c.minX ≤ c.maxX ∧ c.minY ≤ c.maxY
          ∧ applyGeometry g s
            = (s.emit (.configure g.htotal g.vtotal g.vis g.refresh)).setScreen c g.yscale)
      ∧ (¬ (0 < g.htotal ∧ 0 < g.vtotal ∧ g.vis.minX ≤ g.vis.maxX ∧ g.vis.minY ≤ g.vis.maxY
        ∧ 0 ≤ g.vis.minX ∧ g.vis.maxX < g.htotal ∧ 0 ≤ g.vis.minY ∧ g.vis.maxY < g.vtotal) →
        applyGeometry g s = s))

/-- A write to a port offset is refused in a configuration without `PortEffect`; with one, it stores and then performs the
actions `PortEffect` answers for the offset, the old value and the new one; of the state it is shown the port registers, after
the store, and the two banks, and nothing else (R183). -/
def Obligations.PortWriteIsPortEffect : Prop :=
  ∀ (s : State) (o : Offset) (v : Word), s.fail = none → o ∈ Config.portOffsets →
    exec (.wr o v) s = (match Config.portEffect with
      | none => .refused (.portUnmodelled o)
      | some f =>
        portActions defaults
          (f o (s.reg o) v ⟨Config.portOffsets.map fun p => (p, (s.setReg o v).reg p), s.wave0, s.wave1⟩) (s.setReg o v))

/-- Whatever a `PortEffect` does, it changes at most the banks, registers of `PORT_OFFSETS`, what a pointer write sets, the
outputs (a pointer write to an unknown index is logged) and `fail` (a byte outside its bank); an action list within the
banks goes on to its end (R183). A register, a byte of a bank, and the three pointer fields, that no action of the list names,
stay as they are. What one action does is said action by action, and a list is its first action and then, unless that failed,
the rest. That an effect is a list of actions, and that a register outside `PORT_OFFSETS` is not written, is the model's choice
(notes/assumptions/8.md); the indices 0x04, 0x05 and 0x40 and the arithmetic of the pointer fields are the spec's presumption
(notes/assumptions/1.md). -/
def Obligations.PortEffectTouchesNothingElse : Prop :=
  (∀ (l : List PortAction) (s t : State), portActions defaults l s = .next t →
    (∀ o, o ∉ Config.portOffsets → t.reg o = s.reg o)
    ∧ (∃ regs m0 m1 rb tb q os f,
      t = { s with regs := regs, wave0 := m0, wave1 := m1, renderbase := rb, texbase := tb, quadSize := q,
                   outputs := os, fail := f })
    ∧ (∀ o, (∀ v, PortAction.setReg o v ∉ l) → t.reg o = s.reg o)
    ∧ (∀ b a, (∀ v, PortAction.setByte b a v ∉ l) → (t.bank b).byteAt b a = (s.bank b).byteAt b a)
    ∧ ((∀ idx data, PortAction.pointer idx data ∉ l) →
        t.renderbase = s.renderbase ∧ t.texbase = s.texbase ∧ t.quadSize = s.quadSize ∧ t.outputs = s.outputs))
  ∧ (∀ (l : List PortAction) (s : State), s.fail = none →
      (∀ b a v, PortAction.setByte b a v ∈ l → a < bankSize defaults b) →
      ∃ t, portActions defaults l s = .next t ∧ t.fail = none)
  ∧ ∀ s : State,
    portActions defaults [] s = .next s
    ∧ (∀ o v, portActions defaults [.setReg o v] s = .next (if o ∈ Config.portOffsets then s.setReg o v else s))
    ∧ (∀ b a v,
      (a < bankSize defaults b →
        ∃ m, portActions defaults [.setByte b a v] s = .next (s.setBank b m) ∧ m.byteAt b a = v
          ∧ ∀ c, c ≠ a → m.byteAt b c = (s.bank b).byteAt b c)
      ∧ (bankSize defaults b ≤ a → portActions defaults [.setByte b a v] s = .next (s.setFail (.waveRange b a 1))))
    ∧ (∀ (idx : BitVec 8) (data : BitVec 24), portActions defaults [.pointer idx data] s = .next (
        if idx = 0x04#8 then s.setRenderbase (((data.toNat % 65536) % 1024 * 512) * 12)
        else if idx = 0x05#8 then s.setTexbase (data.extractLsb' 0 21).toNat
        else if idx = 0x40#8 then s.setQuadSize (if data = 0#24 then .ten else .fourteen)
        else s.emit (.log (.pointerUnknown idx data))))
    ∧ ∀ a l u, portActions defaults [a] s = .next u →
      portActions defaults (a :: l) s = if u.fail = none then portActions defaults l u else .next u

/-- `PUSH w` stores the word, appends it, and hands over to the FIFO processor (R176). -/
def Obligations.PushAppendsWord : Prop :=
  ∀ (s : State) (w : Word), s.fail = none → s.fifo.length ≠ Config.fifoCap →
    exec (.push w) s
      = .next (((s.setReg Config.fifoTrigger w).setFifo (s.fifo ++ [w])).setPhase .command)

/-- The FIFO processor: with fewer words than the opcode requires nothing changes but the FIFO-ready timer, which is armed,
and the next transaction may come (R210, R176). -/
def Obligations.IncompleteCommandWaits : Prop :=
  ∀ (s : State) (w : Word) (rest : List Word), s.fail = none → s.phase = .command → s.fifo = w :: rest →
    s.fifo.length < required (topByte w) → step s = .next ((s.setFifoTimer .pending).setPhase .idle)

/-- The FIFO processor: with at least the required words the command runs, and unless it raised a failure or started a walk,
the whole buffer is then empty, the timer armed, and the machine between transactions (R210, R225). -/
def Obligations.DispatchEmptiesBuffer : Prop :=
  ∀ (s t : State) (w : Word) (rest : List Word), s.phase = .command → s.fifo = w :: rest →
    required (topByte w) ≤ s.fifo.length → step s = .next t →
    (t.fail = none ∧ t.phase = .idle ∧ t.fifo = [] ∧ t.tFifo = .pending)
    ∨ (t.fail = none ∧ t.phase = .walk ∧ t.fifo = s.fifo ∧ t.tFifo = s.tFifo
        ∧ (topByte w = 0x23#8 ∨ topByte w = 0x24#8))
    ∨ (t.fail ≠ none ∧ t.fifo = s.fifo ∧ t.tFifo = s.tFifo)

/-- `PTR.RENDER`: row `data[15:0] mod 1024` of bank 1, column 0; the pointer word is stored (R178). -/
def Obligations.RenderPointerWrite : Prop :=
  ∀ (s : State) (data : BitVec 24), s.fail = none →
    exec (.ptrRender data) s
      = .next ((s.setReg Config.ptrPrimary (0x04#8 ++ data)).setRenderbase (((data.toNat % 65536) % 1024 * 512) * 12))

/-- `PTR.TEX`: the data modulo the number of cells of bank 0, that is `data[20:0]` (R179). -/
def Obligations.TexturePointerWrite : Prop :=
  ∀ (s : State) (data : BitVec 24), s.fail = none →
    exec (.ptrTex data) s
      = .next ((s.setReg Config.ptrPrimary (0x05#8 ++ data)).setTexbase (data.extractLsb' 0 21).toNat)

/-- `PTR.QSIZE`: 10-word framing when the data is zero, else 14-word framing (R180). A pointer write to any other index
stores the word and is logged, and nothing else (R181). The three indices are defaults of R5 marked GK, the spec's presumption
(notes/assumptions/1.md); which data selects which framing is its decision D6 (notes/assumptions/18.md). -/
def Obligations.QuadSizePointerWrite : Prop :=
  (∀ (s : State) (data : BitVec 24), s.fail = none →
    exec (.ptrQsize data) s
      = .next ((s.setReg Config.ptrPrimary (0x40#8 ++ data)).setQuadSize (if data = 0#24 then .ten else .fourteen)))
  ∧ (∀ (s : State) (idx : BitVec 8) (data : BitVec 24), s.fail = none → idx ∉ [0x04#8, 0x05#8, 0x40#8] →
    exec (.wr Config.ptrPrimary (idx ++ data)) s
      = .next ((s.setReg Config.ptrPrimary (idx ++ data)).emit (.log (.pointerUnknown idx data))))

/-! ## FIFO commands -/

/-- `SETREG` is a bus write with all its side effects, and nothing at all when it targets the FIFO trigger; its two words name
the register in bits 22:16 of the first and the value in the second, and the command is then consumed (R212, R210); at an
unassigned offset the write only stores (R184). That a push is cut into steps, of which the step here is the one that runs the
command, is the model's choice (notes/assumptions/3.md); that it arms the FIFO-ready timer is R176, the spec's own decision D35
(notes/assumptions/18.md). -/
def Obligations.SetregIsGuardedBusWrite : Prop :=
  ∀ (s : State) (reg : Offset) (value : Word),
    (reg = Config.fifoTrigger → exec (.setreg reg value) s = .next s)
    ∧ (reg ≠ Config.fifoTrigger → exec (.setreg reg value) s = exec (.wr reg value) s)
    ∧ (s.fail = none → reg ≠ Config.fifoTrigger → reg ≠ Config.ptrPrimary → reg ∉ Config.timingOffsets →
        reg ∉ Config.portOffsets → exec (.setreg reg value) s = .next (s.setReg reg value))
    ∧ ∀ w, s.fail = none → s.phase = .command → s.fifo = [w, value] → topByte w = 0x05#8 → w.extractLsb' 16 7 = reg →
        (reg = Config.fifoTrigger → step s = .next { s with fifo := [], tFifo := .pending, phase := .idle })
        ∧ (reg ≠ Config.fifoTrigger → ∀ t, exec (.wr reg value) s = .next t → t.fail = none →
            step s = .next { t with fifo := [], tFifo := .pending, phase := .idle })

/-- `SETMAT` and `SETMAT8` overwrite matrix and point wholesale, each entry with the value of its word, `SETPT15` and
`SETPT16` the point alone, and none changes anything else; the padding word of `SETMAT8` is ignored (R213 to R216). -/
def Obligations.TransformCommandsLoadTransform : Prop :=
  ∀ (s : State) (pad : Word) (m : Mat3 Word) (p : Vec3 Word),
    let value := dspFloat defaults
    let point : Vec3 F := ⟨value p.c0, value p.c1, value p.c2⟩
    let t := { s with
      matrix := ⟨value m.m00, value m.m01, value m.m02, value m.m10, value m.m11, value m.m12, value m.m20, value m.m21,
                 value m.m22⟩,
      point := point }
    exec (.setmat m p) s = .next t ∧ exec (.setmat8 pad m p) s = .next t
    ∧ exec (.setpt15 p) s = .next { s with point := point } ∧ exec (.setpt16 p) s = .next { s with point := point }

/-- The last word of a transform command sets `matrix[k div 3][k mod 3]` from word `1 + k` of the buffer (`SETMAT8`: `2 + k`) and
`point[j]` from word `10 + j` (`SETMAT8`: `11 + j`; `SETPT15` and `SETPT16`: `1 + j`, and no matrix); the command is then
consumed, and nothing else changes (R213 to R216; the order of the words is the spec's own decision D18). -/
def Obligations.TransformCommandsReadBuffer : Prop :=
  ∀ (s : State) (w : Word) (d : List Word), s.fail = none → s.phase = .command → s.fifo = w :: d →
    let val := fun k => dspFloat defaults (d.getD k 0)
    let mat := fun k : Nat => (⟨val k, val (k + 1), val (k + 2), val (k + 3), val (k + 4), val (k + 5), val (k + 6),
      val (k + 7), val (k + 8)⟩ : Mat3 F)
    let vec := fun k : Nat => (⟨val k, val (k + 1), val (k + 2)⟩ : Vec3 F)
    (topByte w = 0x07#8 → d.length = 12 →
      step s = .next { s with matrix := mat 0, point := vec 9, fifo := [], tFifo := .pending, phase := .idle })
    ∧ (topByte w = 0x08#8 → d.length = 13 →
      step s = .next { s with matrix := mat 1, point := vec 10, fifo := [], tFifo := .pending, phase := .idle })
    ∧ (topByte w = 0x15#8 ∨ topByte w = 0x16#8 → d.length = 3 →
      step s = .next { s with point := vec 0, fifo := [], tFifo := .pending, phase := .idle })

/-- The value of a DSP float: zero for exponent -128, `(1 + f/2^23) * 2^e` or `(-2 + f/2^23) * 2^e` by the sign bit; for
exponents -126 to 127 it is exactly representable, so `fl` is the identity on it, but for -2^128, which becomes negative
infinity (R134; the format is the spec's presumption, notes/assumptions/1.md). -/
def Obligations.DspFloatValue : Prop :=
  ∀ w : Word,
    let e : Int := (topByte w).toInt
    let f : Rat := ((w.toNat % 2 ^ 23 : Nat) : Rat)
    let r : Rat := if w.getLsbD 23 then (-2 + f / 2 ^ 23) * (2 : Rat) ^ e else (1 + f / 2 ^ 23) * (2 : Rat) ^ e
    (e = -128 → dspFloat defaults w = .fin 0)
    ∧ (e ≠ -128 → dspFloat defaults w = fl r)
    ∧ (-126 ≤ e → ¬ (w.getLsbD 23 = true ∧ w.toNat % 2 ^ 23 = 0 ∧ e = 127) → dspFloat defaults w = .fin r)
    ∧ (w.getLsbD 23 = true ∧ w.toNat % 2 ^ 23 = 0 ∧ e = 127 → dspFloat defaults w = .negInf)

/-- `fl` rounds to the nearest binary32 value, a tie going to the even significand (R5, R9). The answer is finite below
`2^128 - 2^103` in size, the midpoint between the greatest binary32 value and `2^128`; from there on it is the infinity of the
sign. A finite answer is a binary32 value, no binary32 value is nearer, and where another is as near, the answer is an even
multiple of the gap between the two. -/
def Obligations.FlRoundsToNearest : Prop :=
  ∀ r : Rat,
    let overflow : Rat := (2 : Rat) ^ (128 : Int) - (2 : Rat) ^ (103 : Int)
    (|r| < overflow → ∃ q, fl r = .fin q) ∧ (overflow ≤ r → fl r = .posInf) ∧ (r ≤ -overflow → fl r = .negInf)
    ∧ ∀ q : Rat, fl r = .fin q →
      (∃ (m p : Int), m.natAbs ≤ 2 ^ 24 ∧ -149 ≤ p ∧ q = (m : Rat) * (2 : Rat) ^ p)
      ∧ |q| < (2 : Rat) ^ (128 : Int)
      ∧ ∀ (m p : Int), m.natAbs ≤ 2 ^ 24 → -149 ≤ p →
        let other := (m : Rat) * (2 : Rat) ^ p
        |q - r| ≤ |other - r| ∧ (other ≠ q → |other - r| = |q - r| → ∃ k : Int, q = 2 * (k : Rat) * (other - q))

/-- Before any timing write was accepted: `PT2CLR` writes `point2`, and a quad that is not discarded records its texture class;
then `UnsetClipFault` is raised, and nothing is filled or drawn (R217, R291). The fault, what it leaves written, and that `point2`
is written first are the spec's own decisions D44, D34 and D30 (notes/assumptions/18.md). A quad drawn while the debug toggle is
active is refused before anything else (R354, its decision D41; that the toggle is an input is the model's choice,
notes/assumptions/15.md). -/
def Obligations.UnsetClipStopsDrawing : Prop :=
  (∀ (s : State) (p : Vec3 Word), s.clip = none →
    let value := dspFloat defaults
    exec (.pt2clr p) s = .next ((s.setPoint2 ⟨value p.c0, value p.c1, value p.c2⟩).setFail .unsetClip))
  ∧ (∀ (s : State) (framing : Framing) (v0 v1 v2 v3 : QVertex) (sv : List ScreenVertex), s.debugToggle = false →
    s.clip = none → quadPolygon defaults s.matrix s.point s.zbase s.walker.texoffs v0 v1 v2 v3 = .ok (some sv) →
    exec (.dQuad framing v0 v1 v2 v3) s = .next ((classifyWidth defaults s.walker.texoffs s).2.setFail .unsetClip))
  ∧ ∀ (s : State) (framing : Framing) (v0 v1 v2 v3 : QVertex), s.debugToggle = true →
    exec (.dQuad framing v0 v1 v2 v3) s = .refused .debugToggleActive

/-- `PT2CLR` with its depth plane inside bank 1 completes: `point2` is decoded, the depth of every pixel of the clip
rectangle is `MAX_DEPTH`, every other byte of bank 1 is as before, and nothing else changes (R217). -/
def Obligations.DepthClearFillsClipRectangle : Prop :=
  ∀ (s : State) (p : Vec3 Word) (c : Rect), s.fail = none → s.clip = some c → s.renderbase % 2 = 0 →
    (∀ y x, c.minY ≤ y → y ≤ c.maxY → c.minX ≤ x → x ≤ c.maxX →
      depthAddr s.renderbase y x + 2 ≤ Config.size1) →
    let value := dspFloat defaults
    ∃ m, exec (.pt2clr p) s
        = .next ((s.setPoint2 ⟨value p.c0, value p.c1, value p.c2⟩).setWave1 m)
      ∧ (∀ y x, c.minY ≤ y → y ≤ c.maxY → c.minX ≤ x → x ≤ c.maxX →
          readDepth defaults m s.renderbase y x = .ok Config.maxDepth)
      ∧ ∀ a, (∀ y x, c.minY ≤ y → y ≤ c.maxY → c.minX ≤ x → x ≤ c.maxX →
          a ≠ depthAddr s.renderbase y x ∧ a ≠ depthAddr s.renderbase y x + 1) →
          m.byteAt .bank1 a = s.wave1.byteAt .bank1 a

/-- `MODEL23` and `MODEL24` with a count within the bound start a walk with an empty buffer, no texture offset and the
global framing, and change nothing else; above the bound they raise `DisplayListFatal`, whatever the base is (R250). The order of the checks, the strict
bound and the walk's own copy of the framing are the spec's own decision D28 (notes/assumptions/18.md), and 4096 is the default
of a parameter (notes/assumptions/1.md). -/
def Obligations.ModelStartsWalkOrIsFatal : Prop :=
  ∀ (s : State) (count : BitVec 16) (base : Word),
    (count.toNat ≤ 4096 →
      let t := { s with
        walker := { base := base, count := count.toNat, list := none, cur := 0, buf := [], dlQuadsize := s.quadSize,
                    texoffs := 0#32 },
        phase := .walk }
      exec (.model23 count base) s = .next t ∧ exec (.model24 count base) s = .next t)
    ∧ (4096 < count.toNat →
      exec (.model23 count base) s = .next (s.setFail (.displayListFatal base count.toNat))
      ∧ exec (.model24 count base) s = .next (s.setFail (.displayListFatal base count.toNat)))

/-- The push that completes an oversized `MODEL` ends with only `fail` changed: the two words of the command stay in the
buffer, the timer is not armed, and the next step ends in the failure (R341). -/
def Obligations.OversizedListStopsMachine : Prop :=
  ∀ (s : State) (w base : Word), s.fail = none → s.phase = .command → s.fifo = [w, base] →
    (topByte w = 0x23#8 ∨ topByte w = 0x24#8) → 4096 < (lowHalf w).toNat →
    let f := Fault.displayListFatal base (lowHalf w).toNat
    step s = .next (s.setFail f) ∧ step (s.setFail f) = .fault f

/-- `SYNC31` and `SYNC32` select 10-word framing and change nothing else; each is dispatched on the push of its single word,
whatever its low 24 bits (R220, R221), and then consumed (R210). That a push is cut into steps is the model's choice
(notes/assumptions/3.md); that the FIFO-ready timer is armed is R176, the spec's own decision D35 (notes/assumptions/18.md). -/
def Obligations.SyncSelectsTenWords : Prop :=
  ∀ s : State, exec .sync31 s = .next (s.setQuadSize .ten) ∧ exec .sync32 s = .next (s.setQuadSize .ten)
    ∧ ∀ w, s.fail = none → s.phase = .command → s.fifo = [w] → topByte w = 0x31#8 ∨ topByte w = 0x32#8 →
      step s = .next { s with quadSize := .ten, fifo := [], tFifo := .pending, phase := .idle }

/-- `DQUAD`, `NOP40` and `UNK` are logged and change nothing else: nothing is drawn, and an opcode of no other command is
consumed at one word (R222, R223, R224). That the eleven words of `DQUAD` are swallowed whatever they hold, and that an unknown
opcode takes one word, is the spec's own decision D32 (notes/assumptions/18.md). -/
def Obligations.LoggedCommandsChangeNothing : Prop :=
  (∀ (s : State) (low : BitVec 24) (ws : List Word) (w : Word),
    exec (.dquad low ws) s = .next (s.emit (.log (.directQuad ((0x38#8 ++ low) :: ws))))
    ∧ exec (.nop40 low) s = .next (s.emit (.log (.nop40 (0x40#8 ++ low))))
    ∧ exec (.unk w) s = .next (s.emit (.log (.fifoUnknown w))))
  ∧ ∀ (s : State) (w : Word) (d : List Word), s.fail = none → s.phase = .command → s.fifo = w :: d →
    let logged := fun e => { s with
      outputs := s.outputs ++ [.log e], fifo := [], tFifo := TimerState.pending, phase := Phase.idle }
    (topByte w = 0x38#8 → d.length = 11 → step s = .next (logged (.directQuad (w :: d))))
    ∧ (topByte w = 0x40#8 → d = [] → step s = .next (logged (.nop40 w)))
    ∧ (topByte w ∉ [0x05#8, 0x07#8, 0x08#8, 0x15#8, 0x16#8, 0x1c#8, 0x23#8, 0x24#8, 0x31#8, 0x32#8, 0x38#8, 0x40#8] →
        d = [] → step s = .next (logged (.fifoUnknown w)))

/-! ## The walk -/

/-- `D.TEXSEL` stashes the texture offset in the walk, `D.SYNC` does nothing (R255, R256). -/
def Obligations.TextureSelectAndSync : Prop :=
  ∀ (s : State) (texoffs : Word),
    exec (.dTexsel21 texoffs) s = .next (s.setWalker { s.walker with texoffs := texoffs })
    ∧ exec (.dTexsel22 texoffs) s = .next (s.setWalker { s.walker with texoffs := texoffs })
    ∧ exec .dSync s = .next s

/-- `D.SETREG` aimed at the FIFO trigger raises `ReentrantFifoFault`; otherwise it is a bus write with all its side effects
(R257). -/
def Obligations.ListRegisterWrite : Prop :=
  ∀ (s : State) (reg : Offset) (value : Word),
    (reg = Config.fifoTrigger → exec (.dSetreg reg value) s = .next (s.setFail (.reentrantFifo reg value)))
    ∧ (reg ≠ Config.fifoTrigger → exec (.dSetreg reg value) s = exec (.wr reg value) s)
    ∧ (s.fail = none → reg ≠ Config.fifoTrigger → reg ≠ Config.ptrPrimary → reg ∉ Config.timingOffsets →
        reg ∉ Config.portOffsets → exec (.dSetreg reg value) s = .next (s.setReg reg value))

/-- `D.UNK` in 10-word framing switches the walk, and only the walk, to 14-word framing; in 14-word framing it is logged and
nothing else (R259). That only the walk's copy is widened is the spec's own decision D28 (notes/assumptions/18.md). -/
def Obligations.UnknownSubcommandWidensFraming : Prop :=
  ∀ (s : State) (w0 w1 : Word),
    (s.walker.dlQuadsize = .ten →
      exec (.dUnk w0 w1) s
        = .next ((s.emit (.log .correctingQuadSize)).setWalker { s.walker with dlQuadsize := .fourteen }))
    ∧ (s.walker.dlQuadsize = .fourteen → exec (.dUnk w0 w1) s = .next (s.emit (.log (.dlUnknown w0 w1))))

/-- One record of a walk: the words at bytes `p + 8*cur` and `p + 8*cur + 4` of bank 0 are appended to the local buffer; a
sub-command that is not yet whole waits for the next record; past the last record the outer loop is next (R252, R46). A record
beyond the end of bank 0 raises `WaveRangeFault`, and nothing else changes (R83, R261). The opcode 0x38 of the quad is a default
of R5 marked GK, the spec's presumption (notes/assumptions/1.md). -/
def Obligations.WalkReadsOneRecord : Prop :=
  ∀ (s : State) (p : Nat), s.fail = none → s.phase = .walk → s.walker.list = some p →
    (p % 4 = 0 → p + 8 * s.walker.cur + 8 ≤ Config.size0 →
      let w0 := BitVec.ofNat 32 (s.wave0.readLE .bank0 (p + 8 * s.walker.cur) 4)
      let w1 := BitVec.ofNat 32 (s.wave0.readLE .bank0 (p + 8 * s.walker.cur + 4) 4)
      let buf := s.walker.buf ++ [w0, w1]
      let op := topByte (buf.getD 0 0#32)
      buf.length < (if op = 0x38#8 then s.walker.dlQuadsize.words else 2) →
      step s = .next (s.setWalker { s.walker with
        buf := buf, cur := s.walker.cur + 1, list := if s.walker.cur < s.walker.count then some p else none }))
    ∧ (p % 8 = 0 → Config.size0 < p + 8 * s.walker.cur + 8 →
      step s = .next (s.setFail (.waveRange .bank0 (p + 8 * s.walker.cur : Nat) 4)))

/-- A record that completes a sub-command, unless the sub-command raises a failure: the walk goes on with an empty local buffer
at the next record, or past the last one; the base, the count and the FIFO buffer stay (R252). -/
def Obligations.SubcommandEmptiesLocalBuffer : Prop :=
  ∀ (s t : State) (p : Nat) (w0 w1 : Word) (i : Instr), s.phase = .walk → s.walker.list = some p →
    readRecord defaults s.wave0 p s.walker.cur = .ok (w0, w1) →
    decodeList defaults s.walker.dlQuadsize (s.walker.buf ++ [w0, w1]) = .ok i → step s = .next t → t.fail = none →
    t.phase = .walk ∧ t.walker.buf = [] ∧ t.walker.cur = s.walker.cur + 1
    ∧ t.walker.list = (if s.walker.cur < s.walker.count then some p else none)
    ∧ t.walker.base = s.walker.base ∧ t.walker.count = s.walker.count ∧ t.fifo = s.fifo

/-- The outer loop: a non-zero base is resolved and reset to 0; with base 0 the walk ends, what is left in the local buffer
is dropped, and the command that began it is consumed (R251, R260). -/
def Obligations.OuterLoopRunsOnce : Prop :=
  ∀ s : State, s.fail = none → s.phase = .walk → s.walker.list = none →
    (s.walker.base ≠ 0#32 →
      step s = .next (s.setWalker { s.walker with list := some (expand0 defaults s.walker.base), base := 0#32, cur := 0 }))
    ∧ (s.walker.base = 0#32 →
      step s = .next { s with walker := Walker.clear, fifo := [], tFifo := .pending, phase := .idle })

/-- Every walk ends: from any state of a walk, within `count + 3` steps the transaction has ended, or a failure is recorded,
or the model refuses; it never runs on (R261). -/
def Obligations.EveryWalkEnds : Prop :=
  ∀ s : State, s.fail = none → s.phase = .walk → s.WalkerOk →
    (∃ t, runToEnd (s.walker.count + 3) s = .next t ∧ (t.phase = .idle ∨ t.fail ≠ none))
    ∨ ∃ r, runToEnd (s.walker.count + 3) s = .refused r

/-! ## Quads -/

/-- The camera vertex of a vertex, in plain arithmetic, one rounding after each operation: `X`, `Y` and `Z` are row 0, 1 and 2 of
the matrix times the coordinates, left to right, plus the component of the point; `Z` is then biased by `zbase`, and `V` offset
by the page selector (R283, R284). A quad whose four camera vertices all lie before the near plane is discarded without a
trace (R286). The order of the operations is the spec's own decision D18, the page selector D25 (notes/assumptions/18.md). -/
def Obligations.QuadBehindNearPlaneIsDiscarded : Prop :=
  (∀ (cfg : Cfg) (m : Mat3 Rat) (p : Vec3 Rat) (zbase : Rat) (texoffs : Word) (q : QVertex) (v : CamVertex),
    let row := fun m0 m1 m2 c r : Rat => ∃ a b ab d abd : Rat,
      cfg.fl (q.x.toInt * m0) = .fin a ∧ cfg.fl (q.y.toInt * m1) = .fin b ∧ cfg.fl (a + b) = .fin ab
      ∧ cfg.fl (q.z.toInt * m2) = .fin d ∧ cfg.fl (ab + d) = .fin abd ∧ cfg.fl (abd + c) = .fin r
    camVertex cfg (m.map F.fin) (p.map F.fin) (.fin zbase) texoffs q = .ok v
      ↔ row m.m00 m.m01 m.m02 p.c0 v.x ∧ row m.m10 m.m11 m.m12 p.c1 v.y
        ∧ (∃ z, row m.m20 m.m21 m.m22 p.c2 z ∧ cfg.fl (z + zbase) = .fin v.z)
        ∧ v.u = q.u.toNat ∧ cfg.fl (q.v.toNat + (texoffs.extractLsb' 16 16).toNat) = .fin v.v)
  ∧ ∀ (s : State) (framing : Framing) (v0 v1 v2 v3 : QVertex) (a b c d : CamVertex), s.debugToggle = false →
    camVertex defaults s.matrix s.point s.zbase s.walker.texoffs v0 = .ok a →
    camVertex defaults s.matrix s.point s.zbase s.walker.texoffs v1 = .ok b →
    camVertex defaults s.matrix s.point s.zbase s.walker.texoffs v2 = .ok c →
    camVertex defaults s.matrix s.point s.zbase s.walker.texoffs v3 = .ok d →
    a.z < Config.nearEps → b.z < Config.nearEps → c.z < Config.nearEps → d.z < Config.nearEps →
    exec (.dQuad framing v0 v1 v2 v3) s = .next s

/-- The near clip, in every configuration. The crossing of an edge from `a` to `b` with the near plane, in plain arithmetic, one
rounding after each operation: each of X, Y, Z, U, V at `a + t*(b - a)` with `t = (NEAR_EPS - a.Z) / (b.Z - a.Z)`. The edges are
taken from the last vertex round to it; each gives its crossing, if its ends lie on different sides, and then its end, if that is
inside (R285). With `k` of the four vertices inside there come out: none for `k = 0`, three for 1, four for two neighbours, six
for two opposite ones, five for 3, and for 4 the four as they are (R286). A quad with six is refused (R286). The clip's details are
the spec's own decision D21 (notes/assumptions/18.md). -/
def Obligations.NearClipVertexCounts : Prop :=
  (∀ (cfg : Cfg) (a b c : CamVertex),
    let between := fun p q t r : Rat => ∃ d e : Rat, cfg.fl (q - p) = .fin d ∧ cfg.fl (t * d) = .fin e
      ∧ cfg.fl (p + e) = .fin r
    nearCrossing cfg a b = .ok c ↔
      ∃ n d t : Rat, cfg.fl (cfg.nearEps - a.z) = .fin n ∧ cfg.fl (b.z - a.z) = .fin d ∧ d ≠ 0 ∧ cfg.fl (n / d) = .fin t
        ∧ between a.x b.x t c.x ∧ between a.y b.y t c.y ∧ between a.z b.z t c.z ∧ between a.u b.u t c.u
        ∧ between a.v b.v t c.v)
  ∧ (∀ (cfg : Cfg) (a b c d : CamVertex) (cv : List CamVertex),
    let out := fun v : CamVertex => decide (v.z < cfg.nearEps)
    let edge := fun p q x : CamVertex => (if out p = out q then [] else [x]) ++ (if out q then [] else [q])
    clipNear cfg a b c d = .ok cv ↔
      ∃ x0 x1 x2 x3 : CamVertex, cv = edge d a x0 ++ edge a b x1 ++ edge b c x2 ++ edge c d x3
        ∧ (out d ≠ out a → nearCrossing cfg d a = .ok x0) ∧ (out a ≠ out b → nearCrossing cfg a b = .ok x1)
        ∧ (out b ≠ out c → nearCrossing cfg b c = .ok x2) ∧ (out c ≠ out d → nearCrossing cfg c d = .ok x3))
  ∧ (∀ (cfg : Cfg) (a b c d : CamVertex) (cv : List CamVertex), clipNear cfg a b c d = .ok cv →
    let inside := [a, b, c, d].map fun v => decide (cfg.nearEps ≤ v.z)
    (inside.count true = 4 → cv = [a, b, c, d])
    ∧ cv.length =
      (match inside.count true with
       | 0 => 0
       | 1 => 3
       | 2 => if inside = [true, false, true, false] ∨ inside = [false, true, false, true] then 6 else 4
       | 3 => 5
       | _ => 4))
  ∧ ∀ (s : State) (framing : Framing) (v0 v1 v2 v3 : QVertex) (a b c d : CamVertex) (cv : List CamVertex),
    s.debugToggle = false →
    camVertex defaults s.matrix s.point s.zbase s.walker.texoffs v0 = .ok a →
    camVertex defaults s.matrix s.point s.zbase s.walker.texoffs v1 = .ok b →
    camVertex defaults s.matrix s.point s.zbase s.walker.texoffs v2 = .ok c →
    camVertex defaults s.matrix s.point s.zbase s.walker.texoffs v3 = .ok d →
    clipNear defaults a b c d = .ok cv → cv.length = 6 →
    exec (.dQuad framing v0 v1 v2 v3) s = .refused .sixVertexClip

/-- The screen vertex of a camera vertex, in plain arithmetic, one rounding after each operation: `ooz = PROJ_K / Z`,
`sx = X*ooz + CENTER_X`, `sy = Y*ooz + CENTER_Y`, `Z`, `U`, `V` carried (R287). The nudge then moves each coordinate that no vertex
of the polygon exceeds, by `NUDGE` and one rounding, and leaves every other coordinate and `Z`, `U`, `V` as they are (R288). The
polygon of a quad is put together from these: the four camera vertices in order, their near clip, no polygon where fewer than
three vertices come out, a refusal where six do, else each of them projected, and the nudge of them all (R280, R286). All hold
in every configuration; the arithmetic of R287 and R288 is the spec's own decision D20 (notes/assumptions/18.md). -/
def Obligations.NudgeMovesOnlyMaxima : Prop :=
  (∀ (cfg : Cfg) (a : CamVertex),
    (0 < a.z → ∀ p : ScreenVertex, project cfg a = .ok p ↔
      (∃ ooz mx my : Rat, cfg.fl (cfg.projK / a.z) = .fin ooz
        ∧ cfg.fl (a.x * ooz) = .fin mx ∧ cfg.fl (mx + cfg.centerX) = .fin p.sx
        ∧ cfg.fl (a.y * ooz) = .fin my ∧ cfg.fl (my + cfg.centerY) = .fin p.sy)
      ∧ p.z = a.z ∧ p.u = a.u ∧ p.v = a.v)
    ∧ (a.z ≤ 0 → project cfg a = .error (.refuse .nonFiniteCoordinate)))
  ∧ (∀ (cfg : Cfg) (sv out : List ScreenVertex),
    nudge cfg sv = .ok out ↔ List.Forall₂ (fun p q => q.z = p.z ∧ q.u = p.u ∧ q.v = p.v
      ∧ (if ∀ r ∈ sv, r.sx ≤ p.sx then cfg.fl (p.sx + cfg.nudge) = .fin q.sx else q.sx = p.sx)
      ∧ (if ∀ r ∈ sv, r.sy ≤ p.sy then cfg.fl (p.sy + cfg.nudge) = .fin q.sy else q.sy = p.sy)) sv out)
  ∧ ∀ (cfg : Cfg) (m : Mat3 F) (p : Vec3 F) (zbase : F) (texoffs : Word) (v0 v1 v2 v3 : QVertex),
    let polygon := quadPolygon cfg m p zbase texoffs v0 v1 v2 v3
    let clipped := fun cv => ∃ a b c d, camVertex cfg m p zbase texoffs v0 = .ok a ∧ camVertex cfg m p zbase texoffs v1 = .ok b
      ∧ camVertex cfg m p zbase texoffs v2 = .ok c ∧ camVertex cfg m p zbase texoffs v3 = .ok d
      ∧ clipNear cfg a b c d = .ok cv
    (polygon = .ok none ↔ ∃ cv, clipped cv ∧ cv.length < 3)
    ∧ (∀ out, polygon = .ok (some out) ↔ ∃ cv sv, clipped cv ∧ 3 ≤ cv.length ∧ cv.length ≤ 5
        ∧ List.Forall₂ (fun v w => project cfg v = .ok w) cv sv ∧ nudge cfg sv = .ok out)
    ∧ ∀ cv, clipped cv → 5 < cv.length → polygon = .error (.refuse .sixVertexClip)

/-- A quad that is ready (`quadReady`: finite coordinates, 3 to 5 vertices, a clip rectangle, convex rows, the render target,
texels and palette entries inside their banks) is drawn to its end: beyond its texture class, only bank 1 changes. Inside a
clip rectangle of at most 512 columns and rows, the colour and depth of each pixel are those of its one shading on the state
before the quad (`pixelWrite`), and as before where the quad does not cover it or the shading rejects it (R258, R280, R291,
R296, R301). What the functions it names compute is said in plain arithmetic by other statements: the camera vertices by
`QuadBehindNearPlaneIsDiscarded`, the near clip by `NearClipVertexCounts`, the projection, the nudge and the polygon put together
from them by `NudgeMovesOnlyMaxima`, the texture class and the capture by `UnknownCodeRetainsWidth`, the rows, spans and samples by
`CoverageIsHalfOpen`, the shading by `BlendStaysBetween`, the depth test by `DepthTestDecidesPixel`, and the addresses by
`PixelAddressesDistinct`. -/
def Obligations.ReadyQuadIsDrawn : Prop :=
  ∀ (s : State) (framing : Framing) (v0 v1 v2 v3 : QVertex), s.fail = none → quadReady v0 v1 v2 v3 s = true →
    let wt := classifyWidth defaults s.walker.texoffs s
    ∃ m, exec (.dQuad framing v0 v1 v2 v3) s = .next (wt.2.setWave1 m)
      ∧ ∀ sv clip, quadPolygon defaults s.matrix s.point s.zbase s.walker.texoffs v0 v1 v2 v3 = .ok (some sv) →
        s.clip = some clip → clip.maxX < 512 → clip.maxY < 512 →
        ∀ y x, clip.minY ≤ y → y ≤ clip.maxY → clip.minX ≤ x → x ≤ clip.maxX →
          match pixelWrite sv clip (capture defaults wt.1 wt.2) y x s with
          | none =>
            readPix defaults m s.renderbase y x = readPix defaults s.wave1 s.renderbase y x
            ∧ readDepth defaults m s.renderbase y x = readDepth defaults s.wave1 s.renderbase y x
          | some (w, d) =>
            readPix defaults m s.renderbase y x = .ok w.toNat ∧ readDepth defaults m s.renderbase y x = .ok d

/-- What a quad that answers next leaves unchanged: every register, bank 0, the transform, the buffer, the clip rectangle, the
pointers, `quad_size`, `zbase`, the lines and timers, the walker, the inputs; and every byte of bank 1 that is no colour or
depth byte of a pixel of the clip rectangle (R280). -/
def Obligations.QuadFrame : Prop :=
  ∀ (s t : State) (framing : Framing) (v0 v1 v2 v3 : QVertex), exec (.dQuad framing v0 v1 v2 v3) s = .next t →
    (∃ m w cs os n f,
      t = { s with wave1 := m, texwidthPrev := w, seenCodes := cs, outputs := os, freeIndex := n, fail := f })
    ∧ ∀ a, (∀ c y x, s.clip = some c → c.minY ≤ y → y ≤ c.maxY → c.minX ≤ x → x ≤ c.maxX →
        (a < colorAddr s.renderbase y x ∨ colorAddr s.renderbase y x + 4 ≤ a)
        ∧ (a < depthAddr s.renderbase y x ∨ depthAddr s.renderbase y x + 2 ≤ a)) →
        t.wave1.byteAt .bank1 a = s.wave1.byteAt .bank1 a

/-- The width class of a recognized code is the table's and is remembered; an unrecognized code is logged once, retains the class
of the most recent recognized one and leaves it remembered; where there is none, a free choice is made (R289). What is then
captured, in every configuration: the class, the transparent key, the texture cell index times the cell size, and the palette
register's expanded address (R290, R84). That the class is retained is the spec's resolution C3, the fallback where there is none
its decision D26, the source of the key and of the palette base its decision D25 (notes/assumptions/18.md). -/
def Obligations.UnknownCodeRetainsWidth : Prop :=
  (∀ (s : State) (texoffs : Word),
    (∀ w, (texoffs.extractLsb' 0 12, w) ∈ Config.texWidthTable →
      classifyWidth defaults texoffs s = (w, s.setTexwidthPrev w))
    ∧ ((∀ w, (texoffs.extractLsb' 0 12, w) ∉ Config.texWidthTable) →
        let code := texoffs.extractLsb' 0 16
        let t := if code ∈ s.seenCodes then s
          else (s.emit (.log (.unknownTexFormat code))).setSeenCodes (s.seenCodes ++ [code])
        (classifyWidth defaults texoffs s).2.texwidthPrev = s.texwidthPrev
        ∧ (∀ w, s.texwidthPrev = some w → classifyWidth defaults texoffs s = (w, t))
        ∧ (s.texwidthPrev = none → (classifyWidth defaults texoffs s).2 = t.nextFree)))
  ∧ ∀ (cfg : Cfg) (w : TexWidth) (s : State),
    let e := (s.reg cfg.palbaseReg).toNat
    let extra := capture cfg w s
    extra.texwidth = w ∧ extra.transkey = cfg.transKey ∧ extra.texbase = s.texbase * cfg.cell0
    ∧ extra.palbase = (e % cfg.W0 + e / 65536 % cfg.H0 * cfg.W0) * cfg.cell0

/-- `rnd(r)` is the ceiling of `r - 1/2`, and the rows or columns drawn are exactly the integers from `max(rnd(lo), cmin)`
to `min(rnd(hi) - 1, cmax)`; the sample `i + 1/2` of each lies in `lo <= i + 1/2 < hi`; for the rows of a polygon, `lo` and `hi` are
the least and the greatest `sy` of its vertices (R292, R293). The span and the samples between, in plain arithmetic, one
rounding after each operation, in every configuration: edge `i` goes from vertex `i` to the
next, the last to the first (R291); an edge crosses a row where `min <= yc < max` of its two `sy`, at `A + t*(B - A)` with
`t = (yc - A.sy) / (B.sy - A.sy)`; no crossing is an empty row, two are `L` and `R` by their `sx`, more are refused (R293); a
sample is `L + s*(R - L)` with `s = (xc - L.sx) / (R.sx - L.sx)` (R294). All of it is the spec's own decision D22
(notes/assumptions/18.md). -/
def Obligations.CoverageIsHalfOpen : Prop :=
  (∀ r : Rat, rnd r = ⌈r - 1 / 2⌉)
  ∧ (∀ (lo hi : Rat) (cmin cmax i : Nat),
    ((cover lo hi cmin cmax).1 ≤ i ∧ i < (cover lo hi cmin cmax).1 + (cover lo hi cmin cmax).2 ↔
      max (rnd lo) cmin ≤ (i : Int) ∧ (i : Int) ≤ min (rnd hi - 1) cmax)
    ∧ (max (rnd lo) cmin ≤ (i : Int) ∧ (i : Int) ≤ min (rnd hi - 1) cmax →
        lo ≤ (i : Rat) + 1 / 2 ∧ (i : Rat) + 1 / 2 < hi))
  ∧ (∀ (sv : List ScreenVertex) (clip : Rect) (lo hi : ScreenVertex), lo ∈ sv → hi ∈ sv →
    (∀ p ∈ sv, lo.sy ≤ p.sy ∧ p.sy ≤ hi.sy) → polygonRows sv clip = cover lo.sy hi.sy clip.minY clip.maxY)
  ∧ (∀ sv : List ScreenVertex, (edges sv).length = sv.length
      ∧ ∀ i a b, sv[i]? = some a → sv[(i + 1) % sv.length]? = some b → (edges sv)[i]? = some (a, b))
  ∧ ∀ cfg : Cfg,
    let ratio := fun a b x t : Rat => ∃ n d : Rat, cfg.fl (x - a) = .fin n ∧ cfg.fl (b - a) = .fin d ∧ d ≠ 0
      ∧ cfg.fl (n / d) = .fin t
    let between := fun a b t r : Rat => ∃ d e : Rat, cfg.fl (b - a) = .fin d ∧ cfg.fl (t * d) = .fin e
      ∧ cfg.fl (a + e) = .fin r
    (∀ (yc : Rat) (a b c : ScreenVertex), crossing cfg yc (a, b) = .ok c ↔
      c.sy = yc ∧ ∃ t, ratio a.sy b.sy yc t ∧ between a.sx b.sx t c.sx ∧ between a.z b.z t c.z ∧ between a.u b.u t c.u
        ∧ between a.v b.v t c.v)
    ∧ (∀ (sv : List ScreenVertex) (y : Nat) (yc : Rat), cfg.fl ((y : Rat) + 1 / 2) = .fin yc →
      let es := (edges sv).filter fun e => decide (min e.1.sy e.2.sy ≤ yc ∧ yc < max e.1.sy e.2.sy)
      (es = [] → rowSpan cfg sv y = .ok none)
      ∧ (∀ e f a b, es = [e, f] → crossing cfg yc e = .ok a → crossing cfg yc f = .ok b →
          rowSpan cfg sv y = .ok (some (if b.sx < a.sx then (b, a) else (a, b))))
      ∧ (2 < es.length → (∀ e ∈ es, ∃ a, crossing cfg yc e = .ok a) →
          rowSpan cfg sv y = .error (.refuse .nonConvexPolygon)))
    ∧ ∀ (l r : ScreenVertex) (x : Nat) (p : Sample), sampleSpan cfg l r x = .ok p ↔
      ∃ xc s, cfg.fl ((x : Rat) + 1 / 2) = .fin xc ∧ ratio l.sx r.sx xc s ∧ between l.z r.z s p.z ∧ between l.u r.u s p.u
        ∧ between l.v r.v s p.v

/-- The depth test and the writes of one pixel whose colour word and depth lie inside bank 1: a depth above the stored one
leaves everything as it is (R296); a depth not above it, with an opaque top-left texel, overwrites both planes, and no other byte
(R301); a transparent top-left texel leaves everything as it is (R298). That is the law R302, which the spec derives from those
rules; its source says it of two quads drawn, this statement of the drawing of one pixel. -/
def Obligations.DepthTestDecidesPixel : Prop :=
  ∀ (s : State) (e : Extra) (y x : Nat) (p : Sample) (c : Texcoord), s.fail = none → s.renderbase % 4 = 0 →
    depthAddr s.renderbase y x + 2 ≤ Config.size1 → fixedPoint defaults p = .ok (some c) →
    let stored := s.wave1.readLE .bank1 (depthAddr s.renderbase y x) 2
    (stored < c.depth → drawPixel defaults e y x p s = .next s)
    ∧ (∀ w, c.depth ≤ stored → shadeColor defaults s.wave0 e c = .ok (some w) →
        ∃ m, drawPixel defaults e y x p s = .next (s.setWave1 m)
          ∧ readPix defaults m s.renderbase y x = .ok w.toNat
          ∧ readDepth defaults m s.renderbase y x = .ok c.depth
          ∧ ∀ a, (a < colorAddr s.renderbase y x ∨ colorAddr s.renderbase y x + 4 ≤ a) →
              (a < depthAddr s.renderbase y x ∨ depthAddr s.renderbase y x + 2 ≤ a) →
              m.byteAt .bank1 a = s.wave1.byteAt .bank1 a)
    ∧ (c.depth ≤ stored → shadeColor defaults s.wave0 e c = .ok none → drawPixel defaults e y x p s = .next s)

/-- The pixel shader in plain arithmetic. `mix(a, b, f)` is `a` plus the floor of `(b - a)*f/256`; it lies between `a` and `b` for
`f` in 0..255, `f = 0` gives `a` exactly, and the blend of four colours, channel by channel first across and then down, with
channels in 0..255 has channels in 0..255, so that the colour word holds them whole, with bits 31:24 zero (R300, R301). The
depth is the floor of `Zi*DEPTH_PER_Z`, at most `MAX_DEPTH`, and the texel coordinates are the whole and the 256ths of `Ui` and
`Vi` (R295). A palette entry has red in 14:10, green in 9:5, blue in 4:0, each `c` expanded to `8*c + c div 4` (R92, R299). The
four texels are the bytes at the texel addresses of (v0, u0) and its neighbours, and the pixel is skipped where the first is
the key, else coloured by the blend of their palette entries (R297, R298). The scale of the texture coordinates, the palette
and the blend are the spec's own decisions D14, D15, D23, D24 and D25 (notes/assumptions/18.md). -/
def Obligations.BlendStaysBetween : Prop :=
  (∀ a b f : Int, 256 * (mix a b f - a) ≤ (b - a) * f ∧ (b - a) * f < 256 * (mix a b f - a) + 256
    ∧ (0 ≤ f → f ≤ 255 → min a b ≤ mix a b f ∧ mix a b f ≤ max a b ∧ mix a b 0 = a))
  ∧ (∀ (e00 e01 e10 e11 : BitVec 16) (fu fv : Int), 0 ≤ fu → fu ≤ 255 → 0 ≤ fv → fv ≤ 255 →
    let o := blend (entryColor e00) (entryColor e01) (entryColor e10) (entryColor e11) fu fv
    0 ≤ o.r ∧ o.r ≤ 255 ∧ 0 ≤ o.g ∧ o.g ≤ 255 ∧ 0 ≤ o.b ∧ o.b ≤ 255
    ∧ ((colorWord o.r o.g o.b).toNat : Int) = o.r * 65536 + o.g * 256 + o.b)
  ∧ (∀ (c00 c01 c10 c11 : Rgb) (fu fv : Int),
    let two := fun ch : Rgb → Int => mix (mix (ch c00) (ch c01) fu) (mix (ch c10) (ch c11) fu) fv
    blend c00 c01 c10 c11 fu fv = ⟨two Rgb.r, two Rgb.g, two Rgb.b⟩)
  ∧ (∀ e : BitVec 16,
    let ex := fun c : Nat => ((8 * c + c / 4 : Nat) : Int)
    entryColor e = ⟨ex (e.toNat / 1024 % 32), ex (e.toNat / 32 % 32), ex (e.toNat % 32)⟩)
  ∧ (∀ (cfg : Cfg) (p : Sample) (z : Rat), cfg.fl (p.z * cfg.depthPerZ) = .fin z →
    (⌊z⌋ < 0 → fixedPoint cfg p = .ok none)
    ∧ (0 ≤ ⌊z⌋ → ∀ u v : Rat, cfg.fl (p.u * 256) = .fin u → cfg.fl (p.v * 256) = .fin v →
      (⌊u⌋ < 0 ∨ ⌊v⌋ < 0 → fixedPoint cfg p = .error (.refuse .negativeTexel))
      ∧ (0 ≤ ⌊u⌋ → 0 ≤ ⌊v⌋ → ∃ c, fixedPoint cfg p = .ok (some c) ∧ (c.depth : Int) = min ⌊z⌋ cfg.maxDepth
        ∧ ((256 * c.u0 + c.fu : Nat) : Int) = ⌊u⌋ ∧ c.fu < 256 ∧ ((256 * c.v0 + c.fv : Nat) : Int) = ⌊v⌋ ∧ c.fv < 256)))
  ∧ ∀ (cfg : Cfg) (m : Memory) (e : Extra) (c : Texcoord), e.palbase % 2 = 0 →
    let addr := fun dv du => e.texbase + texelOffset e.texwidth (c.v0 + dv) (c.u0 + du)
    let key := fun dv du => (m.byteAt .bank0 (addr dv du)).toNat
    let colour := fun dv du => entryColor (BitVec.ofNat 16 (m.readLE .bank0 (e.palbase + 2 * key dv du) 2))
    (∀ dv ≤ 1, ∀ du ≤ 1, addr dv du < cfg.size0 ∧ e.palbase + 2 * key dv du + 2 ≤ cfg.size0) →
    shadeColor cfg m e c = .ok (if key 0 0 = e.transkey then none
      else
        let o := blend (colour 0 0) (colour 0 1) (colour 1 0) (colour 1 1) c.fu c.fv
        some (colorWord o.r o.g o.b))

/-! ## Wave Memory -/

/-- A store inside the bank then a load of the same bytes gives the low `8n` bits stored, changes no other byte of the bank
and nothing of the other; outside the bank, aligned or not, a store raises `WaveRangeFault` and writes no byte, and a load raises
it and answers no value; in every configuration (R83, R82). -/
def Obligations.StoreThenLoad : Prop :=
  ∀ (cfg : Cfg) (s : State) (b : Bank) (n v : Nat), n ∈ [1, 2, 4] →
    (∀ a : Nat, a % n = 0 → a + n ≤ bankSize cfg b →
      ∃ m, memWrite cfg b a n v s = .next (s.setBank b m) ∧ memRead cfg b m a n = .ok (v % 256 ^ n)
        ∧ (∀ i, i < n → m.byteAt b (a + i) = BitVec.ofNat 8 (v / 256 ^ i))
        ∧ ∀ c, (c < a ∨ a + n ≤ c) → m.byteAt b c = (s.bank b).byteAt b c)
    ∧ ∀ a : Int, (a < 0 ∨ bankSize cfg b < a + n) →
      memWrite cfg b a n v s = .next (s.setFail (.waveRange b a n))
      ∧ ∀ m, memRead cfg b m a n = .error (.raise (.waveRange b a n))

/-- `Expand0` and `Expand1` on every word: column from the low bits, row from bit 16 up, a multiple of the cell size inside
the bank (R84, R85; the formulas are the spec's presumption, notes/assumptions/1.md). -/
def Obligations.ExpandedAddressInsideBank : Prop :=
  ∀ e : Word,
    expand0 defaults e = ((e.extractLsb' 16 11).toNat * 1024 + (e.extractLsb' 0 10).toNat) * 8
    ∧ expand0 defaults e + 8 ≤ Config.size0
    ∧ expand1 defaults e = ((e.extractLsb' 16 10).toNat * 512 + (e.extractLsb' 0 9).toNat) * 12
    ∧ expand1 defaults e + 12 ≤ Config.size1

/-- The pixel of row `y`, column `x` has its colour word at `rb + 12*pc + 4*(x mod 2)` and its depth at
`rb + 12*pc + 8 + 2*(x mod 2)`, where `pc = (y mod 512)*256 + (x mod 512) div 2`; so a row 512 further down, and a column 512 further
on, each by itself, is at the same addresses. Inside 0..511 on both axes two pixels have disjoint colour words and disjoint
depths unless they are the same pixel, and no colour word meets a depth (R88). The texels of a texture stand in blocks of four
columns by two rows, eight bytes a block, two rows in two widths, and those inside the width have distinct addresses (R91). The
layouts are the spec's presumption (notes/assumptions/1.md). -/
def Obligations.PixelAddressesDistinct : Prop :=
  (∀ rb y x y' x' : Nat, y < 512 → x < 512 → y' < 512 → x' < 512 →
    (colorAddr rb y x + 4 ≤ depthAddr rb y' x' ∨ depthAddr rb y' x' + 2 ≤ colorAddr rb y x)
    ∧ ((y, x) ≠ (y', x') →
        (colorAddr rb y x + 4 ≤ colorAddr rb y' x' ∨ colorAddr rb y' x' + 4 ≤ colorAddr rb y x)
        ∧ (depthAddr rb y x + 2 ≤ depthAddr rb y' x' ∨ depthAddr rb y' x' + 2 ≤ depthAddr rb y x)))
  ∧ (∀ rb y x : Nat,
    let pc := y % 512 * 256 + x % 512 / 2
    (colorAddr rb y x = rb + 12 * pc + 4 * (x % 2) ∧ depthAddr rb y x = rb + 12 * pc + 8 + 2 * (x % 2))
    ∧ (colorAddr rb (y + 512) x = colorAddr rb y x ∧ depthAddr rb (y + 512) x = depthAddr rb y x)
    ∧ (colorAddr rb y (x + 512) = colorAddr rb y x ∧ depthAddr rb y (x + 512) = depthAddr rb y x))
  ∧ ∀ (w : TexWidth) (n : Nat), (w, n) ∈ [(.w64, 64), (.w128, 128), (.w256, 256)] →
    (∀ i j du dv : Nat, du < 4 → dv < 2 → texelOffset w (2 * j + dv) (4 * i + du) = 2 * n * j + 8 * i + 4 * dv + du)
    ∧ ∀ v u v' u' : Nat, u < n → u' < n → texelOffset w v u = texelOffset w v' u' → v = v' ∧ u = u'

/-! ## Failures, interrupts, reset, snapshots -/

/-- A state that records a failure accepts nothing further: no transaction, no timer (R44, R341). -/
def Obligations.FailureIsTerminal : Prop :=
  ∀ (s : State) (f : Fault), s.fail = some f → step s = .fault f

/-- A pending timer that fires between transactions: the FIFO timer asserts `irq_fifo`; the two vblank timers set and clear
`irq_vblank` and each arms the other; an idle timer does not fire (R345, R346, R347; the spec's own decision D35). The two
diagnostic inputs between transactions: `SetZbase(z)` sets `zbase`, and the debug toggle is set or cleared, and nothing else
changes (R354, its decision D41; that they are inputs is the model's choice, notes/assumptions/15.md). -/
def Obligations.TimersDriveInterruptLines : Prop :=
  ∀ (s : State) (rest : List Input), s.fail = none → s.phase = .idle →
    (s.inputs = .fire .fifo :: rest →
      (s.tFifo = .pending → step s = .next { s with inputs := rest, tFifo := .idle, irqFifo := true })
      ∧ (s.tFifo = .idle → step s = .next { s with inputs := rest }))
    ∧ (s.inputs = .fire .vblOn :: rest →
      (s.tVblOn = .pending →
        step s = .next { s with inputs := rest, irqVblank := true, tVblOn := .idle, tVblOff := .pending })
      ∧ (s.tVblOn = .idle → step s = .next { s with inputs := rest }))
    ∧ (s.inputs = .fire .vblOff :: rest →
      (s.tVblOff = .pending →
        step s = .next { s with inputs := rest, irqVblank := false, tVblOff := .idle, tVblOn := .pending })
      ∧ (s.tVblOff = .idle → step s = .next { s with inputs := rest }))
    ∧ (∀ z, s.inputs = .setZbase z :: rest → step s = .next { s with inputs := rest, zbase := z })
    ∧ ∀ active, s.inputs = .debugToggle active :: rest → step s = .next { s with inputs := rest, debugToggle := active }

/-- While a transaction is in progress no step takes an input: the lines, the vblank timers, the debug toggle and the inputs stay
as they are (R94, R348). -/
def Obligations.NothingInterruptsTransaction : Prop :=
  ∀ s t : State, s.phase ≠ .idle → step s = .next t →
    t.inputs = s.inputs ∧ t.irqFifo = s.irqFifo ∧ t.irqVblank = s.irqVblank ∧ t.tVblOn = s.tVblOn ∧ t.tVblOff = s.tVblOff
    ∧ t.debugToggle = s.debugToggle

/-- Device reset between transactions: every field the reset table names at its value there, Wave Memory and `fail`
untouched, no side effect run (R380, R48; the values the spec itself decides are D33, D35, D44). -/
def Obligations.DeviceResetValues : Prop :=
  ∀ (s : State) (rest : List Input), s.fail = none → s.phase = .idle → s.inputs = .deviceReset :: rest →
    ∃ t, step s = .next t
      ∧ (∀ o, t.reg o = 0#32) ∧ t.wave0 = s.wave0 ∧ t.wave1 = s.wave1 ∧ t.fifo = []
      ∧ t.matrix = ⟨.fin 0, .fin 0, .fin 0, .fin 0, .fin 0, .fin 0, .fin 0, .fin 0, .fin 0⟩
      ∧ t.point = ⟨.fin 0, .fin 0, .fin 0⟩ ∧ t.point2 = ⟨.fin 0, .fin 0, .fin 0⟩
      ∧ t.renderbase = 0 ∧ t.texbase = 0 ∧ t.quadSize = .ten ∧ t.clip = none ∧ t.yscale = false ∧ t.zbase = .fin 2
      ∧ t.texwidthPrev = none ∧ t.seenCodes = [] ∧ t.irqFifo = false ∧ t.irqVblank = false
      ∧ t.tFifo = .idle ∧ t.tVblOn = .pending ∧ t.tVblOff = .idle ∧ t.fail = s.fail ∧ t.outputs = s.outputs

/-- A snapshot hands out every field that survives a transaction and changes none; restoring it sets every one of them to its
captured value, whatever the state is then, and runs no side effect (R185, R186). -/
def Obligations.RestoreUndoesEverything : Prop :=
  ∀ (s u : State) (rest rest' : List Input), s.fail = none → s.phase = .idle → s.inputs = .snapshot :: rest →
    u.fail = none → u.phase = .idle → u.inputs = .restore s.toArch :: rest' →
    step s = .next ((s.setInputs rest).emit (.snapshot s.toArch))
    ∧ ∃ t, step u = .next t ∧ t.toArch = s.toArch ∧ t.outputs = u.outputs ∧ t.inputs = rest'

/-- The only writers of the banks (R93). No instruction writes bank 0, except a bus write to a port offset; none writes bank 1,
except those, `PT2CLR` and `D.QUAD`. Nor does any step, whatever it does, but one that runs such an instruction or restores a
snapshot; and a step that runs no instruction, restores nothing and resets nothing leaves the register file as it is. A write to
a bank leaves the other bank, the registers and the FIFO buffer as they are. How a transaction is cut into steps
(notes/assumptions/3.md) makes no difference to what this says. -/
def Obligations.WaveMemoryWriters : Prop :=
  (∀ (i : Instr) (s t : State), s.fail = none → exec i s = .next t →
    (∀ o v, (i = .wr o v ∨ i = .setreg o v ∨ i = .dSetreg o v) → o ∉ Config.portOffsets) →
    t.wave0 = s.wave0
    ∧ ((∀ p, i ≠ .pt2clr p) → (∀ f a b c d, i ≠ .dQuad f a b c d) → t.wave1 = s.wave1))
  ∧ (∀ s t : State, step s = .next t → (∀ a rest, s.phase = .idle → s.inputs ≠ .restore a :: rest) →
    let runs := fun i => ∃ u, fetch defaults s = .run i u
    ((∀ o v, (runs (.wr o v) ∨ runs (.setreg o v) ∨ runs (.dSetreg o v)) → o ∉ Config.portOffsets) →
      t.wave0 = s.wave0
      ∧ ((∀ p, ¬ runs (.pt2clr p)) → (∀ f a b c d, ¬ runs (.dQuad f a b c d)) → t.wave1 = s.wave1))
    ∧ ((∀ i, ¬ runs i) → (∀ rest, s.phase = .idle → s.inputs ≠ .deviceReset :: rest) → t.regs = s.regs))
  ∧ ∀ (cfg : Cfg) (b : Bank) (a : Int) (n v : Nat) (s t : State), memWrite cfg b a n v s = .next t →
    t.regs = s.regs ∧ t.fifo = s.fifo ∧ ∀ c, c ≠ b → t.bank c = s.bank c

/-- No instruction writes `matrix`, `point` or `point2` but the FIFO commands that decode them (R35, R36), and none writes
`zbase`, nor does any step of a transaction (R39). -/
def Obligations.TransformWriters : Prop :=
  (∀ (i : Instr) (s t : State), s.fail = none → exec i s = .next t →
    t.zbase = s.zbase
    ∧ ((∀ m p, i ≠ .setmat m p) → (∀ w m p, i ≠ .setmat8 w m p) → t.matrix = s.matrix
      ∧ ((∀ p, i ≠ .setpt15 p) → (∀ p, i ≠ .setpt16 p) → t.point = s.point))
    ∧ ((∀ p, i ≠ .pt2clr p) → t.point2 = s.point2))
  ∧ ∀ s t : State, s.phase ≠ .idle → step s = .next t → t.zbase = s.zbase

/-! ## Invariants that every step keeps -/

/-- Both banks stay in canonical form and list only addresses of their bank (R37, R80, R83). -/
def Obligations.StepKeepsMemoryOk : Prop := ∀ s t : State, s.MemoryOk → step s = .next t → t.MemoryOk

/-- `renderbase` stays a multiple of the cell size inside bank 1 and `texbase` a cell of bank 0 (R33), and the clip rectangle
keeps `min <= max` on both axes (R38). -/
def Obligations.StepKeepsPointersAndClipOk : Prop :=
  ∀ s t : State, step s = .next t → (s.PointersOk → t.PointersOk) ∧ (s.ClipOk → t.ClipOk)

/-- The buffer never holds more than 14 words, and between transactions no whole command (R225). -/
def Obligations.StepKeepsFifoOk : Prop := ∀ s t : State, s.FifoOk → step s = .next t → t.FifoOk

/-- The walker's transients keep their bounds, and none survives a walk (R41, R46, R252). -/
def Obligations.StepKeepsWalkerOk : Prop := ∀ s t : State, s.WalkerOk → step s = .next t → t.WalkerOk

/-- The state after reset meets every invariant, and holds every value of the reset table (R48, R380): registers, transform and
`point2` zero, no word in the buffer, `zbase` 2.0, the pointers 0, 10-word framing, no clip rectangle, no texture class, both
lines 0, `t_vbl_on` the one pending timer, no failure, and any value in each byte of both banks (R381). The values the spec
itself decides are D26, D33, D34, D35, D43 and D44; that `State.reset` has no walk alive is the model's choice
(notes/assumptions/12.md). -/
def Obligations.ResetMeetsInvariants : Prop :=
  State.reset.MemoryOk ∧ State.reset.PointersOk ∧ State.reset.ClipOk ∧ State.reset.FifoOk ∧ State.reset.WalkerOk
  ∧ (∀ o, State.reset.reg o = 0#32) ∧ State.reset.fifo = [] ∧ State.reset.zbase = .fin 2
  ∧ State.reset.matrix = ⟨.fin 0, .fin 0, .fin 0, .fin 0, .fin 0, .fin 0, .fin 0, .fin 0, .fin 0⟩
  ∧ State.reset.point = ⟨.fin 0, .fin 0, .fin 0⟩ ∧ State.reset.point2 = ⟨.fin 0, .fin 0, .fin 0⟩
  ∧ State.reset.renderbase = 0 ∧ State.reset.texbase = 0 ∧ State.reset.quadSize = .ten
  ∧ State.reset.clip = none ∧ State.reset.yscale = false ∧ State.reset.texwidthPrev = none ∧ State.reset.seenCodes = []
  ∧ State.reset.irqFifo = false ∧ State.reset.irqVblank = false
  ∧ State.reset.tFifo = .idle ∧ State.reset.tVblOn = .pending ∧ State.reset.tVblOff = .idle
  ∧ State.reset.fail = none ∧ State.reset.walker = Walker.clear
  ∧ (∀ a, State.reset.wave0.byteAt .bank0 a = Config.powerOnByte .bank0 a)
  ∧ ∀ a, State.reset.wave1.byteAt .bank1 a = Config.powerOnByte .bank1 a
end

