-- ==== Sys2Proof/Laws/Config.lean ====
section
/-! SUPPORT. One lemma per field of `Config.defaults`: the field is the default of that name. -/

namespace Sys2Proof.Config

@[simp] theorem defaults_fifoTrigger : defaults.fifoTrigger = fifoTrigger := rfl
@[simp] theorem defaults_fifoCap : defaults.fifoCap = fifoCap := rfl
@[simp] theorem defaults_ptrPrimary : defaults.ptrPrimary = ptrPrimary := rfl
@[simp] theorem defaults_ptrIdxRender : defaults.ptrIdxRender = ptrIdxRender := rfl
@[simp] theorem defaults_ptrIdxTex : defaults.ptrIdxTex = ptrIdxTex := rfl
@[simp] theorem defaults_ptrIdxQsize : defaults.ptrIdxQsize = ptrIdxQsize := rfl
@[simp] theorem defaults_renderShift : defaults.renderShift = renderShift := rfl
@[simp] theorem defaults_idConst : defaults.idConst = idConst := rfl
@[simp] theorem defaults_statusFixed : defaults.statusFixed = statusFixed := rfl
@[simp] theorem defaults_statusVblank : defaults.statusVblank = statusVblank := rfl
@[simp] theorem defaults_magic7 : defaults.magic7 = magic7 := rfl
@[simp] theorem defaults_scanposOffset : defaults.scanposOffset = scanposOffset := rfl
@[simp] theorem defaults_W0 : defaults.W0 = W0 := rfl
@[simp] theorem defaults_H0 : defaults.H0 = H0 := rfl
@[simp] theorem defaults_W1 : defaults.W1 = W1 := rfl
@[simp] theorem defaults_H1 : defaults.H1 = H1 := rfl
@[simp] theorem defaults_cell0 : defaults.cell0 = cell0 := rfl
@[simp] theorem defaults_cell1 : defaults.cell1 = cell1 := rfl
@[simp] theorem defaults_palbaseReg : defaults.palbaseReg = palbaseReg := rfl
@[simp] theorem defaults_transKey : defaults.transKey = transKey := rfl
@[simp] theorem defaults_texWidthTable : defaults.texWidthTable = texWidthTable := rfl
@[simp] theorem defaults_dlCountMax : defaults.dlCountMax = dlCountMax := rfl
@[simp] theorem defaults_dlOpTexsel : defaults.dlOpTexsel = dlOpTexsel := rfl
@[simp] theorem defaults_dlOpSync : defaults.dlOpSync = dlOpSync := rfl
@[simp] theorem defaults_dlOpReg : defaults.dlOpReg = dlOpReg := rfl
@[simp] theorem defaults_dlOpQuad : defaults.dlOpQuad = dlOpQuad := rfl
@[simp] theorem defaults_nearEps : defaults.nearEps = nearEps := rfl
@[simp] theorem defaults_projK : defaults.projK = projK := rfl
@[simp] theorem defaults_centerX : defaults.centerX = centerX := rfl
@[simp] theorem defaults_centerY : defaults.centerY = centerY := rfl
@[simp] theorem defaults_nudge : defaults.nudge = nudge := rfl
@[simp] theorem defaults_depthPerZ : defaults.depthPerZ = depthPerZ := rfl
@[simp] theorem defaults_maxDepth : defaults.maxDepth = maxDepth := rfl
@[simp] theorem defaults_quadLayout : defaults.quadLayout = quadLayout := rfl
@[simp] theorem defaults_timingOffsets : defaults.timingOffsets = timingOffsets := rfl
@[simp] theorem defaults_geometry : defaults.geometry = geometry := rfl
@[simp] theorem defaults_portOffsets : defaults.portOffsets = portOffsets := rfl
@[simp] theorem defaults_portEffect : defaults.portEffect = portEffect := rfl
@[simp] theorem defaults_fl : defaults.fl = Machine.fl := rfl
@[simp] theorem defaults_size0 : defaults.size0 = size0 := rfl
@[simp] theorem defaults_size1 : defaults.size1 = size1 := rfl
@[simp] theorem defaults_ptrIndices : defaults.ptrIndices = [ptrIdxRender, ptrIdxTex, ptrIdxQsize] := rfl

end Sys2Proof.Config
end

