-- ==== Sys2Proof/Laws/Memory.lean ====
section
/-! SUPPORT. What the operations on one bank's contents do: read after write, the frame of a write, the canonical form. -/

namespace Sys2Proof

@[simp] theorem Memory.lookup_write_same (m : Memory) (a : Nat) (b : Byte) : (m.write a b).lookup a = some b := by
  induction m with
  | nil => simp [Memory.write, Memory.lookup]
  | cons c rest ih =>
    obtain ⟨k, v⟩ := c
    simp only [Memory.write]
    split
    · simp [Memory.lookup]
    · split
      · simp [Memory.lookup]
      · simp [Memory.lookup, *]

theorem Memory.lookup_write_ne (m : Memory) (a c : Nat) (b : Byte) (h : c ≠ a) :
    (m.write a b).lookup c = m.lookup c := by
  induction m with
  | nil => simp [Memory.write, Memory.lookup, Ne.symm h]
  | cons e rest ih =>
    obtain ⟨k, v⟩ := e
    simp only [Memory.write]
    split
    · simp [Memory.lookup, Ne.symm h]
    · split
      · rename_i hk
        subst hk
        simp [Memory.lookup, Ne.symm h]
      · simp only [Memory.lookup]
        rw [ih]

@[simp] theorem Memory.byteAt_write_same (k : Bank) (m : Memory) (a : Nat) (b : Byte) :
    (m.write a b).byteAt k a = b := by
  simp [Memory.byteAt]

theorem Memory.byteAt_write_ne (k : Bank) (m : Memory) (a c : Nat) (b : Byte) (h : c ≠ a) :
    (m.write a b).byteAt k c = m.byteAt k c := by
  simp [Memory.byteAt, Memory.lookup_write_ne m a c b h]

/-- A write lists no address but the old ones and its own. -/
theorem Memory.mem_write (m : Memory) (a : Nat) (b : Byte) (c : Host.Cell) (h : c ∈ m.write a b) :
    c = (a, b) ∨ c ∈ m := by
  induction m with
  | nil => simpa [Memory.write] using h
  | cons e rest ih =>
    obtain ⟨k, v⟩ := e
    simp only [Memory.write] at h
    split at h
    · simpa using h
    · split at h
      · rcases List.mem_cons.mp h with h | h
        · exact .inl h
        · exact .inr (List.mem_cons_of_mem _ h)
      · rcases List.mem_cons.mp h with h | h
        · exact .inr (by simp [h])
        · rcases ih h with h | h
          · exact .inl h
          · exact .inr (List.mem_cons_of_mem _ h)

/-- A write keeps the canonical form. -/
theorem Memory.wf_write (m : Memory) (a : Nat) (b : Byte) (h : m.wf = true) : (m.write a b).wf = true := by
  induction m with
  | nil => simp [Memory.write, Memory.wf]
  | cons e rest ih =>
    obtain ⟨k, v⟩ := e
    simp only [Memory.wf, Bool.and_eq_true, List.all_eq_true, decide_eq_true_eq] at h
    simp only [Memory.write]
    split
    · rename_i hak
      simp only [Memory.wf, Bool.and_eq_true, List.all_eq_true, decide_eq_true_eq]
      refine ⟨?_, h⟩
      intro c hc
      rcases List.mem_cons.mp hc with hc | hc
      · subst hc
        exact hak
      · exact lt_trans hak (h.1 c hc)
    · rename_i hak
      split
      · rename_i hk
        subst hk
        simpa only [Memory.wf, Bool.and_eq_true, List.all_eq_true, decide_eq_true_eq] using h
      · rename_i hk
        simp only [Memory.wf, Bool.and_eq_true, List.all_eq_true, decide_eq_true_eq]
        refine ⟨?_, ih h.2⟩
        intro c hc
        rcases Memory.mem_write rest a b c hc with hc | hc
        · subst hc
          simp only
          omega
        · exact h.1 c hc

theorem Memory.wf_writeLE (m : Memory) (a v n : Nat) (h : m.wf = true) : (m.writeLE a v n).wf = true := by
  induction n generalizing m a v with
  | zero => exact h
  | succ n ih => exact ih _ _ _ (Memory.wf_write m a _ h)

/-- A store lists no address but the old ones and those of its own bytes. -/
theorem Memory.mem_writeLE (m : Memory) (a v n : Nat) (c : Host.Cell) (h : c ∈ m.writeLE a v n) :
    (a ≤ c.1 ∧ c.1 < a + n) ∨ c ∈ m := by
  induction n generalizing m a v with
  | zero => exact .inr h
  | succ n ih =>
    rcases ih _ _ _ h with h | h
    · exact .inl (by omega)
    · rcases Memory.mem_write m a _ c h with h | h
      · subst h
        exact .inl (by simp)
      · exact .inr h

/-- A store leaves every byte outside its own as it was. -/
theorem Memory.byteAt_writeLE_outside (k : Bank) (m : Memory) (a v n c : Nat) (h : c < a ∨ a + n ≤ c) :
    (m.writeLE a v n).byteAt k c = m.byteAt k c := by
  induction n generalizing m a v with
  | zero => rfl
  | succ n ih =>
    rw [Memory.writeLE, ih _ _ _ (by omega), Memory.byteAt_write_ne _ _ _ _ _ (by omega)]

/-- The bytes of a store, least significant first. -/
theorem Memory.byteAt_writeLE (k : Bank) (m : Memory) (a v n i : Nat) (h : i < n) :
    (m.writeLE a v n).byteAt k (a + i) = BitVec.ofNat 8 (v / 256 ^ i) := by
  induction n generalizing m a v i with
  | zero => omega
  | succ n ih =>
    rw [Memory.writeLE]
    cases i with
    | zero => rw [Memory.byteAt_writeLE_outside _ _ _ _ _ _ (by omega)]; simp
    | succ i =>
      have := ih (m.write a (BitVec.ofNat 8 v)) (a + 1) (v / 256) i (by omega)
      rw [show a + (i + 1) = a + 1 + i by omega, this, Nat.div_div_eq_div_mul, Nat.pow_succ, Nat.mul_comm]

/-- Reading depends only on the bytes read. -/
theorem Memory.readLE_congr (k : Bank) (m m' : Memory) (a n : Nat)
    (h : ∀ i, i < n → m.byteAt k (a + i) = m'.byteAt k (a + i)) : m.readLE k a n = m'.readLE k a n := by
  induction n generalizing a with
  | zero => rfl
  | succ n ih =>
    have h0 := h 0 (by omega)
    have h1 := ih (a + 1) (fun i hi => by
      have := h (i + 1) (by omega)
      rwa [show a + (i + 1) = a + 1 + i by omega] at this)
    simp only [Memory.readLE, h1]
    rw [show m.byteAt k a = m'.byteAt k a from h0]

theorem Memory.readLE_lt (k : Bank) (m : Memory) (a n : Nat) : m.readLE k a n < 256 ^ n := by
  induction n generalizing a with
  | zero => simp [Memory.readLE]
  | succ n ih =>
    have := ih (a + 1)
    have hb := (m.byteAt k a).isLt
    rw [Memory.readLE, Nat.pow_succ]
    omega

/-- Reading what was stored gives its low `8n` bits. -/
theorem Memory.readLE_writeLE (k : Bank) (m : Memory) (a v n : Nat) :
    (m.writeLE a v n).readLE k a n = v % 256 ^ n := by
  induction n generalizing m a v with
  | zero => simp [Memory.readLE, Nat.mod_one]
  | succ n ih =>
    rw [Memory.readLE, Memory.writeLE, ih, Memory.byteAt_writeLE_outside _ _ _ _ _ _ (by omega),
      Memory.byteAt_write_same, BitVec.toNat_ofNat, show 256 ^ (n + 1) = 256 * 256 ^ n by rw [Nat.pow_succ, Nat.mul_comm],
      Nat.mod_mul]

/-- A store leaves what is read elsewhere as it was. -/
theorem Memory.readLE_writeLE_outside (k : Bank) (m : Memory) (a v n c l : Nat) (h : c + l ≤ a ∨ a + n ≤ c) :
    (m.writeLE a v n).readLE k c l = m.readLE k c l :=
  Memory.readLE_congr _ _ _ _ _ fun _ _ => Memory.byteAt_writeLE_outside _ _ _ _ _ _ (by omega)

end Sys2Proof
end

