-- ==== Sys2Proof/Laws/State.lean ====
section
/-! SUPPORT. One lemma per field per update of State: what each named update leaves in each field. -/

namespace Sys2Proof.Machine.State

variable (s : State)

/-! ### setReg -/

@[simp] theorem setReg_regs (o : Offset) (v : Word) : (s.setReg o v).regs = s.regs.set o.toNat v o.isLt := rfl
@[simp] theorem setReg_wave0 (o : Offset) (v : Word) : (s.setReg o v).wave0 = s.wave0 := rfl
@[simp] theorem setReg_wave1 (o : Offset) (v : Word) : (s.setReg o v).wave1 = s.wave1 := rfl
@[simp] theorem setReg_matrix (o : Offset) (v : Word) : (s.setReg o v).matrix = s.matrix := rfl
@[simp] theorem setReg_point (o : Offset) (v : Word) : (s.setReg o v).point = s.point := rfl
@[simp] theorem setReg_point2 (o : Offset) (v : Word) : (s.setReg o v).point2 = s.point2 := rfl
@[simp] theorem setReg_fifo (o : Offset) (v : Word) : (s.setReg o v).fifo = s.fifo := rfl
@[simp] theorem setReg_clip (o : Offset) (v : Word) : (s.setReg o v).clip = s.clip := rfl
@[simp] theorem setReg_yscale (o : Offset) (v : Word) : (s.setReg o v).yscale = s.yscale := rfl
@[simp] theorem setReg_renderbase (o : Offset) (v : Word) : (s.setReg o v).renderbase = s.renderbase := rfl
@[simp] theorem setReg_texbase (o : Offset) (v : Word) : (s.setReg o v).texbase = s.texbase := rfl
@[simp] theorem setReg_quadSize (o : Offset) (v : Word) : (s.setReg o v).quadSize = s.quadSize := rfl
@[simp] theorem setReg_zbase (o : Offset) (v : Word) : (s.setReg o v).zbase = s.zbase := rfl
@[simp] theorem setReg_texwidthPrev (o : Offset) (v : Word) : (s.setReg o v).texwidthPrev = s.texwidthPrev := rfl
@[simp] theorem setReg_irqFifo (o : Offset) (v : Word) : (s.setReg o v).irqFifo = s.irqFifo := rfl
@[simp] theorem setReg_irqVblank (o : Offset) (v : Word) : (s.setReg o v).irqVblank = s.irqVblank := rfl
@[simp] theorem setReg_tFifo (o : Offset) (v : Word) : (s.setReg o v).tFifo = s.tFifo := rfl
@[simp] theorem setReg_tVblOn (o : Offset) (v : Word) : (s.setReg o v).tVblOn = s.tVblOn := rfl
@[simp] theorem setReg_tVblOff (o : Offset) (v : Word) : (s.setReg o v).tVblOff = s.tVblOff := rfl
@[simp] theorem setReg_fail (o : Offset) (v : Word) : (s.setReg o v).fail = s.fail := rfl
@[simp] theorem setReg_seenCodes (o : Offset) (v : Word) : (s.setReg o v).seenCodes = s.seenCodes := rfl
@[simp] theorem setReg_walker (o : Offset) (v : Word) : (s.setReg o v).walker = s.walker := rfl
@[simp] theorem setReg_phase (o : Offset) (v : Word) : (s.setReg o v).phase = s.phase := rfl
@[simp] theorem setReg_inputs (o : Offset) (v : Word) : (s.setReg o v).inputs = s.inputs := rfl
@[simp] theorem setReg_outputs (o : Offset) (v : Word) : (s.setReg o v).outputs = s.outputs := rfl
@[simp] theorem setReg_debugToggle (o : Offset) (v : Word) : (s.setReg o v).debugToggle = s.debugToggle := rfl
@[simp] theorem setReg_freeIndex (o : Offset) (v : Word) : (s.setReg o v).freeIndex = s.freeIndex := rfl

/-! ### setWave0 -/

@[simp] theorem setWave0_regs (m : Memory) : (s.setWave0 m).regs = s.regs := rfl
@[simp] theorem setWave0_wave0 (m : Memory) : (s.setWave0 m).wave0 = m := rfl
@[simp] theorem setWave0_wave1 (m : Memory) : (s.setWave0 m).wave1 = s.wave1 := rfl
@[simp] theorem setWave0_matrix (m : Memory) : (s.setWave0 m).matrix = s.matrix := rfl
@[simp] theorem setWave0_point (m : Memory) : (s.setWave0 m).point = s.point := rfl
@[simp] theorem setWave0_point2 (m : Memory) : (s.setWave0 m).point2 = s.point2 := rfl
@[simp] theorem setWave0_fifo (m : Memory) : (s.setWave0 m).fifo = s.fifo := rfl
@[simp] theorem setWave0_clip (m : Memory) : (s.setWave0 m).clip = s.clip := rfl
@[simp] theorem setWave0_yscale (m : Memory) : (s.setWave0 m).yscale = s.yscale := rfl
@[simp] theorem setWave0_renderbase (m : Memory) : (s.setWave0 m).renderbase = s.renderbase := rfl
@[simp] theorem setWave0_texbase (m : Memory) : (s.setWave0 m).texbase = s.texbase := rfl
@[simp] theorem setWave0_quadSize (m : Memory) : (s.setWave0 m).quadSize = s.quadSize := rfl
@[simp] theorem setWave0_zbase (m : Memory) : (s.setWave0 m).zbase = s.zbase := rfl
@[simp] theorem setWave0_texwidthPrev (m : Memory) : (s.setWave0 m).texwidthPrev = s.texwidthPrev := rfl
@[simp] theorem setWave0_irqFifo (m : Memory) : (s.setWave0 m).irqFifo = s.irqFifo := rfl
@[simp] theorem setWave0_irqVblank (m : Memory) : (s.setWave0 m).irqVblank = s.irqVblank := rfl
@[simp] theorem setWave0_tFifo (m : Memory) : (s.setWave0 m).tFifo = s.tFifo := rfl
@[simp] theorem setWave0_tVblOn (m : Memory) : (s.setWave0 m).tVblOn = s.tVblOn := rfl
@[simp] theorem setWave0_tVblOff (m : Memory) : (s.setWave0 m).tVblOff = s.tVblOff := rfl
@[simp] theorem setWave0_fail (m : Memory) : (s.setWave0 m).fail = s.fail := rfl
@[simp] theorem setWave0_seenCodes (m : Memory) : (s.setWave0 m).seenCodes = s.seenCodes := rfl
@[simp] theorem setWave0_walker (m : Memory) : (s.setWave0 m).walker = s.walker := rfl
@[simp] theorem setWave0_phase (m : Memory) : (s.setWave0 m).phase = s.phase := rfl
@[simp] theorem setWave0_inputs (m : Memory) : (s.setWave0 m).inputs = s.inputs := rfl
@[simp] theorem setWave0_outputs (m : Memory) : (s.setWave0 m).outputs = s.outputs := rfl
@[simp] theorem setWave0_debugToggle (m : Memory) : (s.setWave0 m).debugToggle = s.debugToggle := rfl
@[simp] theorem setWave0_freeIndex (m : Memory) : (s.setWave0 m).freeIndex = s.freeIndex := rfl

/-! ### setWave1 -/

@[simp] theorem setWave1_regs (m : Memory) : (s.setWave1 m).regs = s.regs := rfl
@[simp] theorem setWave1_wave0 (m : Memory) : (s.setWave1 m).wave0 = s.wave0 := rfl
@[simp] theorem setWave1_wave1 (m : Memory) : (s.setWave1 m).wave1 = m := rfl
@[simp] theorem setWave1_matrix (m : Memory) : (s.setWave1 m).matrix = s.matrix := rfl
@[simp] theorem setWave1_point (m : Memory) : (s.setWave1 m).point = s.point := rfl
@[simp] theorem setWave1_point2 (m : Memory) : (s.setWave1 m).point2 = s.point2 := rfl
@[simp] theorem setWave1_fifo (m : Memory) : (s.setWave1 m).fifo = s.fifo := rfl
@[simp] theorem setWave1_clip (m : Memory) : (s.setWave1 m).clip = s.clip := rfl
@[simp] theorem setWave1_yscale (m : Memory) : (s.setWave1 m).yscale = s.yscale := rfl
@[simp] theorem setWave1_renderbase (m : Memory) : (s.setWave1 m).renderbase = s.renderbase := rfl
@[simp] theorem setWave1_texbase (m : Memory) : (s.setWave1 m).texbase = s.texbase := rfl
@[simp] theorem setWave1_quadSize (m : Memory) : (s.setWave1 m).quadSize = s.quadSize := rfl
@[simp] theorem setWave1_zbase (m : Memory) : (s.setWave1 m).zbase = s.zbase := rfl
@[simp] theorem setWave1_texwidthPrev (m : Memory) : (s.setWave1 m).texwidthPrev = s.texwidthPrev := rfl
@[simp] theorem setWave1_irqFifo (m : Memory) : (s.setWave1 m).irqFifo = s.irqFifo := rfl
@[simp] theorem setWave1_irqVblank (m : Memory) : (s.setWave1 m).irqVblank = s.irqVblank := rfl
@[simp] theorem setWave1_tFifo (m : Memory) : (s.setWave1 m).tFifo = s.tFifo := rfl
@[simp] theorem setWave1_tVblOn (m : Memory) : (s.setWave1 m).tVblOn = s.tVblOn := rfl
@[simp] theorem setWave1_tVblOff (m : Memory) : (s.setWave1 m).tVblOff = s.tVblOff := rfl
@[simp] theorem setWave1_fail (m : Memory) : (s.setWave1 m).fail = s.fail := rfl
@[simp] theorem setWave1_seenCodes (m : Memory) : (s.setWave1 m).seenCodes = s.seenCodes := rfl
@[simp] theorem setWave1_walker (m : Memory) : (s.setWave1 m).walker = s.walker := rfl
@[simp] theorem setWave1_phase (m : Memory) : (s.setWave1 m).phase = s.phase := rfl
@[simp] theorem setWave1_inputs (m : Memory) : (s.setWave1 m).inputs = s.inputs := rfl
@[simp] theorem setWave1_outputs (m : Memory) : (s.setWave1 m).outputs = s.outputs := rfl
@[simp] theorem setWave1_debugToggle (m : Memory) : (s.setWave1 m).debugToggle = s.debugToggle := rfl
@[simp] theorem setWave1_freeIndex (m : Memory) : (s.setWave1 m).freeIndex = s.freeIndex := rfl

/-! ### setMatrix -/

@[simp] theorem setMatrix_regs (m : Mat3 F) : (s.setMatrix m).regs = s.regs := rfl
@[simp] theorem setMatrix_wave0 (m : Mat3 F) : (s.setMatrix m).wave0 = s.wave0 := rfl
@[simp] theorem setMatrix_wave1 (m : Mat3 F) : (s.setMatrix m).wave1 = s.wave1 := rfl
@[simp] theorem setMatrix_matrix (m : Mat3 F) : (s.setMatrix m).matrix = m := rfl
@[simp] theorem setMatrix_point (m : Mat3 F) : (s.setMatrix m).point = s.point := rfl
@[simp] theorem setMatrix_point2 (m : Mat3 F) : (s.setMatrix m).point2 = s.point2 := rfl
@[simp] theorem setMatrix_fifo (m : Mat3 F) : (s.setMatrix m).fifo = s.fifo := rfl
@[simp] theorem setMatrix_clip (m : Mat3 F) : (s.setMatrix m).clip = s.clip := rfl
@[simp] theorem setMatrix_yscale (m : Mat3 F) : (s.setMatrix m).yscale = s.yscale := rfl
@[simp] theorem setMatrix_renderbase (m : Mat3 F) : (s.setMatrix m).renderbase = s.renderbase := rfl
@[simp] theorem setMatrix_texbase (m : Mat3 F) : (s.setMatrix m).texbase = s.texbase := rfl
@[simp] theorem setMatrix_quadSize (m : Mat3 F) : (s.setMatrix m).quadSize = s.quadSize := rfl
@[simp] theorem setMatrix_zbase (m : Mat3 F) : (s.setMatrix m).zbase = s.zbase := rfl
@[simp] theorem setMatrix_texwidthPrev (m : Mat3 F) : (s.setMatrix m).texwidthPrev = s.texwidthPrev := rfl
@[simp] theorem setMatrix_irqFifo (m : Mat3 F) : (s.setMatrix m).irqFifo = s.irqFifo := rfl
@[simp] theorem setMatrix_irqVblank (m : Mat3 F) : (s.setMatrix m).irqVblank = s.irqVblank := rfl
@[simp] theorem setMatrix_tFifo (m : Mat3 F) : (s.setMatrix m).tFifo = s.tFifo := rfl
@[simp] theorem setMatrix_tVblOn (m : Mat3 F) : (s.setMatrix m).tVblOn = s.tVblOn := rfl
@[simp] theorem setMatrix_tVblOff (m : Mat3 F) : (s.setMatrix m).tVblOff = s.tVblOff := rfl
@[simp] theorem setMatrix_fail (m : Mat3 F) : (s.setMatrix m).fail = s.fail := rfl
@[simp] theorem setMatrix_seenCodes (m : Mat3 F) : (s.setMatrix m).seenCodes = s.seenCodes := rfl
@[simp] theorem setMatrix_walker (m : Mat3 F) : (s.setMatrix m).walker = s.walker := rfl
@[simp] theorem setMatrix_phase (m : Mat3 F) : (s.setMatrix m).phase = s.phase := rfl
@[simp] theorem setMatrix_inputs (m : Mat3 F) : (s.setMatrix m).inputs = s.inputs := rfl
@[simp] theorem setMatrix_outputs (m : Mat3 F) : (s.setMatrix m).outputs = s.outputs := rfl
@[simp] theorem setMatrix_debugToggle (m : Mat3 F) : (s.setMatrix m).debugToggle = s.debugToggle := rfl
@[simp] theorem setMatrix_freeIndex (m : Mat3 F) : (s.setMatrix m).freeIndex = s.freeIndex := rfl

/-! ### setPoint -/

@[simp] theorem setPoint_regs (p : Vec3 F) : (s.setPoint p).regs = s.regs := rfl
@[simp] theorem setPoint_wave0 (p : Vec3 F) : (s.setPoint p).wave0 = s.wave0 := rfl
@[simp] theorem setPoint_wave1 (p : Vec3 F) : (s.setPoint p).wave1 = s.wave1 := rfl
@[simp] theorem setPoint_matrix (p : Vec3 F) : (s.setPoint p).matrix = s.matrix := rfl
@[simp] theorem setPoint_point (p : Vec3 F) : (s.setPoint p).point = p := rfl
@[simp] theorem setPoint_point2 (p : Vec3 F) : (s.setPoint p).point2 = s.point2 := rfl
@[simp] theorem setPoint_fifo (p : Vec3 F) : (s.setPoint p).fifo = s.fifo := rfl
@[simp] theorem setPoint_clip (p : Vec3 F) : (s.setPoint p).clip = s.clip := rfl
@[simp] theorem setPoint_yscale (p : Vec3 F) : (s.setPoint p).yscale = s.yscale := rfl
@[simp] theorem setPoint_renderbase (p : Vec3 F) : (s.setPoint p).renderbase = s.renderbase := rfl
@[simp] theorem setPoint_texbase (p : Vec3 F) : (s.setPoint p).texbase = s.texbase := rfl
@[simp] theorem setPoint_quadSize (p : Vec3 F) : (s.setPoint p).quadSize = s.quadSize := rfl
@[simp] theorem setPoint_zbase (p : Vec3 F) : (s.setPoint p).zbase = s.zbase := rfl
@[simp] theorem setPoint_texwidthPrev (p : Vec3 F) : (s.setPoint p).texwidthPrev = s.texwidthPrev := rfl
@[simp] theorem setPoint_irqFifo (p : Vec3 F) : (s.setPoint p).irqFifo = s.irqFifo := rfl
@[simp] theorem setPoint_irqVblank (p : Vec3 F) : (s.setPoint p).irqVblank = s.irqVblank := rfl
@[simp] theorem setPoint_tFifo (p : Vec3 F) : (s.setPoint p).tFifo = s.tFifo := rfl
@[simp] theorem setPoint_tVblOn (p : Vec3 F) : (s.setPoint p).tVblOn = s.tVblOn := rfl
@[simp] theorem setPoint_tVblOff (p : Vec3 F) : (s.setPoint p).tVblOff = s.tVblOff := rfl
@[simp] theorem setPoint_fail (p : Vec3 F) : (s.setPoint p).fail = s.fail := rfl
@[simp] theorem setPoint_seenCodes (p : Vec3 F) : (s.setPoint p).seenCodes = s.seenCodes := rfl
@[simp] theorem setPoint_walker (p : Vec3 F) : (s.setPoint p).walker = s.walker := rfl
@[simp] theorem setPoint_phase (p : Vec3 F) : (s.setPoint p).phase = s.phase := rfl
@[simp] theorem setPoint_inputs (p : Vec3 F) : (s.setPoint p).inputs = s.inputs := rfl
@[simp] theorem setPoint_outputs (p : Vec3 F) : (s.setPoint p).outputs = s.outputs := rfl
@[simp] theorem setPoint_debugToggle (p : Vec3 F) : (s.setPoint p).debugToggle = s.debugToggle := rfl
@[simp] theorem setPoint_freeIndex (p : Vec3 F) : (s.setPoint p).freeIndex = s.freeIndex := rfl

/-! ### setPoint2 -/

@[simp] theorem setPoint2_regs (p : Vec3 F) : (s.setPoint2 p).regs = s.regs := rfl
@[simp] theorem setPoint2_wave0 (p : Vec3 F) : (s.setPoint2 p).wave0 = s.wave0 := rfl
@[simp] theorem setPoint2_wave1 (p : Vec3 F) : (s.setPoint2 p).wave1 = s.wave1 := rfl
@[simp] theorem setPoint2_matrix (p : Vec3 F) : (s.setPoint2 p).matrix = s.matrix := rfl
@[simp] theorem setPoint2_point (p : Vec3 F) : (s.setPoint2 p).point = s.point := rfl
@[simp] theorem setPoint2_point2 (p : Vec3 F) : (s.setPoint2 p).point2 = p := rfl
@[simp] theorem setPoint2_fifo (p : Vec3 F) : (s.setPoint2 p).fifo = s.fifo := rfl
@[simp] theorem setPoint2_clip (p : Vec3 F) : (s.setPoint2 p).clip = s.clip := rfl
@[simp] theorem setPoint2_yscale (p : Vec3 F) : (s.setPoint2 p).yscale = s.yscale := rfl
@[simp] theorem setPoint2_renderbase (p : Vec3 F) : (s.setPoint2 p).renderbase = s.renderbase := rfl
@[simp] theorem setPoint2_texbase (p : Vec3 F) : (s.setPoint2 p).texbase = s.texbase := rfl
@[simp] theorem setPoint2_quadSize (p : Vec3 F) : (s.setPoint2 p).quadSize = s.quadSize := rfl
@[simp] theorem setPoint2_zbase (p : Vec3 F) : (s.setPoint2 p).zbase = s.zbase := rfl
@[simp] theorem setPoint2_texwidthPrev (p : Vec3 F) : (s.setPoint2 p).texwidthPrev = s.texwidthPrev := rfl
@[simp] theorem setPoint2_irqFifo (p : Vec3 F) : (s.setPoint2 p).irqFifo = s.irqFifo := rfl
@[simp] theorem setPoint2_irqVblank (p : Vec3 F) : (s.setPoint2 p).irqVblank = s.irqVblank := rfl
@[simp] theorem setPoint2_tFifo (p : Vec3 F) : (s.setPoint2 p).tFifo = s.tFifo := rfl
@[simp] theorem setPoint2_tVblOn (p : Vec3 F) : (s.setPoint2 p).tVblOn = s.tVblOn := rfl
@[simp] theorem setPoint2_tVblOff (p : Vec3 F) : (s.setPoint2 p).tVblOff = s.tVblOff := rfl
@[simp] theorem setPoint2_fail (p : Vec3 F) : (s.setPoint2 p).fail = s.fail := rfl
@[simp] theorem setPoint2_seenCodes (p : Vec3 F) : (s.setPoint2 p).seenCodes = s.seenCodes := rfl
@[simp] theorem setPoint2_walker (p : Vec3 F) : (s.setPoint2 p).walker = s.walker := rfl
@[simp] theorem setPoint2_phase (p : Vec3 F) : (s.setPoint2 p).phase = s.phase := rfl
@[simp] theorem setPoint2_inputs (p : Vec3 F) : (s.setPoint2 p).inputs = s.inputs := rfl
@[simp] theorem setPoint2_outputs (p : Vec3 F) : (s.setPoint2 p).outputs = s.outputs := rfl
@[simp] theorem setPoint2_debugToggle (p : Vec3 F) : (s.setPoint2 p).debugToggle = s.debugToggle := rfl
@[simp] theorem setPoint2_freeIndex (p : Vec3 F) : (s.setPoint2 p).freeIndex = s.freeIndex := rfl

/-! ### setFifo -/

@[simp] theorem setFifo_regs (ws : List Word) : (s.setFifo ws).regs = s.regs := rfl
@[simp] theorem setFifo_wave0 (ws : List Word) : (s.setFifo ws).wave0 = s.wave0 := rfl
@[simp] theorem setFifo_wave1 (ws : List Word) : (s.setFifo ws).wave1 = s.wave1 := rfl
@[simp] theorem setFifo_matrix (ws : List Word) : (s.setFifo ws).matrix = s.matrix := rfl
@[simp] theorem setFifo_point (ws : List Word) : (s.setFifo ws).point = s.point := rfl
@[simp] theorem setFifo_point2 (ws : List Word) : (s.setFifo ws).point2 = s.point2 := rfl
@[simp] theorem setFifo_fifo (ws : List Word) : (s.setFifo ws).fifo = ws := rfl
@[simp] theorem setFifo_clip (ws : List Word) : (s.setFifo ws).clip = s.clip := rfl
@[simp] theorem setFifo_yscale (ws : List Word) : (s.setFifo ws).yscale = s.yscale := rfl
@[simp] theorem setFifo_renderbase (ws : List Word) : (s.setFifo ws).renderbase = s.renderbase := rfl
@[simp] theorem setFifo_texbase (ws : List Word) : (s.setFifo ws).texbase = s.texbase := rfl
@[simp] theorem setFifo_quadSize (ws : List Word) : (s.setFifo ws).quadSize = s.quadSize := rfl
@[simp] theorem setFifo_zbase (ws : List Word) : (s.setFifo ws).zbase = s.zbase := rfl
@[simp] theorem setFifo_texwidthPrev (ws : List Word) : (s.setFifo ws).texwidthPrev = s.texwidthPrev := rfl
@[simp] theorem setFifo_irqFifo (ws : List Word) : (s.setFifo ws).irqFifo = s.irqFifo := rfl
@[simp] theorem setFifo_irqVblank (ws : List Word) : (s.setFifo ws).irqVblank = s.irqVblank := rfl
@[simp] theorem setFifo_tFifo (ws : List Word) : (s.setFifo ws).tFifo = s.tFifo := rfl
@[simp] theorem setFifo_tVblOn (ws : List Word) : (s.setFifo ws).tVblOn = s.tVblOn := rfl
@[simp] theorem setFifo_tVblOff (ws : List Word) : (s.setFifo ws).tVblOff = s.tVblOff := rfl
@[simp] theorem setFifo_fail (ws : List Word) : (s.setFifo ws).fail = s.fail := rfl
@[simp] theorem setFifo_seenCodes (ws : List Word) : (s.setFifo ws).seenCodes = s.seenCodes := rfl
@[simp] theorem setFifo_walker (ws : List Word) : (s.setFifo ws).walker = s.walker := rfl
@[simp] theorem setFifo_phase (ws : List Word) : (s.setFifo ws).phase = s.phase := rfl
@[simp] theorem setFifo_inputs (ws : List Word) : (s.setFifo ws).inputs = s.inputs := rfl
@[simp] theorem setFifo_outputs (ws : List Word) : (s.setFifo ws).outputs = s.outputs := rfl
@[simp] theorem setFifo_debugToggle (ws : List Word) : (s.setFifo ws).debugToggle = s.debugToggle := rfl
@[simp] theorem setFifo_freeIndex (ws : List Word) : (s.setFifo ws).freeIndex = s.freeIndex := rfl

/-! ### setScreen -/

@[simp] theorem setScreen_regs (c : Rect) (y : Bool) : (s.setScreen c y).regs = s.regs := rfl
@[simp] theorem setScreen_wave0 (c : Rect) (y : Bool) : (s.setScreen c y).wave0 = s.wave0 := rfl
@[simp] theorem setScreen_wave1 (c : Rect) (y : Bool) : (s.setScreen c y).wave1 = s.wave1 := rfl
@[simp] theorem setScreen_matrix (c : Rect) (y : Bool) : (s.setScreen c y).matrix = s.matrix := rfl
@[simp] theorem setScreen_point (c : Rect) (y : Bool) : (s.setScreen c y).point = s.point := rfl
@[simp] theorem setScreen_point2 (c : Rect) (y : Bool) : (s.setScreen c y).point2 = s.point2 := rfl
@[simp] theorem setScreen_fifo (c : Rect) (y : Bool) : (s.setScreen c y).fifo = s.fifo := rfl
@[simp] theorem setScreen_clip (c : Rect) (y : Bool) : (s.setScreen c y).clip = some c := rfl
@[simp] theorem setScreen_yscale (c : Rect) (y : Bool) : (s.setScreen c y).yscale = y := rfl
@[simp] theorem setScreen_renderbase (c : Rect) (y : Bool) : (s.setScreen c y).renderbase = s.renderbase := rfl
@[simp] theorem setScreen_texbase (c : Rect) (y : Bool) : (s.setScreen c y).texbase = s.texbase := rfl
@[simp] theorem setScreen_quadSize (c : Rect) (y : Bool) : (s.setScreen c y).quadSize = s.quadSize := rfl
@[simp] theorem setScreen_zbase (c : Rect) (y : Bool) : (s.setScreen c y).zbase = s.zbase := rfl
@[simp] theorem setScreen_texwidthPrev (c : Rect) (y : Bool) : (s.setScreen c y).texwidthPrev = s.texwidthPrev := rfl
@[simp] theorem setScreen_irqFifo (c : Rect) (y : Bool) : (s.setScreen c y).irqFifo = s.irqFifo := rfl
@[simp] theorem setScreen_irqVblank (c : Rect) (y : Bool) : (s.setScreen c y).irqVblank = s.irqVblank := rfl
@[simp] theorem setScreen_tFifo (c : Rect) (y : Bool) : (s.setScreen c y).tFifo = s.tFifo := rfl
@[simp] theorem setScreen_tVblOn (c : Rect) (y : Bool) : (s.setScreen c y).tVblOn = s.tVblOn := rfl
@[simp] theorem setScreen_tVblOff (c : Rect) (y : Bool) : (s.setScreen c y).tVblOff = s.tVblOff := rfl
@[simp] theorem setScreen_fail (c : Rect) (y : Bool) : (s.setScreen c y).fail = s.fail := rfl
@[simp] theorem setScreen_seenCodes (c : Rect) (y : Bool) : (s.setScreen c y).seenCodes = s.seenCodes := rfl
@[simp] theorem setScreen_walker (c : Rect) (y : Bool) : (s.setScreen c y).walker = s.walker := rfl
@[simp] theorem setScreen_phase (c : Rect) (y : Bool) : (s.setScreen c y).phase = s.phase := rfl
@[simp] theorem setScreen_inputs (c : Rect) (y : Bool) : (s.setScreen c y).inputs = s.inputs := rfl
@[simp] theorem setScreen_outputs (c : Rect) (y : Bool) : (s.setScreen c y).outputs = s.outputs := rfl
@[simp] theorem setScreen_debugToggle (c : Rect) (y : Bool) : (s.setScreen c y).debugToggle = s.debugToggle := rfl
@[simp] theorem setScreen_freeIndex (c : Rect) (y : Bool) : (s.setScreen c y).freeIndex = s.freeIndex := rfl

/-! ### setRenderbase -/

@[simp] theorem setRenderbase_regs (p : Nat) : (s.setRenderbase p).regs = s.regs := rfl
@[simp] theorem setRenderbase_wave0 (p : Nat) : (s.setRenderbase p).wave0 = s.wave0 := rfl
@[simp] theorem setRenderbase_wave1 (p : Nat) : (s.setRenderbase p).wave1 = s.wave1 := rfl
@[simp] theorem setRenderbase_matrix (p : Nat) : (s.setRenderbase p).matrix = s.matrix := rfl
@[simp] theorem setRenderbase_point (p : Nat) : (s.setRenderbase p).point = s.point := rfl
@[simp] theorem setRenderbase_point2 (p : Nat) : (s.setRenderbase p).point2 = s.point2 := rfl
@[simp] theorem setRenderbase_fifo (p : Nat) : (s.setRenderbase p).fifo = s.fifo := rfl
@[simp] theorem setRenderbase_clip (p : Nat) : (s.setRenderbase p).clip = s.clip := rfl
@[simp] theorem setRenderbase_yscale (p : Nat) : (s.setRenderbase p).yscale = s.yscale := rfl
@[simp] theorem setRenderbase_renderbase (p : Nat) : (s.setRenderbase p).renderbase = p := rfl
@[simp] theorem setRenderbase_texbase (p : Nat) : (s.setRenderbase p).texbase = s.texbase := rfl
@[simp] theorem setRenderbase_quadSize (p : Nat) : (s.setRenderbase p).quadSize = s.quadSize := rfl
@[simp] theorem setRenderbase_zbase (p : Nat) : (s.setRenderbase p).zbase = s.zbase := rfl
@[simp] theorem setRenderbase_texwidthPrev (p : Nat) : (s.setRenderbase p).texwidthPrev = s.texwidthPrev := rfl
@[simp] theorem setRenderbase_irqFifo (p : Nat) : (s.setRenderbase p).irqFifo = s.irqFifo := rfl
@[simp] theorem setRenderbase_irqVblank (p : Nat) : (s.setRenderbase p).irqVblank = s.irqVblank := rfl
@[simp] theorem setRenderbase_tFifo (p : Nat) : (s.setRenderbase p).tFifo = s.tFifo := rfl
@[simp] theorem setRenderbase_tVblOn (p : Nat) : (s.setRenderbase p).tVblOn = s.tVblOn := rfl
@[simp] theorem setRenderbase_tVblOff (p : Nat) : (s.setRenderbase p).tVblOff = s.tVblOff := rfl
@[simp] theorem setRenderbase_fail (p : Nat) : (s.setRenderbase p).fail = s.fail := rfl
@[simp] theorem setRenderbase_seenCodes (p : Nat) : (s.setRenderbase p).seenCodes = s.seenCodes := rfl
@[simp] theorem setRenderbase_walker (p : Nat) : (s.setRenderbase p).walker = s.walker := rfl
@[simp] theorem setRenderbase_phase (p : Nat) : (s.setRenderbase p).phase = s.phase := rfl
@[simp] theorem setRenderbase_inputs (p : Nat) : (s.setRenderbase p).inputs = s.inputs := rfl
@[simp] theorem setRenderbase_outputs (p : Nat) : (s.setRenderbase p).outputs = s.outputs := rfl
@[simp] theorem setRenderbase_debugToggle (p : Nat) : (s.setRenderbase p).debugToggle = s.debugToggle := rfl
@[simp] theorem setRenderbase_freeIndex (p : Nat) : (s.setRenderbase p).freeIndex = s.freeIndex := rfl

/-! ### setTexbase -/

@[simp] theorem setTexbase_regs (c : Nat) : (s.setTexbase c).regs = s.regs := rfl
@[simp] theorem setTexbase_wave0 (c : Nat) : (s.setTexbase c).wave0 = s.wave0 := rfl
@[simp] theorem setTexbase_wave1 (c : Nat) : (s.setTexbase c).wave1 = s.wave1 := rfl
@[simp] theorem setTexbase_matrix (c : Nat) : (s.setTexbase c).matrix = s.matrix := rfl
@[simp] theorem setTexbase_point (c : Nat) : (s.setTexbase c).point = s.point := rfl
@[simp] theorem setTexbase_point2 (c : Nat) : (s.setTexbase c).point2 = s.point2 := rfl
@[simp] theorem setTexbase_fifo (c : Nat) : (s.setTexbase c).fifo = s.fifo := rfl
@[simp] theorem setTexbase_clip (c : Nat) : (s.setTexbase c).clip = s.clip := rfl
@[simp] theorem setTexbase_yscale (c : Nat) : (s.setTexbase c).yscale = s.yscale := rfl
@[simp] theorem setTexbase_renderbase (c : Nat) : (s.setTexbase c).renderbase = s.renderbase := rfl
@[simp] theorem setTexbase_texbase (c : Nat) : (s.setTexbase c).texbase = c := rfl
@[simp] theorem setTexbase_quadSize (c : Nat) : (s.setTexbase c).quadSize = s.quadSize := rfl
@[simp] theorem setTexbase_zbase (c : Nat) : (s.setTexbase c).zbase = s.zbase := rfl
@[simp] theorem setTexbase_texwidthPrev (c : Nat) : (s.setTexbase c).texwidthPrev = s.texwidthPrev := rfl
@[simp] theorem setTexbase_irqFifo (c : Nat) : (s.setTexbase c).irqFifo = s.irqFifo := rfl
@[simp] theorem setTexbase_irqVblank (c : Nat) : (s.setTexbase c).irqVblank = s.irqVblank := rfl
@[simp] theorem setTexbase_tFifo (c : Nat) : (s.setTexbase c).tFifo = s.tFifo := rfl
@[simp] theorem setTexbase_tVblOn (c : Nat) : (s.setTexbase c).tVblOn = s.tVblOn := rfl
@[simp] theorem setTexbase_tVblOff (c : Nat) : (s.setTexbase c).tVblOff = s.tVblOff := rfl
@[simp] theorem setTexbase_fail (c : Nat) : (s.setTexbase c).fail = s.fail := rfl
@[simp] theorem setTexbase_seenCodes (c : Nat) : (s.setTexbase c).seenCodes = s.seenCodes := rfl
@[simp] theorem setTexbase_walker (c : Nat) : (s.setTexbase c).walker = s.walker := rfl
@[simp] theorem setTexbase_phase (c : Nat) : (s.setTexbase c).phase = s.phase := rfl
@[simp] theorem setTexbase_inputs (c : Nat) : (s.setTexbase c).inputs = s.inputs := rfl
@[simp] theorem setTexbase_outputs (c : Nat) : (s.setTexbase c).outputs = s.outputs := rfl
@[simp] theorem setTexbase_debugToggle (c : Nat) : (s.setTexbase c).debugToggle = s.debugToggle := rfl
@[simp] theorem setTexbase_freeIndex (c : Nat) : (s.setTexbase c).freeIndex = s.freeIndex := rfl

/-! ### setQuadSize -/

@[simp] theorem setQuadSize_regs (f : Framing) : (s.setQuadSize f).regs = s.regs := rfl
@[simp] theorem setQuadSize_wave0 (f : Framing) : (s.setQuadSize f).wave0 = s.wave0 := rfl
@[simp] theorem setQuadSize_wave1 (f : Framing) : (s.setQuadSize f).wave1 = s.wave1 := rfl
@[simp] theorem setQuadSize_matrix (f : Framing) : (s.setQuadSize f).matrix = s.matrix := rfl
@[simp] theorem setQuadSize_point (f : Framing) : (s.setQuadSize f).point = s.point := rfl
@[simp] theorem setQuadSize_point2 (f : Framing) : (s.setQuadSize f).point2 = s.point2 := rfl
@[simp] theorem setQuadSize_fifo (f : Framing) : (s.setQuadSize f).fifo = s.fifo := rfl
@[simp] theorem setQuadSize_clip (f : Framing) : (s.setQuadSize f).clip = s.clip := rfl
@[simp] theorem setQuadSize_yscale (f : Framing) : (s.setQuadSize f).yscale = s.yscale := rfl
@[simp] theorem setQuadSize_renderbase (f : Framing) : (s.setQuadSize f).renderbase = s.renderbase := rfl
@[simp] theorem setQuadSize_texbase (f : Framing) : (s.setQuadSize f).texbase = s.texbase := rfl
@[simp] theorem setQuadSize_quadSize (f : Framing) : (s.setQuadSize f).quadSize = f := rfl
@[simp] theorem setQuadSize_zbase (f : Framing) : (s.setQuadSize f).zbase = s.zbase := rfl
@[simp] theorem setQuadSize_texwidthPrev (f : Framing) : (s.setQuadSize f).texwidthPrev = s.texwidthPrev := rfl
@[simp] theorem setQuadSize_irqFifo (f : Framing) : (s.setQuadSize f).irqFifo = s.irqFifo := rfl
@[simp] theorem setQuadSize_irqVblank (f : Framing) : (s.setQuadSize f).irqVblank = s.irqVblank := rfl
@[simp] theorem setQuadSize_tFifo (f : Framing) : (s.setQuadSize f).tFifo = s.tFifo := rfl
@[simp] theorem setQuadSize_tVblOn (f : Framing) : (s.setQuadSize f).tVblOn = s.tVblOn := rfl
@[simp] theorem setQuadSize_tVblOff (f : Framing) : (s.setQuadSize f).tVblOff = s.tVblOff := rfl
@[simp] theorem setQuadSize_fail (f : Framing) : (s.setQuadSize f).fail = s.fail := rfl
@[simp] theorem setQuadSize_seenCodes (f : Framing) : (s.setQuadSize f).seenCodes = s.seenCodes := rfl
@[simp] theorem setQuadSize_walker (f : Framing) : (s.setQuadSize f).walker = s.walker := rfl
@[simp] theorem setQuadSize_phase (f : Framing) : (s.setQuadSize f).phase = s.phase := rfl
@[simp] theorem setQuadSize_inputs (f : Framing) : (s.setQuadSize f).inputs = s.inputs := rfl
@[simp] theorem setQuadSize_outputs (f : Framing) : (s.setQuadSize f).outputs = s.outputs := rfl
@[simp] theorem setQuadSize_debugToggle (f : Framing) : (s.setQuadSize f).debugToggle = s.debugToggle := rfl
@[simp] theorem setQuadSize_freeIndex (f : Framing) : (s.setQuadSize f).freeIndex = s.freeIndex := rfl

/-! ### setZbase -/

@[simp] theorem setZbase_regs (z : F) : (s.setZbase z).regs = s.regs := rfl
@[simp] theorem setZbase_wave0 (z : F) : (s.setZbase z).wave0 = s.wave0 := rfl
@[simp] theorem setZbase_wave1 (z : F) : (s.setZbase z).wave1 = s.wave1 := rfl
@[simp] theorem setZbase_matrix (z : F) : (s.setZbase z).matrix = s.matrix := rfl
@[simp] theorem setZbase_point (z : F) : (s.setZbase z).point = s.point := rfl
@[simp] theorem setZbase_point2 (z : F) : (s.setZbase z).point2 = s.point2 := rfl
@[simp] theorem setZbase_fifo (z : F) : (s.setZbase z).fifo = s.fifo := rfl
@[simp] theorem setZbase_clip (z : F) : (s.setZbase z).clip = s.clip := rfl
@[simp] theorem setZbase_yscale (z : F) : (s.setZbase z).yscale = s.yscale := rfl
@[simp] theorem setZbase_renderbase (z : F) : (s.setZbase z).renderbase = s.renderbase := rfl
@[simp] theorem setZbase_texbase (z : F) : (s.setZbase z).texbase = s.texbase := rfl
@[simp] theorem setZbase_quadSize (z : F) : (s.setZbase z).quadSize = s.quadSize := rfl
@[simp] theorem setZbase_zbase (z : F) : (s.setZbase z).zbase = z := rfl
@[simp] theorem setZbase_texwidthPrev (z : F) : (s.setZbase z).texwidthPrev = s.texwidthPrev := rfl
@[simp] theorem setZbase_irqFifo (z : F) : (s.setZbase z).irqFifo = s.irqFifo := rfl
@[simp] theorem setZbase_irqVblank (z : F) : (s.setZbase z).irqVblank = s.irqVblank := rfl
@[simp] theorem setZbase_tFifo (z : F) : (s.setZbase z).tFifo = s.tFifo := rfl
@[simp] theorem setZbase_tVblOn (z : F) : (s.setZbase z).tVblOn = s.tVblOn := rfl
@[simp] theorem setZbase_tVblOff (z : F) : (s.setZbase z).tVblOff = s.tVblOff := rfl
@[simp] theorem setZbase_fail (z : F) : (s.setZbase z).fail = s.fail := rfl
@[simp] theorem setZbase_seenCodes (z : F) : (s.setZbase z).seenCodes = s.seenCodes := rfl
@[simp] theorem setZbase_walker (z : F) : (s.setZbase z).walker = s.walker := rfl
@[simp] theorem setZbase_phase (z : F) : (s.setZbase z).phase = s.phase := rfl
@[simp] theorem setZbase_inputs (z : F) : (s.setZbase z).inputs = s.inputs := rfl
@[simp] theorem setZbase_outputs (z : F) : (s.setZbase z).outputs = s.outputs := rfl
@[simp] theorem setZbase_debugToggle (z : F) : (s.setZbase z).debugToggle = s.debugToggle := rfl
@[simp] theorem setZbase_freeIndex (z : F) : (s.setZbase z).freeIndex = s.freeIndex := rfl

/-! ### setTexwidthPrev -/

@[simp] theorem setTexwidthPrev_regs (w : TexWidth) : (s.setTexwidthPrev w).regs = s.regs := rfl
@[simp] theorem setTexwidthPrev_wave0 (w : TexWidth) : (s.setTexwidthPrev w).wave0 = s.wave0 := rfl
@[simp] theorem setTexwidthPrev_wave1 (w : TexWidth) : (s.setTexwidthPrev w).wave1 = s.wave1 := rfl
@[simp] theorem setTexwidthPrev_matrix (w : TexWidth) : (s.setTexwidthPrev w).matrix = s.matrix := rfl
@[simp] theorem setTexwidthPrev_point (w : TexWidth) : (s.setTexwidthPrev w).point = s.point := rfl
@[simp] theorem setTexwidthPrev_point2 (w : TexWidth) : (s.setTexwidthPrev w).point2 = s.point2 := rfl
@[simp] theorem setTexwidthPrev_fifo (w : TexWidth) : (s.setTexwidthPrev w).fifo = s.fifo := rfl
@[simp] theorem setTexwidthPrev_clip (w : TexWidth) : (s.setTexwidthPrev w).clip = s.clip := rfl
@[simp] theorem setTexwidthPrev_yscale (w : TexWidth) : (s.setTexwidthPrev w).yscale = s.yscale := rfl
@[simp] theorem setTexwidthPrev_renderbase (w : TexWidth) : (s.setTexwidthPrev w).renderbase = s.renderbase := rfl
@[simp] theorem setTexwidthPrev_texbase (w : TexWidth) : (s.setTexwidthPrev w).texbase = s.texbase := rfl
@[simp] theorem setTexwidthPrev_quadSize (w : TexWidth) : (s.setTexwidthPrev w).quadSize = s.quadSize := rfl
@[simp] theorem setTexwidthPrev_zbase (w : TexWidth) : (s.setTexwidthPrev w).zbase = s.zbase := rfl
@[simp] theorem setTexwidthPrev_texwidthPrev (w : TexWidth) : (s.setTexwidthPrev w).texwidthPrev = some w := rfl
@[simp] theorem setTexwidthPrev_irqFifo (w : TexWidth) : (s.setTexwidthPrev w).irqFifo = s.irqFifo := rfl
@[simp] theorem setTexwidthPrev_irqVblank (w : TexWidth) : (s.setTexwidthPrev w).irqVblank = s.irqVblank := rfl
@[simp] theorem setTexwidthPrev_tFifo (w : TexWidth) : (s.setTexwidthPrev w).tFifo = s.tFifo := rfl
@[simp] theorem setTexwidthPrev_tVblOn (w : TexWidth) : (s.setTexwidthPrev w).tVblOn = s.tVblOn := rfl
@[simp] theorem setTexwidthPrev_tVblOff (w : TexWidth) : (s.setTexwidthPrev w).tVblOff = s.tVblOff := rfl
@[simp] theorem setTexwidthPrev_fail (w : TexWidth) : (s.setTexwidthPrev w).fail = s.fail := rfl
@[simp] theorem setTexwidthPrev_seenCodes (w : TexWidth) : (s.setTexwidthPrev w).seenCodes = s.seenCodes := rfl
@[simp] theorem setTexwidthPrev_walker (w : TexWidth) : (s.setTexwidthPrev w).walker = s.walker := rfl
@[simp] theorem setTexwidthPrev_phase (w : TexWidth) : (s.setTexwidthPrev w).phase = s.phase := rfl
@[simp] theorem setTexwidthPrev_inputs (w : TexWidth) : (s.setTexwidthPrev w).inputs = s.inputs := rfl
@[simp] theorem setTexwidthPrev_outputs (w : TexWidth) : (s.setTexwidthPrev w).outputs = s.outputs := rfl
@[simp] theorem setTexwidthPrev_debugToggle (w : TexWidth) : (s.setTexwidthPrev w).debugToggle = s.debugToggle := rfl
@[simp] theorem setTexwidthPrev_freeIndex (w : TexWidth) : (s.setTexwidthPrev w).freeIndex = s.freeIndex := rfl

/-! ### setFifoTimer -/

@[simp] theorem setFifoTimer_regs (t : TimerState) : (s.setFifoTimer t).regs = s.regs := rfl
@[simp] theorem setFifoTimer_wave0 (t : TimerState) : (s.setFifoTimer t).wave0 = s.wave0 := rfl
@[simp] theorem setFifoTimer_wave1 (t : TimerState) : (s.setFifoTimer t).wave1 = s.wave1 := rfl
@[simp] theorem setFifoTimer_matrix (t : TimerState) : (s.setFifoTimer t).matrix = s.matrix := rfl
@[simp] theorem setFifoTimer_point (t : TimerState) : (s.setFifoTimer t).point = s.point := rfl
@[simp] theorem setFifoTimer_point2 (t : TimerState) : (s.setFifoTimer t).point2 = s.point2 := rfl
@[simp] theorem setFifoTimer_fifo (t : TimerState) : (s.setFifoTimer t).fifo = s.fifo := rfl
@[simp] theorem setFifoTimer_clip (t : TimerState) : (s.setFifoTimer t).clip = s.clip := rfl
@[simp] theorem setFifoTimer_yscale (t : TimerState) : (s.setFifoTimer t).yscale = s.yscale := rfl
@[simp] theorem setFifoTimer_renderbase (t : TimerState) : (s.setFifoTimer t).renderbase = s.renderbase := rfl
@[simp] theorem setFifoTimer_texbase (t : TimerState) : (s.setFifoTimer t).texbase = s.texbase := rfl
@[simp] theorem setFifoTimer_quadSize (t : TimerState) : (s.setFifoTimer t).quadSize = s.quadSize := rfl
@[simp] theorem setFifoTimer_zbase (t : TimerState) : (s.setFifoTimer t).zbase = s.zbase := rfl
@[simp] theorem setFifoTimer_texwidthPrev (t : TimerState) : (s.setFifoTimer t).texwidthPrev = s.texwidthPrev := rfl
@[simp] theorem setFifoTimer_irqFifo (t : TimerState) : (s.setFifoTimer t).irqFifo = s.irqFifo := rfl
@[simp] theorem setFifoTimer_irqVblank (t : TimerState) : (s.setFifoTimer t).irqVblank = s.irqVblank := rfl
@[simp] theorem setFifoTimer_tFifo (t : TimerState) : (s.setFifoTimer t).tFifo = t := rfl
@[simp] theorem setFifoTimer_tVblOn (t : TimerState) : (s.setFifoTimer t).tVblOn = s.tVblOn := rfl
@[simp] theorem setFifoTimer_tVblOff (t : TimerState) : (s.setFifoTimer t).tVblOff = s.tVblOff := rfl
@[simp] theorem setFifoTimer_fail (t : TimerState) : (s.setFifoTimer t).fail = s.fail := rfl
@[simp] theorem setFifoTimer_seenCodes (t : TimerState) : (s.setFifoTimer t).seenCodes = s.seenCodes := rfl
@[simp] theorem setFifoTimer_walker (t : TimerState) : (s.setFifoTimer t).walker = s.walker := rfl
@[simp] theorem setFifoTimer_phase (t : TimerState) : (s.setFifoTimer t).phase = s.phase := rfl
@[simp] theorem setFifoTimer_inputs (t : TimerState) : (s.setFifoTimer t).inputs = s.inputs := rfl
@[simp] theorem setFifoTimer_outputs (t : TimerState) : (s.setFifoTimer t).outputs = s.outputs := rfl
@[simp] theorem setFifoTimer_debugToggle (t : TimerState) : (s.setFifoTimer t).debugToggle = s.debugToggle := rfl
@[simp] theorem setFifoTimer_freeIndex (t : TimerState) : (s.setFifoTimer t).freeIndex = s.freeIndex := rfl

/-! ### fireFifo -/

@[simp] theorem fireFifo_regs : s.fireFifo.regs = s.regs := rfl
@[simp] theorem fireFifo_wave0 : s.fireFifo.wave0 = s.wave0 := rfl
@[simp] theorem fireFifo_wave1 : s.fireFifo.wave1 = s.wave1 := rfl
@[simp] theorem fireFifo_matrix : s.fireFifo.matrix = s.matrix := rfl
@[simp] theorem fireFifo_point : s.fireFifo.point = s.point := rfl
@[simp] theorem fireFifo_point2 : s.fireFifo.point2 = s.point2 := rfl
@[simp] theorem fireFifo_fifo : s.fireFifo.fifo = s.fifo := rfl
@[simp] theorem fireFifo_clip : s.fireFifo.clip = s.clip := rfl
@[simp] theorem fireFifo_yscale : s.fireFifo.yscale = s.yscale := rfl
@[simp] theorem fireFifo_renderbase : s.fireFifo.renderbase = s.renderbase := rfl
@[simp] theorem fireFifo_texbase : s.fireFifo.texbase = s.texbase := rfl
@[simp] theorem fireFifo_quadSize : s.fireFifo.quadSize = s.quadSize := rfl
@[simp] theorem fireFifo_zbase : s.fireFifo.zbase = s.zbase := rfl
@[simp] theorem fireFifo_texwidthPrev : s.fireFifo.texwidthPrev = s.texwidthPrev := rfl
@[simp] theorem fireFifo_irqFifo : s.fireFifo.irqFifo = true := rfl
@[simp] theorem fireFifo_irqVblank : s.fireFifo.irqVblank = s.irqVblank := rfl
@[simp] theorem fireFifo_tFifo : s.fireFifo.tFifo = .idle := rfl
@[simp] theorem fireFifo_tVblOn : s.fireFifo.tVblOn = s.tVblOn := rfl
@[simp] theorem fireFifo_tVblOff : s.fireFifo.tVblOff = s.tVblOff := rfl
@[simp] theorem fireFifo_fail : s.fireFifo.fail = s.fail := rfl
@[simp] theorem fireFifo_seenCodes : s.fireFifo.seenCodes = s.seenCodes := rfl
@[simp] theorem fireFifo_walker : s.fireFifo.walker = s.walker := rfl
@[simp] theorem fireFifo_phase : s.fireFifo.phase = s.phase := rfl
@[simp] theorem fireFifo_inputs : s.fireFifo.inputs = s.inputs := rfl
@[simp] theorem fireFifo_outputs : s.fireFifo.outputs = s.outputs := rfl
@[simp] theorem fireFifo_debugToggle : s.fireFifo.debugToggle = s.debugToggle := rfl
@[simp] theorem fireFifo_freeIndex : s.fireFifo.freeIndex = s.freeIndex := rfl

/-! ### fireVblOn -/

@[simp] theorem fireVblOn_regs : s.fireVblOn.regs = s.regs := rfl
@[simp] theorem fireVblOn_wave0 : s.fireVblOn.wave0 = s.wave0 := rfl
@[simp] theorem fireVblOn_wave1 : s.fireVblOn.wave1 = s.wave1 := rfl
@[simp] theorem fireVblOn_matrix : s.fireVblOn.matrix = s.matrix := rfl
@[simp] theorem fireVblOn_point : s.fireVblOn.point = s.point := rfl
@[simp] theorem fireVblOn_point2 : s.fireVblOn.point2 = s.point2 := rfl
@[simp] theorem fireVblOn_fifo : s.fireVblOn.fifo = s.fifo := rfl
@[simp] theorem fireVblOn_clip : s.fireVblOn.clip = s.clip := rfl
@[simp] theorem fireVblOn_yscale : s.fireVblOn.yscale = s.yscale := rfl
@[simp] theorem fireVblOn_renderbase : s.fireVblOn.renderbase = s.renderbase := rfl
@[simp] theorem fireVblOn_texbase : s.fireVblOn.texbase = s.texbase := rfl
@[simp] theorem fireVblOn_quadSize : s.fireVblOn.quadSize = s.quadSize := rfl
@[simp] theorem fireVblOn_zbase : s.fireVblOn.zbase = s.zbase := rfl
@[simp] theorem fireVblOn_texwidthPrev : s.fireVblOn.texwidthPrev = s.texwidthPrev := rfl
@[simp] theorem fireVblOn_irqFifo : s.fireVblOn.irqFifo = s.irqFifo := rfl
@[simp] theorem fireVblOn_irqVblank : s.fireVblOn.irqVblank = true := rfl
@[simp] theorem fireVblOn_tFifo : s.fireVblOn.tFifo = s.tFifo := rfl
@[simp] theorem fireVblOn_tVblOn : s.fireVblOn.tVblOn = .idle := rfl
@[simp] theorem fireVblOn_tVblOff : s.fireVblOn.tVblOff = .pending := rfl
@[simp] theorem fireVblOn_fail : s.fireVblOn.fail = s.fail := rfl
@[simp] theorem fireVblOn_seenCodes : s.fireVblOn.seenCodes = s.seenCodes := rfl
@[simp] theorem fireVblOn_walker : s.fireVblOn.walker = s.walker := rfl
@[simp] theorem fireVblOn_phase : s.fireVblOn.phase = s.phase := rfl
@[simp] theorem fireVblOn_inputs : s.fireVblOn.inputs = s.inputs := rfl
@[simp] theorem fireVblOn_outputs : s.fireVblOn.outputs = s.outputs := rfl
@[simp] theorem fireVblOn_debugToggle : s.fireVblOn.debugToggle = s.debugToggle := rfl
@[simp] theorem fireVblOn_freeIndex : s.fireVblOn.freeIndex = s.freeIndex := rfl

/-! ### fireVblOff -/

@[simp] theorem fireVblOff_regs : s.fireVblOff.regs = s.regs := rfl
@[simp] theorem fireVblOff_wave0 : s.fireVblOff.wave0 = s.wave0 := rfl
@[simp] theorem fireVblOff_wave1 : s.fireVblOff.wave1 = s.wave1 := rfl
@[simp] theorem fireVblOff_matrix : s.fireVblOff.matrix = s.matrix := rfl
@[simp] theorem fireVblOff_point : s.fireVblOff.point = s.point := rfl
@[simp] theorem fireVblOff_point2 : s.fireVblOff.point2 = s.point2 := rfl
@[simp] theorem fireVblOff_fifo : s.fireVblOff.fifo = s.fifo := rfl
@[simp] theorem fireVblOff_clip : s.fireVblOff.clip = s.clip := rfl
@[simp] theorem fireVblOff_yscale : s.fireVblOff.yscale = s.yscale := rfl
@[simp] theorem fireVblOff_renderbase : s.fireVblOff.renderbase = s.renderbase := rfl
@[simp] theorem fireVblOff_texbase : s.fireVblOff.texbase = s.texbase := rfl
@[simp] theorem fireVblOff_quadSize : s.fireVblOff.quadSize = s.quadSize := rfl
@[simp] theorem fireVblOff_zbase : s.fireVblOff.zbase = s.zbase := rfl
@[simp] theorem fireVblOff_texwidthPrev : s.fireVblOff.texwidthPrev = s.texwidthPrev := rfl
@[simp] theorem fireVblOff_irqFifo : s.fireVblOff.irqFifo = s.irqFifo := rfl
@[simp] theorem fireVblOff_irqVblank : s.fireVblOff.irqVblank = false := rfl
@[simp] theorem fireVblOff_tFifo : s.fireVblOff.tFifo = s.tFifo := rfl
@[simp] theorem fireVblOff_tVblOn : s.fireVblOff.tVblOn = .pending := rfl
@[simp] theorem fireVblOff_tVblOff : s.fireVblOff.tVblOff = .idle := rfl
@[simp] theorem fireVblOff_fail : s.fireVblOff.fail = s.fail := rfl
@[simp] theorem fireVblOff_seenCodes : s.fireVblOff.seenCodes = s.seenCodes := rfl
@[simp] theorem fireVblOff_walker : s.fireVblOff.walker = s.walker := rfl
@[simp] theorem fireVblOff_phase : s.fireVblOff.phase = s.phase := rfl
@[simp] theorem fireVblOff_inputs : s.fireVblOff.inputs = s.inputs := rfl
@[simp] theorem fireVblOff_outputs : s.fireVblOff.outputs = s.outputs := rfl
@[simp] theorem fireVblOff_debugToggle : s.fireVblOff.debugToggle = s.debugToggle := rfl
@[simp] theorem fireVblOff_freeIndex : s.fireVblOff.freeIndex = s.freeIndex := rfl

/-! ### setFail -/

@[simp] theorem setFail_regs (f : Fault) : (s.setFail f).regs = s.regs := rfl
@[simp] theorem setFail_wave0 (f : Fault) : (s.setFail f).wave0 = s.wave0 := rfl
@[simp] theorem setFail_wave1 (f : Fault) : (s.setFail f).wave1 = s.wave1 := rfl
@[simp] theorem setFail_matrix (f : Fault) : (s.setFail f).matrix = s.matrix := rfl
@[simp] theorem setFail_point (f : Fault) : (s.setFail f).point = s.point := rfl
@[simp] theorem setFail_point2 (f : Fault) : (s.setFail f).point2 = s.point2 := rfl
@[simp] theorem setFail_fifo (f : Fault) : (s.setFail f).fifo = s.fifo := rfl
@[simp] theorem setFail_clip (f : Fault) : (s.setFail f).clip = s.clip := rfl
@[simp] theorem setFail_yscale (f : Fault) : (s.setFail f).yscale = s.yscale := rfl
@[simp] theorem setFail_renderbase (f : Fault) : (s.setFail f).renderbase = s.renderbase := rfl
@[simp] theorem setFail_texbase (f : Fault) : (s.setFail f).texbase = s.texbase := rfl
@[simp] theorem setFail_quadSize (f : Fault) : (s.setFail f).quadSize = s.quadSize := rfl
@[simp] theorem setFail_zbase (f : Fault) : (s.setFail f).zbase = s.zbase := rfl
@[simp] theorem setFail_texwidthPrev (f : Fault) : (s.setFail f).texwidthPrev = s.texwidthPrev := rfl
@[simp] theorem setFail_irqFifo (f : Fault) : (s.setFail f).irqFifo = s.irqFifo := rfl
@[simp] theorem setFail_irqVblank (f : Fault) : (s.setFail f).irqVblank = s.irqVblank := rfl
@[simp] theorem setFail_tFifo (f : Fault) : (s.setFail f).tFifo = s.tFifo := rfl
@[simp] theorem setFail_tVblOn (f : Fault) : (s.setFail f).tVblOn = s.tVblOn := rfl
@[simp] theorem setFail_tVblOff (f : Fault) : (s.setFail f).tVblOff = s.tVblOff := rfl
@[simp] theorem setFail_fail (f : Fault) : (s.setFail f).fail = some f := rfl
@[simp] theorem setFail_seenCodes (f : Fault) : (s.setFail f).seenCodes = s.seenCodes := rfl
@[simp] theorem setFail_walker (f : Fault) : (s.setFail f).walker = s.walker := rfl
@[simp] theorem setFail_phase (f : Fault) : (s.setFail f).phase = s.phase := rfl
@[simp] theorem setFail_inputs (f : Fault) : (s.setFail f).inputs = s.inputs := rfl
@[simp] theorem setFail_outputs (f : Fault) : (s.setFail f).outputs = s.outputs := rfl
@[simp] theorem setFail_debugToggle (f : Fault) : (s.setFail f).debugToggle = s.debugToggle := rfl
@[simp] theorem setFail_freeIndex (f : Fault) : (s.setFail f).freeIndex = s.freeIndex := rfl

/-! ### setSeenCodes -/

@[simp] theorem setSeenCodes_regs (cs : List (BitVec 16)) : (s.setSeenCodes cs).regs = s.regs := rfl
@[simp] theorem setSeenCodes_wave0 (cs : List (BitVec 16)) : (s.setSeenCodes cs).wave0 = s.wave0 := rfl
@[simp] theorem setSeenCodes_wave1 (cs : List (BitVec 16)) : (s.setSeenCodes cs).wave1 = s.wave1 := rfl
@[simp] theorem setSeenCodes_matrix (cs : List (BitVec 16)) : (s.setSeenCodes cs).matrix = s.matrix := rfl
@[simp] theorem setSeenCodes_point (cs : List (BitVec 16)) : (s.setSeenCodes cs).point = s.point := rfl
@[simp] theorem setSeenCodes_point2 (cs : List (BitVec 16)) : (s.setSeenCodes cs).point2 = s.point2 := rfl
@[simp] theorem setSeenCodes_fifo (cs : List (BitVec 16)) : (s.setSeenCodes cs).fifo = s.fifo := rfl
@[simp] theorem setSeenCodes_clip (cs : List (BitVec 16)) : (s.setSeenCodes cs).clip = s.clip := rfl
@[simp] theorem setSeenCodes_yscale (cs : List (BitVec 16)) : (s.setSeenCodes cs).yscale = s.yscale := rfl
@[simp] theorem setSeenCodes_renderbase (cs : List (BitVec 16)) : (s.setSeenCodes cs).renderbase = s.renderbase := rfl
@[simp] theorem setSeenCodes_texbase (cs : List (BitVec 16)) : (s.setSeenCodes cs).texbase = s.texbase := rfl
@[simp] theorem setSeenCodes_quadSize (cs : List (BitVec 16)) : (s.setSeenCodes cs).quadSize = s.quadSize := rfl
@[simp] theorem setSeenCodes_zbase (cs : List (BitVec 16)) : (s.setSeenCodes cs).zbase = s.zbase := rfl
@[simp] theorem setSeenCodes_texwidthPrev (cs : List (BitVec 16)) : (s.setSeenCodes cs).texwidthPrev = s.texwidthPrev := rfl
@[simp] theorem setSeenCodes_irqFifo (cs : List (BitVec 16)) : (s.setSeenCodes cs).irqFifo = s.irqFifo := rfl
@[simp] theorem setSeenCodes_irqVblank (cs : List (BitVec 16)) : (s.setSeenCodes cs).irqVblank = s.irqVblank := rfl
@[simp] theorem setSeenCodes_tFifo (cs : List (BitVec 16)) : (s.setSeenCodes cs).tFifo = s.tFifo := rfl
@[simp] theorem setSeenCodes_tVblOn (cs : List (BitVec 16)) : (s.setSeenCodes cs).tVblOn = s.tVblOn := rfl
@[simp] theorem setSeenCodes_tVblOff (cs : List (BitVec 16)) : (s.setSeenCodes cs).tVblOff = s.tVblOff := rfl
@[simp] theorem setSeenCodes_fail (cs : List (BitVec 16)) : (s.setSeenCodes cs).fail = s.fail := rfl
@[simp] theorem setSeenCodes_seenCodes (cs : List (BitVec 16)) : (s.setSeenCodes cs).seenCodes = cs := rfl
@[simp] theorem setSeenCodes_walker (cs : List (BitVec 16)) : (s.setSeenCodes cs).walker = s.walker := rfl
@[simp] theorem setSeenCodes_phase (cs : List (BitVec 16)) : (s.setSeenCodes cs).phase = s.phase := rfl
@[simp] theorem setSeenCodes_inputs (cs : List (BitVec 16)) : (s.setSeenCodes cs).inputs = s.inputs := rfl
@[simp] theorem setSeenCodes_outputs (cs : List (BitVec 16)) : (s.setSeenCodes cs).outputs = s.outputs := rfl
@[simp] theorem setSeenCodes_debugToggle (cs : List (BitVec 16)) : (s.setSeenCodes cs).debugToggle = s.debugToggle := rfl
@[simp] theorem setSeenCodes_freeIndex (cs : List (BitVec 16)) : (s.setSeenCodes cs).freeIndex = s.freeIndex := rfl

/-! ### setWalker -/

@[simp] theorem setWalker_regs (w : Walker) : (s.setWalker w).regs = s.regs := rfl
@[simp] theorem setWalker_wave0 (w : Walker) : (s.setWalker w).wave0 = s.wave0 := rfl
@[simp] theorem setWalker_wave1 (w : Walker) : (s.setWalker w).wave1 = s.wave1 := rfl
@[simp] theorem setWalker_matrix (w : Walker) : (s.setWalker w).matrix = s.matrix := rfl
@[simp] theorem setWalker_point (w : Walker) : (s.setWalker w).point = s.point := rfl
@[simp] theorem setWalker_point2 (w : Walker) : (s.setWalker w).point2 = s.point2 := rfl
@[simp] theorem setWalker_fifo (w : Walker) : (s.setWalker w).fifo = s.fifo := rfl
@[simp] theorem setWalker_clip (w : Walker) : (s.setWalker w).clip = s.clip := rfl
@[simp] theorem setWalker_yscale (w : Walker) : (s.setWalker w).yscale = s.yscale := rfl
@[simp] theorem setWalker_renderbase (w : Walker) : (s.setWalker w).renderbase = s.renderbase := rfl
@[simp] theorem setWalker_texbase (w : Walker) : (s.setWalker w).texbase = s.texbase := rfl
@[simp] theorem setWalker_quadSize (w : Walker) : (s.setWalker w).quadSize = s.quadSize := rfl
@[simp] theorem setWalker_zbase (w : Walker) : (s.setWalker w).zbase = s.zbase := rfl
@[simp] theorem setWalker_texwidthPrev (w : Walker) : (s.setWalker w).texwidthPrev = s.texwidthPrev := rfl
@[simp] theorem setWalker_irqFifo (w : Walker) : (s.setWalker w).irqFifo = s.irqFifo := rfl
@[simp] theorem setWalker_irqVblank (w : Walker) : (s.setWalker w).irqVblank = s.irqVblank := rfl
@[simp] theorem setWalker_tFifo (w : Walker) : (s.setWalker w).tFifo = s.tFifo := rfl
@[simp] theorem setWalker_tVblOn (w : Walker) : (s.setWalker w).tVblOn = s.tVblOn := rfl
@[simp] theorem setWalker_tVblOff (w : Walker) : (s.setWalker w).tVblOff = s.tVblOff := rfl
@[simp] theorem setWalker_fail (w : Walker) : (s.setWalker w).fail = s.fail := rfl
@[simp] theorem setWalker_seenCodes (w : Walker) : (s.setWalker w).seenCodes = s.seenCodes := rfl
@[simp] theorem setWalker_walker (w : Walker) : (s.setWalker w).walker = w := rfl
@[simp] theorem setWalker_phase (w : Walker) : (s.setWalker w).phase = s.phase := rfl
@[simp] theorem setWalker_inputs (w : Walker) : (s.setWalker w).inputs = s.inputs := rfl
@[simp] theorem setWalker_outputs (w : Walker) : (s.setWalker w).outputs = s.outputs := rfl
@[simp] theorem setWalker_debugToggle (w : Walker) : (s.setWalker w).debugToggle = s.debugToggle := rfl
@[simp] theorem setWalker_freeIndex (w : Walker) : (s.setWalker w).freeIndex = s.freeIndex := rfl

/-! ### setPhase -/

@[simp] theorem setPhase_regs (p : Phase) : (s.setPhase p).regs = s.regs := rfl
@[simp] theorem setPhase_wave0 (p : Phase) : (s.setPhase p).wave0 = s.wave0 := rfl
@[simp] theorem setPhase_wave1 (p : Phase) : (s.setPhase p).wave1 = s.wave1 := rfl
@[simp] theorem setPhase_matrix (p : Phase) : (s.setPhase p).matrix = s.matrix := rfl
@[simp] theorem setPhase_point (p : Phase) : (s.setPhase p).point = s.point := rfl
@[simp] theorem setPhase_point2 (p : Phase) : (s.setPhase p).point2 = s.point2 := rfl
@[simp] theorem setPhase_fifo (p : Phase) : (s.setPhase p).fifo = s.fifo := rfl
@[simp] theorem setPhase_clip (p : Phase) : (s.setPhase p).clip = s.clip := rfl
@[simp] theorem setPhase_yscale (p : Phase) : (s.setPhase p).yscale = s.yscale := rfl
@[simp] theorem setPhase_renderbase (p : Phase) : (s.setPhase p).renderbase = s.renderbase := rfl
@[simp] theorem setPhase_texbase (p : Phase) : (s.setPhase p).texbase = s.texbase := rfl
@[simp] theorem setPhase_quadSize (p : Phase) : (s.setPhase p).quadSize = s.quadSize := rfl
@[simp] theorem setPhase_zbase (p : Phase) : (s.setPhase p).zbase = s.zbase := rfl
@[simp] theorem setPhase_texwidthPrev (p : Phase) : (s.setPhase p).texwidthPrev = s.texwidthPrev := rfl
@[simp] theorem setPhase_irqFifo (p : Phase) : (s.setPhase p).irqFifo = s.irqFifo := rfl
@[simp] theorem setPhase_irqVblank (p : Phase) : (s.setPhase p).irqVblank = s.irqVblank := rfl
@[simp] theorem setPhase_tFifo (p : Phase) : (s.setPhase p).tFifo = s.tFifo := rfl
@[simp] theorem setPhase_tVblOn (p : Phase) : (s.setPhase p).tVblOn = s.tVblOn := rfl
@[simp] theorem setPhase_tVblOff (p : Phase) : (s.setPhase p).tVblOff = s.tVblOff := rfl
@[simp] theorem setPhase_fail (p : Phase) : (s.setPhase p).fail = s.fail := rfl
@[simp] theorem setPhase_seenCodes (p : Phase) : (s.setPhase p).seenCodes = s.seenCodes := rfl
@[simp] theorem setPhase_walker (p : Phase) : (s.setPhase p).walker = s.walker := rfl
@[simp] theorem setPhase_phase (p : Phase) : (s.setPhase p).phase = p := rfl
@[simp] theorem setPhase_inputs (p : Phase) : (s.setPhase p).inputs = s.inputs := rfl
@[simp] theorem setPhase_outputs (p : Phase) : (s.setPhase p).outputs = s.outputs := rfl
@[simp] theorem setPhase_debugToggle (p : Phase) : (s.setPhase p).debugToggle = s.debugToggle := rfl
@[simp] theorem setPhase_freeIndex (p : Phase) : (s.setPhase p).freeIndex = s.freeIndex := rfl

/-! ### setInputs -/

@[simp] theorem setInputs_regs (is : List Input) : (s.setInputs is).regs = s.regs := rfl
@[simp] theorem setInputs_wave0 (is : List Input) : (s.setInputs is).wave0 = s.wave0 := rfl
@[simp] theorem setInputs_wave1 (is : List Input) : (s.setInputs is).wave1 = s.wave1 := rfl
@[simp] theorem setInputs_matrix (is : List Input) : (s.setInputs is).matrix = s.matrix := rfl
@[simp] theorem setInputs_point (is : List Input) : (s.setInputs is).point = s.point := rfl
@[simp] theorem setInputs_point2 (is : List Input) : (s.setInputs is).point2 = s.point2 := rfl
@[simp] theorem setInputs_fifo (is : List Input) : (s.setInputs is).fifo = s.fifo := rfl
@[simp] theorem setInputs_clip (is : List Input) : (s.setInputs is).clip = s.clip := rfl
@[simp] theorem setInputs_yscale (is : List Input) : (s.setInputs is).yscale = s.yscale := rfl
@[simp] theorem setInputs_renderbase (is : List Input) : (s.setInputs is).renderbase = s.renderbase := rfl
@[simp] theorem setInputs_texbase (is : List Input) : (s.setInputs is).texbase = s.texbase := rfl
@[simp] theorem setInputs_quadSize (is : List Input) : (s.setInputs is).quadSize = s.quadSize := rfl
@[simp] theorem setInputs_zbase (is : List Input) : (s.setInputs is).zbase = s.zbase := rfl
@[simp] theorem setInputs_texwidthPrev (is : List Input) : (s.setInputs is).texwidthPrev = s.texwidthPrev := rfl
@[simp] theorem setInputs_irqFifo (is : List Input) : (s.setInputs is).irqFifo = s.irqFifo := rfl
@[simp] theorem setInputs_irqVblank (is : List Input) : (s.setInputs is).irqVblank = s.irqVblank := rfl
@[simp] theorem setInputs_tFifo (is : List Input) : (s.setInputs is).tFifo = s.tFifo := rfl
@[simp] theorem setInputs_tVblOn (is : List Input) : (s.setInputs is).tVblOn = s.tVblOn := rfl
@[simp] theorem setInputs_tVblOff (is : List Input) : (s.setInputs is).tVblOff = s.tVblOff := rfl
@[simp] theorem setInputs_fail (is : List Input) : (s.setInputs is).fail = s.fail := rfl
@[simp] theorem setInputs_seenCodes (is : List Input) : (s.setInputs is).seenCodes = s.seenCodes := rfl
@[simp] theorem setInputs_walker (is : List Input) : (s.setInputs is).walker = s.walker := rfl
@[simp] theorem setInputs_phase (is : List Input) : (s.setInputs is).phase = s.phase := rfl
@[simp] theorem setInputs_inputs (is : List Input) : (s.setInputs is).inputs = is := rfl
@[simp] theorem setInputs_outputs (is : List Input) : (s.setInputs is).outputs = s.outputs := rfl
@[simp] theorem setInputs_debugToggle (is : List Input) : (s.setInputs is).debugToggle = s.debugToggle := rfl
@[simp] theorem setInputs_freeIndex (is : List Input) : (s.setInputs is).freeIndex = s.freeIndex := rfl

/-! ### emit -/

@[simp] theorem emit_regs (o : Output) : (s.emit o).regs = s.regs := rfl
@[simp] theorem emit_wave0 (o : Output) : (s.emit o).wave0 = s.wave0 := rfl
@[simp] theorem emit_wave1 (o : Output) : (s.emit o).wave1 = s.wave1 := rfl
@[simp] theorem emit_matrix (o : Output) : (s.emit o).matrix = s.matrix := rfl
@[simp] theorem emit_point (o : Output) : (s.emit o).point = s.point := rfl
@[simp] theorem emit_point2 (o : Output) : (s.emit o).point2 = s.point2 := rfl
@[simp] theorem emit_fifo (o : Output) : (s.emit o).fifo = s.fifo := rfl
@[simp] theorem emit_clip (o : Output) : (s.emit o).clip = s.clip := rfl
@[simp] theorem emit_yscale (o : Output) : (s.emit o).yscale = s.yscale := rfl
@[simp] theorem emit_renderbase (o : Output) : (s.emit o).renderbase = s.renderbase := rfl
@[simp] theorem emit_texbase (o : Output) : (s.emit o).texbase = s.texbase := rfl
@[simp] theorem emit_quadSize (o : Output) : (s.emit o).quadSize = s.quadSize := rfl
@[simp] theorem emit_zbase (o : Output) : (s.emit o).zbase = s.zbase := rfl
@[simp] theorem emit_texwidthPrev (o : Output) : (s.emit o).texwidthPrev = s.texwidthPrev := rfl
@[simp] theorem emit_irqFifo (o : Output) : (s.emit o).irqFifo = s.irqFifo := rfl
@[simp] theorem emit_irqVblank (o : Output) : (s.emit o).irqVblank = s.irqVblank := rfl
@[simp] theorem emit_tFifo (o : Output) : (s.emit o).tFifo = s.tFifo := rfl
@[simp] theorem emit_tVblOn (o : Output) : (s.emit o).tVblOn = s.tVblOn := rfl
@[simp] theorem emit_tVblOff (o : Output) : (s.emit o).tVblOff = s.tVblOff := rfl
@[simp] theorem emit_fail (o : Output) : (s.emit o).fail = s.fail := rfl
@[simp] theorem emit_seenCodes (o : Output) : (s.emit o).seenCodes = s.seenCodes := rfl
@[simp] theorem emit_walker (o : Output) : (s.emit o).walker = s.walker := rfl
@[simp] theorem emit_phase (o : Output) : (s.emit o).phase = s.phase := rfl
@[simp] theorem emit_inputs (o : Output) : (s.emit o).inputs = s.inputs := rfl
@[simp] theorem emit_outputs (o : Output) : (s.emit o).outputs = s.outputs ++ [o] := rfl
@[simp] theorem emit_debugToggle (o : Output) : (s.emit o).debugToggle = s.debugToggle := rfl
@[simp] theorem emit_freeIndex (o : Output) : (s.emit o).freeIndex = s.freeIndex := rfl

/-! ### setDebugToggle -/

@[simp] theorem setDebugToggle_regs (b : Bool) : (s.setDebugToggle b).regs = s.regs := rfl
@[simp] theorem setDebugToggle_wave0 (b : Bool) : (s.setDebugToggle b).wave0 = s.wave0 := rfl
@[simp] theorem setDebugToggle_wave1 (b : Bool) : (s.setDebugToggle b).wave1 = s.wave1 := rfl
@[simp] theorem setDebugToggle_matrix (b : Bool) : (s.setDebugToggle b).matrix = s.matrix := rfl
@[simp] theorem setDebugToggle_point (b : Bool) : (s.setDebugToggle b).point = s.point := rfl
@[simp] theorem setDebugToggle_point2 (b : Bool) : (s.setDebugToggle b).point2 = s.point2 := rfl
@[simp] theorem setDebugToggle_fifo (b : Bool) : (s.setDebugToggle b).fifo = s.fifo := rfl
@[simp] theorem setDebugToggle_clip (b : Bool) : (s.setDebugToggle b).clip = s.clip := rfl
@[simp] theorem setDebugToggle_yscale (b : Bool) : (s.setDebugToggle b).yscale = s.yscale := rfl
@[simp] theorem setDebugToggle_renderbase (b : Bool) : (s.setDebugToggle b).renderbase = s.renderbase := rfl
@[simp] theorem setDebugToggle_texbase (b : Bool) : (s.setDebugToggle b).texbase = s.texbase := rfl
@[simp] theorem setDebugToggle_quadSize (b : Bool) : (s.setDebugToggle b).quadSize = s.quadSize := rfl
@[simp] theorem setDebugToggle_zbase (b : Bool) : (s.setDebugToggle b).zbase = s.zbase := rfl
@[simp] theorem setDebugToggle_texwidthPrev (b : Bool) : (s.setDebugToggle b).texwidthPrev = s.texwidthPrev := rfl
@[simp] theorem setDebugToggle_irqFifo (b : Bool) : (s.setDebugToggle b).irqFifo = s.irqFifo := rfl
@[simp] theorem setDebugToggle_irqVblank (b : Bool) : (s.setDebugToggle b).irqVblank = s.irqVblank := rfl
@[simp] theorem setDebugToggle_tFifo (b : Bool) : (s.setDebugToggle b).tFifo = s.tFifo := rfl
@[simp] theorem setDebugToggle_tVblOn (b : Bool) : (s.setDebugToggle b).tVblOn = s.tVblOn := rfl
@[simp] theorem setDebugToggle_tVblOff (b : Bool) : (s.setDebugToggle b).tVblOff = s.tVblOff := rfl
@[simp] theorem setDebugToggle_fail (b : Bool) : (s.setDebugToggle b).fail = s.fail := rfl
@[simp] theorem setDebugToggle_seenCodes (b : Bool) : (s.setDebugToggle b).seenCodes = s.seenCodes := rfl
@[simp] theorem setDebugToggle_walker (b : Bool) : (s.setDebugToggle b).walker = s.walker := rfl
@[simp] theorem setDebugToggle_phase (b : Bool) : (s.setDebugToggle b).phase = s.phase := rfl
@[simp] theorem setDebugToggle_inputs (b : Bool) : (s.setDebugToggle b).inputs = s.inputs := rfl
@[simp] theorem setDebugToggle_outputs (b : Bool) : (s.setDebugToggle b).outputs = s.outputs := rfl
@[simp] theorem setDebugToggle_debugToggle (b : Bool) : (s.setDebugToggle b).debugToggle = b := rfl
@[simp] theorem setDebugToggle_freeIndex (b : Bool) : (s.setDebugToggle b).freeIndex = s.freeIndex := rfl

/-! ### nextFree -/

@[simp] theorem nextFree_regs : s.nextFree.regs = s.regs := rfl
@[simp] theorem nextFree_wave0 : s.nextFree.wave0 = s.wave0 := rfl
@[simp] theorem nextFree_wave1 : s.nextFree.wave1 = s.wave1 := rfl
@[simp] theorem nextFree_matrix : s.nextFree.matrix = s.matrix := rfl
@[simp] theorem nextFree_point : s.nextFree.point = s.point := rfl
@[simp] theorem nextFree_point2 : s.nextFree.point2 = s.point2 := rfl
@[simp] theorem nextFree_fifo : s.nextFree.fifo = s.fifo := rfl
@[simp] theorem nextFree_clip : s.nextFree.clip = s.clip := rfl
@[simp] theorem nextFree_yscale : s.nextFree.yscale = s.yscale := rfl
@[simp] theorem nextFree_renderbase : s.nextFree.renderbase = s.renderbase := rfl
@[simp] theorem nextFree_texbase : s.nextFree.texbase = s.texbase := rfl
@[simp] theorem nextFree_quadSize : s.nextFree.quadSize = s.quadSize := rfl
@[simp] theorem nextFree_zbase : s.nextFree.zbase = s.zbase := rfl
@[simp] theorem nextFree_texwidthPrev : s.nextFree.texwidthPrev = s.texwidthPrev := rfl
@[simp] theorem nextFree_irqFifo : s.nextFree.irqFifo = s.irqFifo := rfl
@[simp] theorem nextFree_irqVblank : s.nextFree.irqVblank = s.irqVblank := rfl
@[simp] theorem nextFree_tFifo : s.nextFree.tFifo = s.tFifo := rfl
@[simp] theorem nextFree_tVblOn : s.nextFree.tVblOn = s.tVblOn := rfl
@[simp] theorem nextFree_tVblOff : s.nextFree.tVblOff = s.tVblOff := rfl
@[simp] theorem nextFree_fail : s.nextFree.fail = s.fail := rfl
@[simp] theorem nextFree_seenCodes : s.nextFree.seenCodes = s.seenCodes := rfl
@[simp] theorem nextFree_walker : s.nextFree.walker = s.walker := rfl
@[simp] theorem nextFree_phase : s.nextFree.phase = s.phase := rfl
@[simp] theorem nextFree_inputs : s.nextFree.inputs = s.inputs := rfl
@[simp] theorem nextFree_outputs : s.nextFree.outputs = s.outputs := rfl
@[simp] theorem nextFree_debugToggle : s.nextFree.debugToggle = s.debugToggle := rfl
@[simp] theorem nextFree_freeIndex : s.nextFree.freeIndex = s.freeIndex + 1 := rfl

/-! ### setArch -/

@[simp] theorem setArch_regs (a : Arch) : (s.setArch a).regs = a.regs := rfl
@[simp] theorem setArch_wave0 (a : Arch) : (s.setArch a).wave0 = a.wave0 := rfl
@[simp] theorem setArch_wave1 (a : Arch) : (s.setArch a).wave1 = a.wave1 := rfl
@[simp] theorem setArch_matrix (a : Arch) : (s.setArch a).matrix = a.matrix := rfl
@[simp] theorem setArch_point (a : Arch) : (s.setArch a).point = a.point := rfl
@[simp] theorem setArch_point2 (a : Arch) : (s.setArch a).point2 = a.point2 := rfl
@[simp] theorem setArch_fifo (a : Arch) : (s.setArch a).fifo = a.fifo := rfl
@[simp] theorem setArch_clip (a : Arch) : (s.setArch a).clip = a.clip := rfl
@[simp] theorem setArch_yscale (a : Arch) : (s.setArch a).yscale = a.yscale := rfl
@[simp] theorem setArch_renderbase (a : Arch) : (s.setArch a).renderbase = a.renderbase := rfl
@[simp] theorem setArch_texbase (a : Arch) : (s.setArch a).texbase = a.texbase := rfl
@[simp] theorem setArch_quadSize (a : Arch) : (s.setArch a).quadSize = a.quadSize := rfl
@[simp] theorem setArch_zbase (a : Arch) : (s.setArch a).zbase = a.zbase := rfl
@[simp] theorem setArch_texwidthPrev (a : Arch) : (s.setArch a).texwidthPrev = a.texwidthPrev := rfl
@[simp] theorem setArch_irqFifo (a : Arch) : (s.setArch a).irqFifo = a.irqFifo := rfl
@[simp] theorem setArch_irqVblank (a : Arch) : (s.setArch a).irqVblank = a.irqVblank := rfl
@[simp] theorem setArch_tFifo (a : Arch) : (s.setArch a).tFifo = a.tFifo := rfl
@[simp] theorem setArch_tVblOn (a : Arch) : (s.setArch a).tVblOn = a.tVblOn := rfl
@[simp] theorem setArch_tVblOff (a : Arch) : (s.setArch a).tVblOff = a.tVblOff := rfl
@[simp] theorem setArch_fail (a : Arch) : (s.setArch a).fail = a.fail := rfl
@[simp] theorem setArch_seenCodes (a : Arch) : (s.setArch a).seenCodes = s.seenCodes := rfl
@[simp] theorem setArch_walker (a : Arch) : (s.setArch a).walker = s.walker := rfl
@[simp] theorem setArch_phase (a : Arch) : (s.setArch a).phase = s.phase := rfl
@[simp] theorem setArch_inputs (a : Arch) : (s.setArch a).inputs = s.inputs := rfl
@[simp] theorem setArch_outputs (a : Arch) : (s.setArch a).outputs = s.outputs := rfl
@[simp] theorem setArch_debugToggle (a : Arch) : (s.setArch a).debugToggle = s.debugToggle := rfl
@[simp] theorem setArch_freeIndex (a : Arch) : (s.setArch a).freeIndex = s.freeIndex := rfl

@[simp] theorem setArch_toArch (a : Arch) : (s.setArch a).toArch = a := rfl
@[simp] theorem setSeenCodes_toArch (cs : List (BitVec 16)) : (s.setSeenCodes cs).toArch = s.toArch := rfl
@[simp] theorem setWalker_toArch (w : Walker) : (s.setWalker w).toArch = s.toArch := rfl
@[simp] theorem setPhase_toArch (p : Phase) : (s.setPhase p).toArch = s.toArch := rfl
@[simp] theorem setInputs_toArch (is : List Input) : (s.setInputs is).toArch = s.toArch := rfl
@[simp] theorem emit_toArch (o : Output) : (s.emit o).toArch = s.toArch := rfl
@[simp] theorem setDebugToggle_toArch (b : Bool) : (s.setDebugToggle b).toArch = s.toArch := rfl
@[simp] theorem nextFree_toArch : s.nextFree.toArch = s.toArch := rfl

end Sys2Proof.Machine.State
end

