-- ==== Sys2Proof/Laws/Ops.lean ====
section
/-! SUPPORT. What each shared operation can do, said once: failing and sequencing, memory accesses, the register bus, the walker, the
rasterizer, the events. -/

namespace Sys2Proof.Machine

variable {cfg : Cfg}

/-! ## Failing and sequencing -/

theorem stop_next {e : Stop} {s t : State} (h : stop e s = .next t) : ∃ f, e = .raise f ∧ t = s.setFail f := by
  cases e with
  | raise f => exact ⟨f, rfl, by simpa [stop, raise] using h.symm⟩
  | refuse r => simp [stop] at h

theorem andThen_running {s : State} (h : s.fail = none) (k : State → Result) : andThen (.next s) k = k s := by
  simp [andThen, h]

theorem andThen_failed {s : State} {f : Fault} (h : s.fail = some f) (k : State → Result) :
    andThen (.next s) k = .next s := by
  simp [andThen, h]

/-- If a sequence answers next, its first part did, and then either the rest did or the first part had failed. -/
theorem andThen_next {o : Result} {k : State → Result} {t : State} (h : andThen o k = .next t) :
    ∃ s, o = .next s ∧ ((s.fail = none ∧ k s = .next t) ∨ (s.fail ≠ none ∧ t = s)) := by
  cases o with
  | next s =>
    refine ⟨s, rfl, ?_⟩
    cases hf : s.fail with
    | none => exact .inl ⟨rfl, by simpa [andThen, hf] using h⟩
    | some f => exact .inr ⟨by simp, by simpa [andThen, hf] using h.symm⟩
  | fault f => simp [andThen] at h
  | refused r => simp [andThen] at h

/-- A relation that holds of a state with itself, composes, and holds across each iteration, holds across the loop. -/
theorem forRange_rel {f : Nat → State → Result} (P : State → State → Prop) (refl : ∀ s, P s s)
    (trans : ∀ a b c, P a b → P b c → P a c) {lo n : Nat} {s t : State}
    (each : ∀ i a b, lo ≤ i → i < lo + n → f i a = .next b → P a b)
    (h : forRange f lo n s = .next t) : P s t := by
  induction n generalizing lo s with
  | zero =>
    simp only [forRange, Host.Outcome.next.injEq] at h
    exact h ▸ refl s
  | succ n ih =>
    obtain ⟨u, hu, ⟨_, hr⟩ | ⟨_, rfl⟩⟩ := andThen_next h
    · exact trans _ _ _ (each lo s u (by omega) (by omega) hu)
        (ih (fun i a b h1 h2 => each i a b (by omega) (by omega)) hr)
    · exact each lo s _ (by omega) (by omega) hu

/-- A loop each of whose iterations goes on, goes on, and keeps what each iteration keeps. -/
theorem forRange_total {f : Nat → State → Result} (P : State → Prop) {lo n : Nat} {s : State} (hs : P s)
    (each : ∀ i a, lo ≤ i → i < lo + n → P a → ∃ b, f i a = .next b ∧ b.fail = none ∧ P b) (hf : s.fail = none) :
    ∃ t, forRange f lo n s = .next t ∧ t.fail = none ∧ P t := by
  induction n generalizing lo s with
  | zero => exact ⟨s, rfl, hf, hs⟩
  | succ n ih =>
    obtain ⟨u, hu, hfu, hpu⟩ := each lo s (by omega) (by omega) hs
    obtain ⟨t, ht, hft, hpt⟩ := ih (lo := lo + 1) hpu (fun i a h1 h2 => each i a (by omega) (by omega)) hfu
    exact ⟨t, by rw [forRange, hu, andThen_running hfu, ht], hft, hpt⟩

/-- No loop answers a fault unless an iteration does. -/
theorem forRange_no_fault {f : Nat → State → Result} {lo n : Nat} {s : State}
    (each : ∀ i a e, f i a ≠ .fault e) (e : Fault) : forRange f lo n s ≠ .fault e := by
  induction n generalizing lo s with
  | zero => simp [forRange]
  | succ n ih =>
    rw [forRange]
    cases hu : f lo s with
    | next u =>
      cases hf : u.fail with
      | none => rw [andThen_running hf]; exact ih
      | some x => rw [andThen_failed hf]; simp
    | fault x => exact absurd hu (each lo s x)
    | refused r => simp [andThen]

theorem accepting_running {s : State} (h : s.fail = none) (k : Result) : accepting s k = k := by
  simp [accepting, h]

theorem accepting_next {s t : State} {k : Result} (h : accepting s k = .next t) : s.fail = none ∧ k = .next t := by
  cases hf : s.fail with
  | none => exact ⟨rfl, by simpa [accepting, hf] using h⟩
  | some f => simp [accepting, hf] at h

/-! ## Memory accesses -/

/-- When an access may be made (R83, R87). -/
theorem checkAccess_ok {b : Bank} {a : Int} {n : Nat} :
    checkAccess cfg b a n = .ok () ↔ a % n = 0 ∧ 0 ≤ a ∧ a + n ≤ bankSize cfg b := by
  unfold checkAccess
  split
  · simp only [reduceCtorEq, false_iff]; omega
  · split
    · simp_all
    · simp_all

/-- What a refused or failing access says (R83, R87). -/
theorem checkAccess_error {b : Bank} {a : Int} {n : Nat} {e : Stop} (h : checkAccess cfg b a n = .error e) :
    e = .refuse (.misalignedWaveAccess b a n) ∨ e = .raise (.waveRange b a n) := by
  unfold checkAccess at h
  split at h
  · simp_all
  · split at h
    · simp_all
    · simp at h

/-- A store goes to the bytes of the access, or fails and stores nothing (R83). -/
theorem memWrite_next {b : Bank} {a : Int} {n v : Nat} {s t : State} (h : memWrite cfg b a n v s = .next t) :
    (checkAccess cfg b a n = .ok () ∧ t = s.setBank b ((s.bank b).writeLE a.toNat v n))
    ∨ t = s.setFail (.waveRange b a n) := by
  unfold memWrite at h
  split at h
  · rename_i u hu
    exact .inl ⟨hu, by simpa using h.symm⟩
  · rename_i e he
    obtain ⟨f, rfl, rfl⟩ := stop_next h
    rcases checkAccess_error he with h' | h' <;> simp at h'
    exact .inr (by rw [h'])

theorem memWrite_ok {b : Bank} {a : Int} {n v : Nat} {s : State} (h : checkAccess cfg b a n = .ok ()) :
    memWrite cfg b a n v s = .next (s.setBank b ((s.bank b).writeLE a.toNat v n)) := by
  simp [memWrite, h]

theorem memRead_ok {b : Bank} {m : Memory} {a : Int} {n : Nat} (h : checkAccess cfg b a n = .ok ()) :
    memRead cfg b m a n = .ok (m.readLE b a.toNat n) := by
  simp [memRead, h]

theorem memWrite_no_fault (b : Bank) (a : Int) (n v : Nat) (s : State) (e : Fault) :
    memWrite cfg b a n v s ≠ .fault e := by
  unfold memWrite
  split
  · simp
  · unfold stop
    split <;> simp [raise]

@[simp] theorem setBank_fail (s : State) (b : Bank) (m : Memory) : (s.setBank b m).fail = s.fail := by
  cases b <;> rfl

/-! ## The register file -/

@[simp] theorem reg_setReg_same (s : State) (o : Offset) (v : Word) : (s.setReg o v).reg o = v := by
  simp [State.reg, State.setReg]

theorem reg_setReg_ne (s : State) (o p : Offset) (v : Word) (h : p ≠ o) : (s.setReg o v).reg p = s.reg p := by
  have : o.toNat ≠ p.toNat := fun e => h (BitVec.eq_of_toNat_eq e.symm)
  simp [State.reg, State.setReg, Vector.getElem_set_ne _ _ this]

/-- A read changes nothing but the model's own count of free choices (R170). -/
theorem busRead_snd (o : Offset) (s : State) : (busRead cfg o s).2 = s ∨ (busRead cfg o s).2 = s.nextFree := by
  unfold busRead
  repeat' split
  all_goals simp

/-- What a pointer write changes (R177 to R181). -/
theorem pointerWrite_cases (idx : BitVec 8) (data : BitVec 24) (s : State) :
    pointerWrite cfg idx data s = s.setRenderbase (renderPointer cfg data)
    ∨ pointerWrite cfg idx data s = s.setTexbase (texturePointer cfg data)
    ∨ pointerWrite cfg idx data s = s.setQuadSize (quadSizeOf data)
    ∨ pointerWrite cfg idx data s = s.emit (.log (.pointerUnknown idx data)) := by
  unfold pointerWrite
  split
  · exact .inl rfl
  · split
    · exact .inr (.inl rfl)
    · split
      · exact .inr (.inr (.inl rfl))
      · exact .inr (.inr (.inr rfl))

/-- What a bus write does, by its offset (R175). -/
theorem busWrite_next {o : Offset} {v : Word} {s t : State} (h : busWrite cfg o v s = .next t) :
    s.fail = none ∧
    ((o = cfg.fifoTrigger ∧ fifoPush cfg v (s.setReg o v) = .next t)
     ∨ (o = cfg.ptrPrimary ∧ t = pointerWrite cfg (ptrIndex v) (ptrData v) (s.setReg o v))
     ∨ (cfg.timingOffsets.contains o = true ∧ t = geometryUpdate cfg (s.setReg o v))
     ∨ (cfg.portOffsets.contains o = true ∧ portWrite cfg o (s.reg o) v (s.setReg o v) = .next t)
     ∨ t = s.setReg o v) := by
  obtain ⟨hf, h⟩ := accepting_next h
  refine ⟨hf, ?_⟩
  dsimp only at h
  split at h
  · rename_i ho
    exact .inl ⟨ho, h⟩
  · split at h
    · rename_i ho
      exact .inr (.inl ⟨ho, by simpa using h.symm⟩)
    · split at h
      · rename_i ho
        exact .inr (.inr (.inl ⟨ho, by simpa using h.symm⟩))
      · split at h
        · rename_i ho
          exact .inr (.inr (.inr (.inl ⟨ho, h⟩)))
        · exact .inr (.inr (.inr (.inr (by simpa using h.symm))))

theorem fifoPush_next {v : Word} {s t : State} (h : fifoPush cfg v s = .next t) :
    s.fifo.length ≠ cfg.fifoCap ∧ t = (s.setFifo (s.fifo ++ [v])).setPhase .command := by
  unfold fifoPush at h
  split at h
  · simp at h
  · rename_i hc
    exact ⟨hc, by simpa using h.symm⟩

/-- What one action of a `PortEffect` does (R183). -/
theorem portAction_next {a : PortAction} {s t : State} (h : portAction cfg a s = .next t) :
    t = s
    ∨ (∃ o v, cfg.portOffsets.contains o = true ∧ t = s.setReg o v)
    ∨ (∃ b addr v, checkAccess cfg b addr 1 = .ok () ∧ t = s.setBank b ((s.bank b).writeLE addr.toNat v 1))
    ∨ (∃ f, t = s.setFail f)
    ∨ (∃ idx data, t = pointerWrite cfg idx data s) := by
  cases a with
  | setReg o v =>
    simp only [portAction] at h
    split at h
    · rename_i ho
      exact .inr (.inl ⟨o, v, ho, by simpa using h.symm⟩)
    · exact .inl (by simpa using h.symm)
  | setByte b addr v =>
    rcases memWrite_next h with ⟨h1, h2⟩ | h1
    · exact .inr (.inr (.inl ⟨b, addr, _, h1, h2⟩))
    · exact .inr (.inr (.inr (.inl ⟨_, h1⟩)))
  | pointer idx data => exact .inr (.inr (.inr (.inr ⟨idx, data, by simpa [portAction] using h.symm⟩)))

/-- A list of one action does what the action does. -/
theorem portActions_singleton (a : PortAction) (s : State) : portActions cfg [a] s = portAction cfg a s := by
  simp only [portActions]
  cases portAction cfg a s with
  | next u => cases hu : u.fail <;> simp [andThen, hu]
  | fault f => rfl
  | refused r => rfl

/-- A relation that holds of a state with itself, composes, and holds across each action, holds across a `PortEffect`. -/
theorem portActions_rel (P : State → State → Prop) (refl : ∀ s, P s s) (trans : ∀ a b c, P a b → P b c → P a c)
    (each : ∀ a s t, portAction cfg a s = .next t → P s t) {l : List PortAction} {s t : State}
    (h : portActions cfg l s = .next t) : P s t := by
  induction l generalizing s with
  | nil =>
    simp only [portActions, Host.Outcome.next.injEq] at h
    exact h ▸ refl s
  | cons a rest ih =>
    obtain ⟨u, hu, ⟨_, hr⟩ | ⟨_, rfl⟩⟩ := andThen_next h
    · exact trans _ _ _ (each _ _ _ hu) (ih hr)
    · exact each _ _ _ hu

/-- A port write that answers next performs what the `PortEffect` of the configuration answers (R183). -/
theorem portWrite_next {o : Offset} {old v : Word} {s t : State} (h : portWrite cfg o old v s = .next t) :
    ∃ f, cfg.portEffect = some f ∧ portActions cfg (f o old v (portView cfg s)) s = .next t := by
  unfold portWrite at h
  split at h
  · simp at h
  · rename_i f hf
    exact ⟨f, hf, h⟩

/-- A `PortEffect` is shown the banks and the port registers alone: other registers make no difference to it (R183). -/
theorem portView_congr {s u : State} (h0 : u.wave0 = s.wave0) (h1 : u.wave1 = s.wave1)
    (hr : ∀ o ∈ cfg.portOffsets, u.reg o = s.reg o) : portView cfg u = portView cfg s := by
  simp only [portView, h0, h1, PortView.mk.injEq, and_true]
  exact List.map_congr_left fun o ho => by rw [hr o ho]

theorem portWrite_rel (P : State → State → Prop) (refl : ∀ s, P s s) (trans : ∀ a b c, P a b → P b c → P a c)
    (each : ∀ a s t, portAction cfg a s = .next t → P s t) {o : Offset} {old v : Word} {s t : State}
    (h : portWrite cfg o old v s = .next t) : P s t := by
  obtain ⟨f, _, h⟩ := portWrite_next h
  exact portActions_rel P refl trans each h

/-- What `GeometryUpdate` changes (R182). -/
theorem applyGeometry_cases (g : GeomAnswer) (s : State) :
    (GeomAnswer.accepted g = false ∧ applyGeometry g s = s)
    ∨ (GeomAnswer.accepted g = true
       ∧ applyGeometry g s
         = (s.emit (.configure g.htotal g.vtotal g.vis g.refresh)).setScreen (GeomAnswer.clip g) g.yscale) := by
  cases h : GeomAnswer.accepted g <;> simp [applyGeometry, h]

/-! ## The walker -/

theorem startWalk_next {base : Word} {count : BitVec 16} {s t : State} (h : startWalk cfg base count s = .next t) :
    (cfg.dlCountMax < count.toNat ∧ t = s.setFail (.displayListFatal base count.toNat))
    ∨ (count.toNat ≤ cfg.dlCountMax
       ∧ t = (s.setWalker ⟨base, count.toNat, none, 0, [], s.quadSize, 0#32⟩).setPhase .walk) := by
  unfold startWalk at h
  split at h
  · rename_i hc
    exact .inl ⟨hc, by simpa [raise] using h.symm⟩
  · rename_i hc
    exact .inr ⟨by omega, by simpa using h.symm⟩

theorem outerLoop_cases (s : State) :
    (s.walker.base = 0#32 ∧ outerLoop cfg s = finishCommand (s.setWalker Walker.clear))
    ∨ (s.walker.base ≠ 0#32
       ∧ outerLoop cfg s
         = s.setWalker { s.walker with list := some (expand0 cfg s.walker.base), base := 0#32, cur := 0 }) := by
  by_cases h : s.walker.base = 0#32 <;> simp [outerLoop, h]

/-! ## Computations that answer a value or a reason -/

/-- A sequence of two computations answers a value exactly where both do. -/
theorem access_bind_ok {α β : Type} {x : Access α} {k : α → Access β} {b : β} :
    (x >>= k) = .ok b ↔ ∃ a, x = .ok a ∧ k a = .ok b := by
  cases x with
  | error e => exact ⟨(nomatch ·), fun ⟨_, h, _⟩ => nomatch h⟩
  | ok a => exact ⟨fun h => ⟨a, rfl, h⟩, fun ⟨_, rfl, h⟩ => h⟩

theorem access_pure_ok {α : Type} {a b : α} : (pure a : Access α) = .ok b ↔ a = b :=
  ⟨Except.ok.inj, congrArg _⟩

/-- A computation on each entry of a list answers exactly where it answers on every entry. -/
theorem access_mapM_ok {α β : Type} {f : α → Access β} {l : List α} {o : List β} :
    l.mapM f = .ok o ↔ List.Forall₂ (fun a b => f a = .ok b) l o := by
  induction l generalizing o with
  | nil => rw [List.mapM_nil, access_pure_ok]; simp [eq_comm]
  | cons a l ih =>
    simp only [List.mapM_cons, access_bind_ok, access_pure_ok, ih]
    constructor
    · rintro ⟨b, hb, r, hr, rfl⟩
      exact .cons hb hr
    · rintro (_ | ⟨hb, hr⟩)
      exact ⟨_, hb, _, hr, rfl⟩

theorem finite_ok {x : F} {q : Rat} : finite x = .ok q ↔ x = .fin q := by cases x <;> simp [finite]

theorem fdiv_ok {a b r : Rat} : fdiv cfg a b = .ok r ↔ b ≠ 0 ∧ cfg.fl (a / b) = .fin r := by
  unfold fdiv
  split
  · simp [*]
  · simp [*, finite_ok]

/-- `a + t*(b - a)`, one rounding after each operation. -/
theorem lerp_ok {a b t r : Rat} :
    lerp cfg a b t = .ok r ↔ ∃ d e, cfg.fl (b - a) = .fin d ∧ cfg.fl (t * d) = .fin e ∧ cfg.fl (a + e) = .fin r := by
  simp only [lerp, access_bind_ok, fsub, fmul, fadd, finite_ok]
  exact ⟨fun ⟨d, h, e, h', h''⟩ => ⟨d, e, h, h', h''⟩, fun ⟨d, e, h, h', h''⟩ => ⟨d, h, e, h', h''⟩⟩

/-! ## The rasterizer: only bank 1 and `fail` change once a primitive is dispatched -/

/-- `t` differs from `s` in bank 1 and in `fail` at most. -/
def OnlyWave1 (s t : State) : Prop := ∃ m f, t = { s with wave1 := m, fail := f }

theorem OnlyWave1.refl (s : State) : OnlyWave1 s s := ⟨s.wave1, s.fail, rfl⟩

theorem OnlyWave1.trans {a b c : State} (h : OnlyWave1 a b) (k : OnlyWave1 b c) : OnlyWave1 a c := by
  obtain ⟨m, f, rfl⟩ := h
  obtain ⟨m', f', rfl⟩ := k
  exact ⟨m', f', rfl⟩

theorem OnlyWave1.setFail (s : State) (f : Fault) : OnlyWave1 s (s.setFail f) := ⟨s.wave1, some f, rfl⟩

theorem OnlyWave1.stop {e : Stop} {s t : State} (h : Machine.stop e s = .next t) : OnlyWave1 s t := by
  obtain ⟨f, _, rfl⟩ := stop_next h
  exact .setFail s f

theorem memWrite_onlyWave1 {a : Int} {n v : Nat} {s t : State} (h : memWrite cfg .bank1 a n v s = .next t) :
    OnlyWave1 s t := by
  rcases memWrite_next h with ⟨_, rfl⟩ | rfl
  · exact ⟨_, s.fail, rfl⟩
  · exact .setFail s _

/-- Drawing one pixel either leaves the state as it is, or fails having written nothing, or writes colour and depth. -/
theorem drawPixel_next {e : Extra} {y x : Nat} {p : Sample} {s t : State} (h : drawPixel cfg e y x p s = .next t) :
    (shadePixel cfg e y x p s = .ok none ∧ t = s)
    ∨ (∃ f, shadePixel cfg e y x p s = .error (.raise f) ∧ t = s.setFail f)
    ∨ (∃ w d, shadePixel cfg e y x p s = .ok (some (w, d)) ∧ putPixel cfg y x w d s = .next t) := by
  unfold drawPixel at h
  split at h
  · rename_i r hr
    obtain ⟨f, rfl, rfl⟩ := stop_next h
    exact .inr (.inl ⟨f, hr, rfl⟩)
  · rename_i hr
    exact .inl ⟨hr, by simpa using h.symm⟩
  · rename_i w d hr
    exact .inr (.inr ⟨w, d, hr, h⟩)

theorem drawPixel_onlyWave1 {e : Extra} {y x : Nat} {p : Sample} {s t : State}
    (h : drawPixel cfg e y x p s = .next t) : OnlyWave1 s t := by
  rcases drawPixel_next h with ⟨_, rfl⟩ | ⟨f, _, rfl⟩ | ⟨w, d, _, hp⟩
  · exact .refl _
  · exact .setFail s f
  · obtain ⟨u, hu, ⟨_, hr⟩ | ⟨_, rfl⟩⟩ := andThen_next hp
    · exact (memWrite_onlyWave1 hu).trans (memWrite_onlyWave1 hr)
    · exact memWrite_onlyWave1 hu

theorem drawColumn_onlyWave1 {e : Extra} {l r : ScreenVertex} {y x : Nat} {s t : State}
    (h : drawColumn cfg e l r y x s = .next t) : OnlyWave1 s t := by
  unfold drawColumn at h
  split at h
  · exact .stop h
  · exact drawPixel_onlyWave1 h

theorem drawRow_onlyWave1 {sv : List ScreenVertex} {clip : Rect} {e : Extra} {y : Nat} {s t : State}
    (h : drawRow cfg sv clip e y s = .next t) : OnlyWave1 s t := by
  unfold drawRow at h
  split at h
  · exact .stop h
  · simp only [Host.Outcome.next.injEq] at h
    exact h ▸ .refl s
  · exact forRange_rel OnlyWave1 OnlyWave1.refl (fun _ _ _ => OnlyWave1.trans)
      (fun _ _ _ _ _ => drawColumn_onlyWave1) h

theorem scanConvert_onlyWave1 {sv : List ScreenVertex} {e : Extra} {s t : State}
    (h : scanConvert cfg sv e s = .next t) : OnlyWave1 s t := by
  unfold scanConvert at h
  split at h
  · simp only [raise, Host.Outcome.next.injEq] at h
    exact h ▸ .setFail s _
  · exact forRange_rel OnlyWave1 OnlyWave1.refl (fun _ _ _ => OnlyWave1.trans)
      (fun _ _ _ _ _ => drawRow_onlyWave1) h

/-- What `ClassifyWidth` changes (R289). -/
theorem classifyWidth_snd (texoffs : Word) (s : State) :
    (∃ w, (classifyWidth cfg texoffs s).2 = s.setTexwidthPrev w)
    ∨ (∃ cs os n, (classifyWidth cfg texoffs s).2 = { s with seenCodes := cs, outputs := os, freeIndex := n }) := by
  unfold classifyWidth
  split
  · exact .inl ⟨_, rfl⟩
  · refine .inr ?_
    dsimp only
    split <;> split <;> exact ⟨_, _, _, rfl⟩

/-- If a quad answers next: it was discarded, or it failed, or it was dispatched and scan converted. -/
theorem quadDraw_next {v0 v1 v2 v3 : QVertex} {texoffs : Word} {s t : State}
    (h : quadDraw cfg v0 v1 v2 v3 texoffs s = .next t) :
    s.debugToggle = false ∧
    ((quadPolygon cfg s.matrix s.point s.zbase texoffs v0 v1 v2 v3 = .ok none ∧ t = s)
     ∨ (∃ f, quadPolygon cfg s.matrix s.point s.zbase texoffs v0 v1 v2 v3 = .error (.raise f) ∧ t = s.setFail f)
     ∨ (∃ sv, quadPolygon cfg s.matrix s.point s.zbase texoffs v0 v1 v2 v3 = .ok (some sv)
          ∧ scanConvert cfg sv (capture cfg (classifyWidth cfg texoffs s).1 (classifyWidth cfg texoffs s).2) (classifyWidth cfg texoffs s).2
            = .next t)) := by
  unfold quadDraw at h
  split at h
  · simp at h
  · rename_i hd
    refine ⟨by simpa using hd, ?_⟩
    split at h
    · rename_i q hq
      obtain ⟨f, rfl, rfl⟩ := stop_next h
      exact .inr (.inl ⟨f, hq, rfl⟩)
    · rename_i hq
      exact .inl ⟨hq, by simpa using h.symm⟩
    · rename_i sv hq
      exact .inr (.inr ⟨sv, hq, h⟩)

/-- A quad changes `texwidth_prev`, `seen_codes`, bank 1, `fail`, the outputs and the free counter at most (R280). -/
theorem quadDraw_frame {v0 v1 v2 v3 : QVertex} {texoffs : Word} {s t : State}
    (h : quadDraw cfg v0 v1 v2 v3 texoffs s = .next t) :
    ∃ m f w cs os n,
      t = { s with wave1 := m, fail := f, texwidthPrev := w, seenCodes := cs, outputs := os, freeIndex := n } := by
  obtain ⟨_, ⟨_, rfl⟩ | ⟨f, _, rfl⟩ | ⟨sv, _, hs⟩⟩ := quadDraw_next h
  · exact ⟨_, _, _, _, _, _, rfl⟩
  · exact ⟨_, _, _, _, _, _, rfl⟩
  · obtain ⟨m, f, rfl⟩ := scanConvert_onlyWave1 hs
    rcases classifyWidth_snd texoffs s with ⟨w, hw⟩ | ⟨cs, os, n, hw⟩ <;> rw [hw] <;> exact ⟨_, _, _, _, _, _, rfl⟩

/-! ## The depth clear -/

theorem clearDepth_onlyWave1 {c : Rect} {s t : State} (h : clearDepth cfg c s = .next t) : OnlyWave1 s t :=
  forRange_rel OnlyWave1 OnlyWave1.refl (fun _ _ _ => OnlyWave1.trans)
    (fun _ _ _ _ _ h' =>
      forRange_rel OnlyWave1 OnlyWave1.refl (fun _ _ _ => OnlyWave1.trans) (fun _ _ _ _ _ => memWrite_onlyWave1) h') h

end Sys2Proof.Machine
end

