-- ==== Sys2Proof/Laws/Exec.lean ====
section
/-! SUPPORT. The induction over the machine, packaged once: a property that every named change keeps is kept by every instruction,
and, with what a step adds around an instruction, by every step. -/

namespace Sys2Proof.Machine

variable {cfg : Cfg}

/-- Every change an instruction can make keeps `I`. Each field is one kind of change; the hypotheses of a field say what is
known where the change happens. -/
structure KeptByChanges (cfg : Cfg) (I : State → Prop) : Prop where
  setReg : ∀ s o v, I s → I (s.setReg o v)
  store : ∀ s b a n v, checkAccess cfg b a n = .ok () → I s → I (s.setBank b ((s.bank b).writeLE a.toNat v n))
  setMatrix : ∀ s m, I s → I (s.setMatrix m)
  setPoint : ∀ s p, I s → I (s.setPoint p)
  setPoint2 : ∀ s p, I s → I (s.setPoint2 p)
  setScreen : ∀ s g, I s → I (s.setScreen (GeomAnswer.clip g) (GeomAnswer.yscale g))
  setRenderbase : ∀ s data, I s → I (s.setRenderbase (renderPointer cfg data))
  setTexbase : ∀ s data, I s → I (s.setTexbase (texturePointer cfg data))
  setQuadSize : ∀ s f, I s → I (s.setQuadSize f)
  setTexwidthPrev : ∀ s w, I s → I (s.setTexwidthPrev w)
  setFail : ∀ s f, s.fail = none → I s → I (s.setFail f)
  setSeenCodes : ∀ s cs, I s → I (s.setSeenCodes cs)
  emit : ∀ s o, I s → I (s.emit o)
  nextFree : ∀ s, I s → I s.nextFree

variable {I : State → Prop}

theorem KeptByChanges.stop (K : KeptByChanges cfg I) {e : Stop} {s t : State} (h : Machine.stop e s = .next t)
    (hf : s.fail = none) (hs : I s) : I t := by
  obtain ⟨f, _, rfl⟩ := stop_next h
  exact K.setFail s f hf hs

theorem KeptByChanges.memWrite (K : KeptByChanges cfg I) {b : Bank} {a : Int} {n v : Nat} {s t : State}
    (h : Machine.memWrite cfg b a n v s = .next t) (hf : s.fail = none) (hs : I s) : I t := by
  rcases memWrite_next h with ⟨hc, rfl⟩ | rfl
  · exact K.store s b a n v hc hs
  · exact K.setFail s _ hf hs

theorem KeptByChanges.pointerWrite (K : KeptByChanges cfg I) (idx : BitVec 8) (data : BitVec 24) (s : State) (hs : I s) :
    I (Machine.pointerWrite cfg idx data s) := by
  rcases pointerWrite_cases idx data s with h | h | h | h <;> rw [h]
  · exact K.setRenderbase s data hs
  · exact K.setTexbase s data hs
  · exact K.setQuadSize s _ hs
  · exact K.emit s _ hs

theorem KeptByChanges.geometryUpdate (K : KeptByChanges cfg I) (s : State) (hs : I s) : I (Machine.geometryUpdate cfg s) := by
  unfold Machine.geometryUpdate
  rcases applyGeometry_cases (cfg.geometry s.regs) s with ⟨_, h⟩ | ⟨_, h⟩ <;> rw [h]
  · exact hs
  · exact K.setScreen _ _ (K.emit _ _ hs)

/-- A loop keeps what each of its iterations keeps; the iterations run only while nothing has failed. -/
theorem KeptByChanges.forRange {f : Nat → State → Result} {lo n : Nat} {s t : State}
    (each : ∀ i a b, f i a = .next b → a.fail = none → I a → I b)
    (h : Machine.forRange f lo n s = .next t) (hf : s.fail = none) (hs : I s) : I t := by
  induction n generalizing lo s with
  | zero =>
    simp only [Machine.forRange, Host.Outcome.next.injEq] at h
    exact h ▸ hs
  | succ n ih =>
    obtain ⟨u, hu, ⟨hfu, hr⟩ | ⟨_, rfl⟩⟩ := andThen_next h
    · exact ih hr hfu (each lo s u hu hf hs)
    · exact each lo s _ hu hf hs

theorem KeptByChanges.portAction (K : KeptByChanges cfg I) {a : PortAction} {s t : State}
    (h : Machine.portAction cfg a s = .next t) (hf : s.fail = none) (hs : I s) : I t := by
  rcases portAction_next h with rfl | ⟨o, v, _, rfl⟩ | ⟨b, addr, v, hc, rfl⟩ | ⟨f, rfl⟩ | ⟨idx, data, rfl⟩
  · exact hs
  · exact K.setReg s o v hs
  · exact K.store s b addr 1 v hc hs
  · exact K.setFail s f hf hs
  · exact K.pointerWrite idx data s hs

theorem KeptByChanges.portActions (K : KeptByChanges cfg I) {l : List PortAction} {s t : State}
    (h : Machine.portActions cfg l s = .next t) (hf : s.fail = none) (hs : I s) : I t := by
  induction l generalizing s with
  | nil =>
    simp only [Machine.portActions, Host.Outcome.next.injEq] at h
    exact h ▸ hs
  | cons a rest ih =>
    obtain ⟨u, hu, ⟨hfu, hr⟩ | ⟨_, rfl⟩⟩ := andThen_next h
    · exact ih hr hfu (K.portAction hu hf hs)
    · exact K.portAction hu hf hs

/-- A bus write to any offset but the FIFO trigger. -/
theorem KeptByChanges.busWrite (K : KeptByChanges cfg I) {o : Offset} {v : Word} {s t : State} (ho : o ≠ cfg.fifoTrigger)
    (h : Machine.busWrite cfg o v s = .next t) (hs : I s) : I t := by
  obtain ⟨hf, ⟨h1, _⟩ | ⟨_, rfl⟩ | ⟨_, rfl⟩ | ⟨_, h1⟩ | rfl⟩ := busWrite_next h
  · exact absurd h1 ho
  · exact K.pointerWrite _ _ _ (K.setReg s o v hs)
  · exact K.geometryUpdate _ (K.setReg s o v hs)
  · obtain ⟨f, _, h2⟩ := portWrite_next h1
    exact K.portActions h2 (by simpa using hf) (K.setReg s o v hs)
  · exact K.setReg s o v hs

theorem KeptByChanges.drawPixel (K : KeptByChanges cfg I) {e : Extra} {y x : Nat} {p : Sample} {s t : State}
    (h : Machine.drawPixel cfg e y x p s = .next t) (hf : s.fail = none) (hs : I s) : I t := by
  rcases drawPixel_next h with ⟨_, rfl⟩ | ⟨f, _, rfl⟩ | ⟨w, d, _, hp⟩
  · exact hs
  · exact K.setFail s f hf hs
  · obtain ⟨u, hu, ⟨hfu, hr⟩ | ⟨_, rfl⟩⟩ := andThen_next hp
    · exact K.memWrite hr hfu (K.memWrite hu hf hs)
    · exact K.memWrite hu hf hs

theorem KeptByChanges.scanConvert (K : KeptByChanges cfg I) {sv : List ScreenVertex} {e : Extra} {s t : State}
    (h : Machine.scanConvert cfg sv e s = .next t) (hf : s.fail = none) (hs : I s) : I t := by
  unfold Machine.scanConvert at h
  split at h
  · simp only [raise, Host.Outcome.next.injEq] at h
    exact h ▸ K.setFail s _ hf hs
  · refine KeptByChanges.forRange (fun y a b hab hfa ha => ?_) h hf hs
    unfold drawRow at hab
    split at hab
    · exact K.stop hab hfa ha
    · simp only [Host.Outcome.next.injEq] at hab
      exact hab ▸ ha
    · refine KeptByChanges.forRange (fun x c d hcd hfc hc => ?_) hab hfa ha
      unfold drawColumn at hcd
      split at hcd
      · exact K.stop hcd hfc hc
      · exact K.drawPixel hcd hfc hc

theorem classifyWidth_fail (texoffs : Word) (s : State) : (classifyWidth cfg texoffs s).2.fail = s.fail := by
  rcases classifyWidth_snd texoffs s with ⟨w, hw⟩ | ⟨cs, os, n, hw⟩ <;> rw [hw]
  rfl

theorem KeptByChanges.classifyWidth (K : KeptByChanges cfg I) (texoffs : Word) (s : State) (hs : I s) :
    I (Machine.classifyWidth cfg texoffs s).2 := by
  unfold Machine.classifyWidth
  split
  · exact K.setTexwidthPrev s _ hs
  · dsimp only
    split <;> split
    · exact hs
    · exact K.setSeenCodes _ _ (K.emit _ _ hs)
    · exact K.nextFree _ hs
    · exact K.nextFree _ (K.setSeenCodes _ _ (K.emit _ _ hs))

theorem KeptByChanges.quadDraw (K : KeptByChanges cfg I) {v0 v1 v2 v3 : QVertex} {texoffs : Word} {s t : State}
    (h : Machine.quadDraw cfg v0 v1 v2 v3 texoffs s = .next t) (hf : s.fail = none) (hs : I s) : I t := by
  obtain ⟨_, ⟨_, rfl⟩ | ⟨f, _, rfl⟩ | ⟨sv, _, h1⟩⟩ := quadDraw_next h
  · exact hs
  · exact K.setFail s f hf hs
  · exact K.scanConvert h1 (by rw [classifyWidth_fail]; exact hf) (K.classifyWidth _ _ hs)

theorem KeptByChanges.clearDepth (K : KeptByChanges cfg I) {c : Rect} {s t : State}
    (h : Machine.clearDepth cfg c s = .next t) (hf : s.fail = none) (hs : I s) : I t :=
  KeptByChanges.forRange (fun _ _ _ hab hfa ha =>
    KeptByChanges.forRange (fun _ _ _ hcd hfc hc => K.memWrite hcd hfc hc) hab hfa ha) h hf hs

/-- The changes that an instruction makes to the walker, the phase and the buffer, each where it happens. -/
structure KeptByControl (cfg : Cfg) (I : State → Prop) : Prop extends KeptByChanges cfg I where
  startWalk : ∀ s (count : BitVec 16) base, count.toNat ≤ cfg.dlCountMax → I s →
    I ((s.setWalker ⟨base, count.toNat, none, 0, [], s.quadSize, 0#32⟩).setPhase .walk)
  selectTexture : ∀ s w, I s → I (selectTexture w s)
  widen : ∀ s, s.walker.dlQuadsize = .ten → I s → I (s.setWalker { s.walker with dlQuadsize := .fourteen })
  push : ∀ s v, s.fail = none → s.fifo.length ≠ cfg.fifoCap → I s →
    I ((s.setFifo (s.fifo ++ [v])).setPhase .command)

/-- Every bus write. -/
theorem KeptByControl.anyBusWrite (K : KeptByControl cfg I) {o : Offset} {v : Word} {s t : State}
    (h : busWrite cfg o v s = .next t) (hs : I s) : I t := by
  by_cases ho : o = cfg.fifoTrigger
  · obtain ⟨hf, h⟩ := accepting_next h
    simp only [ho, if_true] at h
    obtain ⟨hc, rfl⟩ := fifoPush_next h
    exact K.push _ v (by simpa using hf) hc (K.setReg s _ v hs)
  · exact K.toKeptByChanges.busWrite ho h hs

/-- Every instruction keeps what every named change keeps. -/
theorem KeptByControl.exec (K : KeptByControl Config.defaults I) {i : Instr} {s t : State} (h : Machine.exec i s = .next t)
    (hf : s.fail = none) (hs : I s) : I t := by
  cases i with
  | setreg reg value =>
    simp only [Machine.exec, execSetreg, commandWrite] at h
    split at h
    · simp only [Host.Outcome.next.injEq] at h
      exact h ▸ hs
    · exact K.anyBusWrite h hs
  | setmat m p =>
    simp only [Machine.exec, execSetmat, Host.Outcome.next.injEq] at h
    exact h ▸ K.setPoint _ _ (K.setMatrix _ _ hs)
  | setmat8 pad m p =>
    simp only [Machine.exec, execSetmat8, Host.Outcome.next.injEq] at h
    exact h ▸ K.setPoint _ _ (K.setMatrix _ _ hs)
  | setpt15 p =>
    simp only [Machine.exec, execSetpt15, Host.Outcome.next.injEq] at h
    exact h ▸ K.setPoint _ _ hs
  | setpt16 p =>
    simp only [Machine.exec, execSetpt16, Host.Outcome.next.injEq] at h
    exact h ▸ K.setPoint _ _ hs
  | pt2clr p =>
    simp only [Machine.exec, execPt2clr, setPoint2AndClear] at h
    split at h
    · simp only [raise, Host.Outcome.next.injEq] at h
      exact h ▸ K.setFail _ _ (by simpa using hf) (K.setPoint2 _ _ hs)
    · exact K.clearDepth h (by simpa using hf) (K.setPoint2 _ _ hs)
  | model23 count base =>
    rcases startWalk_next h with ⟨_, rfl⟩ | ⟨hc, rfl⟩
    · exact K.setFail _ _ hf hs
    · exact K.startWalk _ _ _ hc hs
  | model24 count base =>
    rcases startWalk_next h with ⟨_, rfl⟩ | ⟨hc, rfl⟩
    · exact K.setFail _ _ hf hs
    · exact K.startWalk _ _ _ hc hs
  | sync31 =>
    simp only [Machine.exec, execSync31, Host.Outcome.next.injEq] at h
    exact h ▸ K.setQuadSize _ _ hs
  | sync32 =>
    simp only [Machine.exec, execSync32, Host.Outcome.next.injEq] at h
    exact h ▸ K.setQuadSize _ _ hs
  | dquad low ws =>
    simp only [Machine.exec, execDquad, Host.Outcome.next.injEq] at h
    exact h ▸ K.emit _ _ hs
  | nop40 low =>
    simp only [Machine.exec, execNop40, Host.Outcome.next.injEq] at h
    exact h ▸ K.emit _ _ hs
  | unk w =>
    simp only [Machine.exec, execUnk, Host.Outcome.next.injEq] at h
    exact h ▸ K.emit _ _ hs
  | dTexsel21 w =>
    simp only [Machine.exec, execDTexsel21, Host.Outcome.next.injEq] at h
    exact h ▸ K.selectTexture _ _ hs
  | dTexsel22 w =>
    simp only [Machine.exec, execDTexsel22, Host.Outcome.next.injEq] at h
    exact h ▸ K.selectTexture _ _ hs
  | dSync =>
    simp only [Machine.exec, execDSync, Host.Outcome.next.injEq] at h
    exact h ▸ hs
  | dSetreg reg value =>
    simp only [Machine.exec, execDSetreg, listWrite] at h
    split at h
    · simp only [raise, Host.Outcome.next.injEq] at h
      exact h ▸ K.setFail _ _ hf hs
    · exact K.anyBusWrite h hs
  | dQuad f a b c d => exact K.quadDraw h hf hs
  | dUnk v w =>
    simp only [Machine.exec, execDUnk] at h
    split at h <;> simp only [Host.Outcome.next.injEq] at h
    · rename_i hq
      exact h ▸ K.widen (s.emit _) hq (K.emit _ _ hs)
    · exact h ▸ K.emit _ _ hs
  | rd o =>
    obtain ⟨_, h⟩ := accepting_next h
    simp only [Host.Outcome.next.injEq] at h
    rcases busRead_snd o s with hr | hr <;> rw [hr] at h
    · exact h ▸ K.emit _ _ hs
    · exact h ▸ K.emit _ _ (K.nextFree _ hs)
  | wr o v => exact K.anyBusWrite h hs
  | push w => exact K.anyBusWrite h hs
  | ptrRender data => exact K.anyBusWrite h hs
  | ptrTex data => exact K.anyBusWrite h hs
  | ptrQsize data => exact K.anyBusWrite h hs

/-! ## Steps -/

/-- If a step answers next, no failure was recorded, and it moved without an instruction or ran one and retired it. -/
theorem step_next {s t : State} (h : step s = .next t) :
    s.fail = none ∧ (fetch Config.defaults s = .moved t
      ∨ ∃ i u v, fetch Config.defaults s = .run i u ∧ Machine.exec i u = .next v ∧ t = retire u.phase v) := by
  unfold step at h
  split at h
  · simp at h
  · rename_i hf
    refine ⟨hf, ?_⟩
    split at h
    · rename_i u hu
      simp only [Host.Outcome.next.injEq] at h
      exact .inl (h ▸ hu)
    · simp at h
    · rename_i i u hu
      split at h
      · rename_i v hv
        simp only [Host.Outcome.next.injEq] at h
        exact .inr ⟨i, u, v, hu, hv, h.symm⟩
      · simp at h
      · simp at h

/-- What `fetch` finds between transactions. -/
theorem fetch_idle {s : State} (h : s.phase = .idle) : fetch Config.defaults s = fetchInput Config.defaults s := by
  simp [fetch, h]

/-- What `fetch` finds after a push. -/
theorem fetch_command {s : State} (h : s.phase = .command) : fetch Config.defaults s = fetchCommand s := by
  simp [fetch, h]

/-- What `fetch` finds during a walk. -/
theorem fetch_walk {s : State} (h : s.phase = .walk) : fetch Config.defaults s = fetchRecord Config.defaults s := by
  simp [fetch, h]

/-- What follows an instruction that raised nothing. -/
theorem retire_running {p : Phase} {s : State} (h : s.fail = none) :
    retire p s =
      match p with
      | .idle => s
      | .command => (match s.phase with | .walk => s | .idle => finishCommand s | .command => finishCommand s)
      | .walk => clearBuffer s := by
  cases p <;> cases hp : s.phase <;> simp [retire, h, hp]

/-- After a failure nothing follows. -/
theorem retire_failed {p : Phase} {s : State} {f : Fault} (h : s.fail = some f) : retire p s = s := by
  simp [retire, h]

end Sys2Proof.Machine
end

