-- ==== Sys2Proof/Laws/PerInstr.lean ====
section
/-! SUPPORT. A law made per instruction: a well-formed instruction is encoded in as many words as spec/opcode_table.json gives its
row (`words`; a bus operation is one transaction). -/

namespace Sys2Proof.Laws.EncodeLength

/-- The number of words of an instruction's encoding, 1 for a bus transaction. -/
def count (c : Code) : Nat :=
  match c with
  | .fifo ws => ws.length
  | .list _ ws => ws.length
  | .bus _ => 1

/-- The `words` column of the opcode table (R131, R133): `D.QUAD` has as many as its framing. -/
def tableWordCount (i : Instr) : Nat :=
  match i with
  | .setreg _ _ => 2
  | .setmat _ _ => 13
  | .setmat8 _ _ _ => 14
  | .setpt15 _ => 4
  | .setpt16 _ => 4
  | .pt2clr _ => 4
  | .model23 _ _ => 2
  | .model24 _ _ => 2
  | .sync31 => 1
  | .sync32 => 1
  | .dquad _ _ => 12
  | .nop40 _ => 1
  | .unk _ => 1
  | .dTexsel21 _ => 2
  | .dTexsel22 _ => 2
  | .dSync => 2
  | .dSetreg _ _ => 2
  | .dQuad framing _ _ _ _ => framing.words
  | .dUnk _ _ => 2
  | .rd _ => 1
  | .wr _ _ => 1
  | .push _ => 1
  | .ptrRender _ => 1
  | .ptrTex _ => 1
  | .ptrQsize _ => 1

def Statement (i : Instr) : Prop := i.wf = true → count (encode i) = tableWordCount i

theorem setreg (reg : Offset) (value : Word) : Statement (.setreg reg value) := fun _ => rfl
theorem setmat (m : Mat3 Word) (p : Vec3 Word) : Statement (.setmat m p) := fun _ => rfl
theorem setmat8 (pad : Word) (m : Mat3 Word) (p : Vec3 Word) : Statement (.setmat8 pad m p) := fun _ => rfl
theorem setpt15 (p : Vec3 Word) : Statement (.setpt15 p) := fun _ => rfl
theorem setpt16 (p : Vec3 Word) : Statement (.setpt16 p) := fun _ => rfl
theorem pt2clr (p : Vec3 Word) : Statement (.pt2clr p) := fun _ => rfl
theorem model23 (count : BitVec 16) (base : Word) : Statement (.model23 count base) := fun _ => rfl
theorem model24 (count : BitVec 16) (base : Word) : Statement (.model24 count base) := fun _ => rfl
theorem sync31 : Statement .sync31 := fun _ => rfl
theorem sync32 : Statement .sync32 := fun _ => rfl
theorem dquad (low : BitVec 24) (ws : List Word) : Statement (.dquad low ws) := by
  intro h
  have h : ws.length = 11 := by simpa [Instr.wf] using h
  simp [encode, count, tableWordCount, h]
theorem nop40 (low : BitVec 24) : Statement (.nop40 low) := fun _ => rfl
theorem unk (w : Word) : Statement (.unk w) := fun _ => rfl
theorem dTexsel21 (texoffs : Word) : Statement (.dTexsel21 texoffs) := fun _ => rfl
theorem dTexsel22 (texoffs : Word) : Statement (.dTexsel22 texoffs) := fun _ => rfl
theorem dSync : Statement .dSync := fun _ => rfl
theorem dSetreg (reg : Offset) (value : Word) : Statement (.dSetreg reg value) := fun _ => rfl
theorem dQuad (framing : Framing) (v0 : QVertex) (v1 : QVertex) (v2 : QVertex) (v3 : QVertex) : Statement (.dQuad framing v0 v1 v2 v3) := by
  intro _
  cases framing <;> rfl
theorem dUnk (w0 : Word) (w1 : Word) : Statement (.dUnk w0 w1) := fun _ => rfl
theorem rd (o : Offset) : Statement (.rd o) := fun _ => rfl
theorem wr (o : Offset) (v : Word) : Statement (.wr o v) := fun _ => rfl
theorem push (w : Word) : Statement (.push w) := fun _ => rfl
theorem ptrRender (data : BitVec 24) : Statement (.ptrRender data) := fun _ => rfl
theorem ptrTex (data : BitVec 24) : Statement (.ptrTex data) := fun _ => rfl
theorem ptrQsize (data : BitVec 24) : Statement (.ptrQsize data) := fun _ => rfl

end Sys2Proof.Laws.EncodeLength
end

