-- ==== Sys2Proof/Tests/Slice0.lean ====
section
/-! SUPPORT. Tests on fixed values, each from the test vectors of the spec (95_test_vectors.md) or worked by hand from the rule its
comment names; and, for every statement that has hypotheses, a named state and operands that meet them. -/

namespace Sys2Proof.Tests

open Sys2Proof.Machine
open Sys2Proof.Config (defaults)

/-! ## Helpers -/

/-- A field of the next state, `none` where there is none. -/
def after {α : Type} (r : Result) (f : State → α) : Option α :=
  match r with
  | .next s => some (f s)
  | .fault _ => none
  | .refused _ => none

/-- The refusal a result ends in. -/
def refusal (r : Result) : Option Refusal :=
  match r with
  | .next _ => none
  | .fault _ => none
  | .refused e => some e

/-- The state after reset with one input waiting. -/
def waiting (i : Input) : State := { State.reset with inputs := [i] }

/-- The state after reset with a FIFO buffer the FIFO processor is about to look at. -/
def pushed (ws : List Word) : State := { State.reset with fifo := ws, phase := .command }

/-- Words from a byte address on. -/
def putWords (m : Memory) (a : Nat) : List Nat → Memory
  | [] => m
  | w :: ws => putWords (m.writeLE a w 4) (a + 4) ws

/-- Pairs of a number and a byte (or a halfword), at `base + n * k`. -/
def putEach (n base : Nat) (m : Memory) : List (Nat × Nat) → Memory
  | [] => m
  | (k, v) :: rest => putEach n base (m.writeLE (base + n * k) v n) rest

/-- A walk at its first record at bank 0 byte 8192, with `count`. -/
def walking (count : Nat) (ws : List Nat) : State :=
  { State.reset with
    phase := .walk
    wave0 := putWords [] 8192 ws
    walker := { Walker.clear with list := some 8192, count := count } }

/-- The identity matrix. -/
def identity : Mat3 F := ⟨.fin 1, .fin 0, .fin 0, .fin 0, .fin 1, .fin 0, .fin 0, .fin 0, .fin 1⟩

/-- A vertex of four or five small integers. -/
def vertex (x y z u v : Nat) : QVertex :=
  ⟨BitVec.ofNat 16 x, BitVec.ofNat 16 y, BitVec.ofNat 16 z, BitVec.ofNat 8 u, BitVec.ofNat 8 v⟩

/-- The texture and the palette of P3 (95_test_vectors.md). -/
def textures : Memory :=
  putEach 2 0x4000
    (putEach 1 0x8000 []
      [(0, 5), (1, 6), (2, 7), (4, 8), (5, 9), (6, 10), (512, 11), (513, 12), (514, 13)])
    [(5, 0x7E10), (6, 0x001F), (7, 0x03E0), (8, 0x7C00), (9, 0x7FFF), (10, 0), (11, 0x4210), (12, 0x0421), (13, 0x7FFF)]

/-- P4's start state, with the clip rectangle cut down to the pixel of column 257, row 201. -/
def drawing : State :=
  { State.reset with
    matrix := identity
    clip := some ⟨257, 257, 201, 201⟩
    texbase := 0x1000
    regs := State.reset.regs.set 0x41 0x00020000#32
    wave0 := textures
    wave1 := (Memory.writeLE [] 619012 0x00FF8484 4).writeLE 619018 0x2000 2
    walker := { Walker.clear with texoffs := 0x0000005D#32 }
    phase := .walk }

/-- Quad A of P4: farther than what is stored. -/
def quadA : Instr :=
  .dQuad .ten (vertex 0 0 1022 0 0) (vertex 4 0 1022 0 0) (vertex 4 4 1022 0 0) (vertex 0 4 1022 0 0)

/-- Quad B of P4: nearer. -/
def quadB : Instr :=
  .dQuad .ten (vertex 0 0 254 0 0) (vertex 1 0 254 2 0) (vertex 1 1 254 2 2) (vertex 0 1 254 0 2)

/-- The colour word and the depth of the pixel of column 257, row 201. -/
def pixel (s : State) : Nat × Nat :=
  (s.wave1.readLE .bank1 (colorAddr 0 201 257) 4, s.wave1.readLE .bank1 (depthAddr 0 201 257) 2)

/-- The defaults with `fl` the identity, so that `F` is the rationals and every rule exact (R9). -/
def exact : Cfg := { defaults with fl := F.fin }

/-- One instruction of each constructor. -/
def samples : List Instr :=
  [.setreg 0x7f#7 0xFFFFFFFF#32, .setmat ⟨1, 2, 3, 4, 5, 6, 7, 8, 9⟩ ⟨10, 11, 12⟩,
   .setmat8 0xCAFEF00D#32 ⟨1, 2, 3, 4, 5, 6, 7, 8, 9⟩ ⟨10, 11, 12⟩, .setpt15 ⟨1, 2, 3⟩, .setpt16 ⟨1, 2, 3⟩, .pt2clr ⟨1, 2, 3⟩,
   .model23 0xFFFF#16 1#32, .model24 0x8001#16 2#32, .sync31, .sync32,
   .dquad 0xFFFFFF#24 [1, 2, 3, 4, 5, 6, 7, 8, 9, 10, 11], .nop40 0x123456#24, .unk 0x2C000001#32]
  ++ [.dTexsel21 0x5D#32, .dTexsel22 0x5D#32, .dSync, .dSetreg 0x20#7 0x05000123#32,
      .dQuad .ten (vertex 1 2 3 4 5) (vertex 6 7 8 9 10) (vertex 11 12 13 14 15) (vertex 0xFFFF 17 18 0xFF 0xFE),
      .dQuad .fourteen (vertex 1 2 3 4 5) (vertex 6 7 8 9 10) (vertex 11 12 13 14 15) (vertex 0xFFFF 17 18 0xFF 0xFE),
      .dUnk 0x99000000#32 7#32]
  ++ [.rd 0x54#7, .wr 0x10#7 0xDEADBEEF#32, .wr 0x20#7 0x77123456#32, .push 0x05110000#32, .ptrRender 0x000190#24,
      .ptrTex 0x001000#24, .ptrQsize 1#24]

/-! ## WellFormed -/

/-- Eleven words must follow `DQUAD` (R131). -/
theorem test_wf_refuses_short_dquad : (Instr.dquad 0#24 [1, 2, 3]).wf = false := by decide
theorem test_wf_refuses_long_dquad : (Instr.dquad 0#24 [1, 2, 3, 4, 5, 6, 7, 8, 9, 10, 11, 12]).wf = false := by decide
/-- 0x31 is `SYNC31`, never `UNK` (R131). -/
theorem test_wf_refuses_known_unk : (Instr.unk 0x31000000#32).wf = false := by decide
/-- 0x29 is `D.SETREG`, never `D.UNK` (R133). -/
theorem test_wf_refuses_known_dUnk :
    (Instr.dUnk 0x21000000#32 0#32).wf = false ∧ (Instr.dUnk 0x31000000#32 0#32).wf = false
    ∧ (Instr.dUnk 0x29000000#32 0#32).wf = false ∧ (Instr.dUnk 0x38000000#32 0#32).wf = false := by decide
/-- A write of the FIFO trigger is `PUSH`, a write of a pointer index is that pointer row (R144). -/
theorem test_wf_refuses_push_as_wr : (Instr.wr 0x08#7 0#32).wf = false := by decide
theorem test_wf_refuses_pointer_as_wr : (Instr.wr 0x20#7 0x40000000#32).wf = false := by decide
theorem test_config_wf : defaults.wf = true := by decide

/-! ## Decoding: words written out from the encodings (R131 to R133, R136, R139) -/

theorem test_decode_setreg : decode defaults (.fifo [0x05FFFFFF#32, 1#32]) = .ok (.setreg 0x7f#7 1#32) := by decide
theorem test_decode_setmat :
    decode defaults (.fifo [0x07000000#32, 1, 2, 3, 4, 5, 6, 7, 8, 9, 10, 11, 12])
      = .ok (.setmat ⟨1, 2, 3, 4, 5, 6, 7, 8, 9⟩ ⟨10, 11, 12⟩) := by decide
theorem test_decode_setmat8 :
    decode defaults (.fifo [0x08000000#32, 99, 1, 2, 3, 4, 5, 6, 7, 8, 9, 10, 11, 12])
      = .ok (.setmat8 99 ⟨1, 2, 3, 4, 5, 6, 7, 8, 9⟩ ⟨10, 11, 12⟩) := by decide
theorem test_decode_setpt15 : decode defaults (.fifo [0x15000000#32, 1, 2, 3]) = .ok (.setpt15 ⟨1, 2, 3⟩) := by decide
theorem test_decode_setpt16 : decode defaults (.fifo [0x16000000#32, 1, 2, 3]) = .ok (.setpt16 ⟨1, 2, 3⟩) := by decide
theorem test_decode_pt2clr : decode defaults (.fifo [0x1C000000#32, 1, 2, 3]) = .ok (.pt2clr ⟨1, 2, 3⟩) := by decide
theorem test_decode_model23 : decode defaults (.fifo [0x23AB0005#32, 0x00010000#32]) = .ok (.model23 5#16 0x00010000#32) := by decide
theorem test_decode_model24 : decode defaults (.fifo [0x24002000#32, 0x00010000#32]) = .ok (.model24 0x2000#16 0x00010000#32) := by
  decide
theorem test_decode_sync31 : decode defaults (.fifo [0x31000000#32]) = .ok .sync31 := by decide
theorem test_decode_sync32 : decode defaults (.fifo [0x32FFFFFF#32]) = .ok .sync32 := by decide
theorem test_decode_dquad :
    decode defaults (.fifo [0x38000007#32, 1, 2, 3, 4, 5, 6, 7, 8, 9, 10, 11])
      = .ok (.dquad 7#24 [1, 2, 3, 4, 5, 6, 7, 8, 9, 10, 11]) := by decide
theorem test_decode_nop40 : decode defaults (.fifo [0x40123456#32]) = .ok (.nop40 0x123456#24) := by decide
theorem test_decode_unk :
    decode defaults (.fifo [0x00000000#32]) = .ok (.unk 0#32) ∧ decode defaults (.fifo [0x2C000000#32]) = .ok (.unk 0x2C000000#32)
    ∧ decode defaults (.fifo [0xFF000000#32]) = .ok (.unk 0xFF000000#32) := by decide
theorem test_decode_incomplete :
    decode defaults (.fifo [0x05110000#32]) = .error (.incomplete 1 2) ∧ decode defaults (.fifo []) = .error .empty := by decide
theorem test_decode_dTexsel :
    decode defaults (.list .ten [0x21000000#32, 0x5D#32]) = .ok (.dTexsel21 0x5D#32)
    ∧ decode defaults (.list .fourteen [0x22000000#32, 0x5D#32]) = .ok (.dTexsel22 0x5D#32) := by decide
theorem test_decode_dSync : decode defaults (.list .ten [0x31000000#32, 9#32]) = .ok .dSync := by decide
theorem test_decode_dSetreg : decode defaults (.list .ten [0x29080000#32, 0x40000000#32]) = .ok (.dSetreg 0x08#7 0x40000000#32) := by
  decide
/-- Quad B of P4: `q[4]` is `u1<<2 | v1<<12 | u2<<22`, `q[5]` is `v2<<2 | u3<<12 | v3<<22`. -/
theorem test_decode_dQuad :
    decode defaults (.list .ten [0x38000000#32, 0, 0x00010000#32, 0, 0x00800008#32, 0x00800008#32, 0x00FE00FE#32, 0x00FE00FE#32, 1,
      0x00010001#32]) = .ok quadB := by decide
/-- `q[1]` holds `u0` at bit 2 and `v0` at bit 18 (R136). -/
theorem test_decode_dQuad_texcoord0 :
    (quadAt defaults .ten [0x38000000#32, 0x02A80154#32]) = .dQuad .ten (vertex 0 0 0 0x55 0xAA) (vertex 0 0 0 0 0) (vertex 0 0 0 0 0)
      (vertex 0 0 0 0 0) := by decide
theorem test_decode_dUnk : decode defaults (.list .ten [0x99000000#32, 7#32]) = .ok (.dUnk 0x99000000#32 7#32) := by decide
theorem test_decode_bus :
    decode defaults (.bus (.read 0x54#7)) = .ok (.rd 0x54#7) ∧ decode defaults (.bus (.write 0x10#7 5#32)) = .ok (.wr 0x10#7 5#32)
    ∧ decode defaults (.bus (.write 0x08#7 5#32)) = .ok (.push 5#32)
    ∧ decode defaults (.bus (.write 0x20#7 0x04000190#32)) = .ok (.ptrRender 0x190#24)
    ∧ decode defaults (.bus (.write 0x20#7 0x05001000#32)) = .ok (.ptrTex 0x1000#24)
    ∧ decode defaults (.bus (.write 0x20#7 0x40000001#32)) = .ok (.ptrQsize 1#24)
    ∧ decode defaults (.bus (.write 0x20#7 0x77123456#32)) = .ok (.wr 0x20#7 0x77123456#32) := by decide
theorem test_decode_encode_samples : ∀ i ∈ samples, decode defaults (encode i) = .ok i := by decide
theorem test_decode_table_word :
    decodeTableWord 64 (0x12345678 * 2 ^ 32 + 0x05110000) = some (.setreg 0x11#7 0x12345678#32)
    ∧ decodeTableWord 32 0x23000005 = some (.model23 5#16 0#32) := by decide

/-! ## Numbers and addresses (V-FLOAT, V-ADDR, V-PROJ, V-WIDTH, V-SHADE) -/

theorem test_dspFloat_units :
    dspFloat defaults 0x00000000#32 = .fin 1 ∧ dspFloat defaults 0x80FFFFFF#32 = .fin 0 ∧ dspFloat defaults 0xFF000000#32 = .fin (mkRat 1 2)
    ∧ dspFloat defaults 0xFF800000#32 = .fin (-1) ∧ dspFloat defaults 0x00800000#32 = .fin (-2) := by decide +kernel
theorem test_dspFloat_fractions :
    dspFloat defaults 0x00C00000#32 = .fin (mkRat (-3) 2) ∧ dspFloat defaults 0x03200000#32 = .fin 10 ∧ dspFloat defaults 0x08FF0000#32 = .fin (-258)
    ∧ dspFloat defaults 0x05100000#32 = .fin 36 := by decide +kernel
theorem test_dspFloat_corners :
    dspFloat defaults 0x7F7FFFFF#32 = .fin (mkRat ((2 ^ 24 - 1) * 2 ^ 104) 1) ∧ dspFloat defaults 0x81000000#32 = .fin (mkRat 1 (2 ^ 127))
    ∧ dspFloat defaults 0x7F800000#32 = .negInf := by decide +kernel
/-- 1/10 in binary32 is 13421773 * 2^-27; 2^24 + 1 is a tie and goes to even. -/
theorem test_fl_rounds : fl (mkRat 1 10) = .fin (mkRat 13421773 (2 ^ 27)) ∧ fl (mkRat 16777217 1) = .fin 16777216 := by
  decide +kernel
theorem test_expand0 :
    expand0 defaults 0x400#32 = 0 ∧ expand0 defaults 0x00010001#32 = 8200 ∧ expand0 defaults 0x07FF03FF#32 = 0xFFFFF8 ∧ expand0 defaults 0xFFFFFFFF#32 = 0xFFFFF8
    ∧ expand0 defaults 0x08000400#32 = 0 := by decide
theorem test_expand1 :
    expand1 defaults 1#32 = 12 ∧ expand1 defaults 0x00010000#32 = 6144 ∧ expand1 defaults 0x01900000#32 = 2457600 ∧ expand1 defaults 0x03FF01FF#32 = 6291444
    ∧ expand1 defaults 0xFFFFFFFF#32 = 6291444 := by decide
theorem test_pixel_addresses :
    colorAddr 0 200 256 = 615936 ∧ depthAddr 0 200 256 = 615944 ∧ colorAddr 0 511 511 = 1572856 ∧ depthAddr 0 511 511 = 1572862
    ∧ colorAddr 0 512 512 = 0 ∧ depthAddr 0 0 513 = 10 := by decide
theorem test_texelOffset :
    texelOffset .w256 1 1 = 5 ∧ texelOffset .w256 0 4 = 8 ∧ texelOffset .w64 2 0 = 128 ∧ texelOffset .w128 3 5 = 269
    ∧ texelOffset .w256 255 255 = 65535 ∧ texelOffset .w64 0 64 = 128 := by decide
theorem test_rnd :
    rnd (mkRat 5 2) = 2 ∧ rnd (mkRat 2585005 10000) = 259 ∧ rnd (mkRat 517 2) = 258 ∧ rnd (mkRat (-1) 2) = -1
    ∧ rnd (mkRat (-4) 10) = 0 := by decide +kernel
theorem test_mix : mix 0 255 128 = 127 ∧ mix 255 0 1 = 254 ∧ mix 132 0 255 = 0 ∧ mix 100 100 200 = 100 := by decide
theorem test_entryColor :
    entryColor 0xFE10#16 = ⟨255, 132, 132⟩ ∧ entryColor 0x4210#16 = ⟨132, 132, 132⟩ ∧ entryColor 0x0421#16 = ⟨8, 8, 8⟩ := by
  decide
theorem test_fixedPoint :
    fixedPoint defaults ⟨mkRat 204799 100, mkRat 39990 20000, 1⟩ = .ok (some ⟨32767, 1, 255, 1, 0⟩)
    ∧ fixedPoint defaults ⟨2048, mkRat 99975 100000, 0⟩ = .ok (some ⟨32767, 0, 255, 0, 0⟩)
    ∧ fixedPoint defaults ⟨mkRat (-1) 2, 0, 0⟩ = .ok none
    ∧ fixedPoint defaults ⟨1, mkRat (-1) 2, 0⟩ = .error (.refuse .negativeTexel) := by decide +kernel
theorem test_near_crossing :
    nearCrossing defaults ⟨0, 64, 8, 0, 64⟩ ⟨0, 0, 0, 0, 0⟩ = .ok ⟨0, mkRat 1 256, mkRat 1 2048, 0, mkRat 1 256⟩ := by decide +kernel
theorem test_project :
    project defaults ⟨4, 4, 1024, 0, 0⟩ = .ok ⟨mkRat 517 2, mkRat 405 2, 1024, 0, 0⟩
    ∧ project defaults ⟨-256, -200, 512, 0, 0⟩ = .ok ⟨mkRat 1 2, mkRat 1 2, 512, 0, 0⟩ := by decide +kernel
/-- The transform of P2 on the vertex (3, 4, 5). -/
theorem test_camVertex :
    camVertex defaults ⟨.fin 1, .fin 0, .fin 0, .fin 0, .fin (-1), .fin 0, .fin 0, .fin 0, .fin 2⟩
      ⟨.fin 10, .fin (-3), .fin (mkRat 1 4)⟩ (.fin 2) 0x00040000#32 (vertex 3 4 5 6 7)
      = .ok ⟨13, -7, mkRat 49 4, 6, 11⟩ := by decide +kernel
/-- R9: with `fl` as the identity, the same integers. -/
theorem test_exact_arithmetic :
    camVertex exact ⟨.fin 1, .fin 0, .fin 0, .fin 0, .fin (-1), .fin 0, .fin 0, .fin 0, .fin 2⟩
      ⟨.fin 10, .fin (-3), .fin (mkRat 1 4)⟩ (.fin 2) 0x00040000#32 (vertex 3 4 5 6 7) = .ok ⟨13, -7, mkRat 49 4, 6, 11⟩
    ∧ project exact ⟨4, 4, 1024, 0, 0⟩ = .ok ⟨mkRat 517 2, mkRat 405 2, 1024, 0, 0⟩
    ∧ fixedPoint exact ⟨mkRat 204799 100, mkRat 39990 20000, 1⟩ = .ok (some ⟨32767, 1, 255, 1, 0⟩) := by decide +kernel
/-- A configuration with another FIFO trigger: the push is at its offset (R175). -/
theorem test_other_trigger :
    after (busWrite { defaults with fifoTrigger := 0x10#7 } 0x10#7 5#32 State.reset) (fun s => s.fifo) = some [5#32]
    ∧ after (busWrite { defaults with fifoTrigger := 0x10#7 } 0x08#7 5#32 State.reset) (fun s => s.fifo) = some [] := by decide
theorem test_classifyWidth :
    (classifyWidth defaults 0x0004F15D#32 State.reset).1 = .w256
    ∧ (classifyWidth defaults 0x159#32 State.reset).2.texwidthPrev = some .w128
    ∧ (classifyWidth defaults 0#32 (State.reset.setTexwidthPrev .w128)).1 = .w128 := by decide

/-! ## Instructions -/

theorem test_rd_overrides :
    after (exec (.rd 0#7) (State.reset.setReg 0#7 0xFFFFFFFF#32)) State.outputs = some [.readData 0#7 0x20#32]
    ∧ after (exec (.rd 7#7) State.reset) State.outputs = some [.readData 7#7 0x10451998#32]
    := by decide
/-- The status word with the display in vblank and not, and the scan word of line 0x123. -/
theorem test_display_words :
    statusWord defaults true = 4#32 ∧ statusWord defaults false = 0#32 ∧ scanPos 0x123 = 0x01230123#32 := by decide
/-- Each answer of the display is that of its own call. -/
theorem test_rd_asks_display :
    after (exec (.rd 1#7) State.reset) (fun s => (s.outputs, s.freeIndex))
      = some ([.readData 1#7 (statusWord defaults (Config.displayVblank 0))], 1)
    ∧ after (exec (.rd 0x54#7) State.reset.nextFree) (fun s => (s.outputs, s.freeIndex))
      = some ([.readData 0x54#7 (scanPos (Config.displayVpos 1))], 2) := ⟨rfl, rfl⟩
theorem test_rd_stored :
    after (exec (.rd 0x10#7) (State.reset.setReg 0x10#7 0xDEADBEEF#32)) State.outputs
      = some [.readData 0x10#7 0xDEADBEEF#32] := by decide
theorem test_wr_stores :
    after (exec (.wr 0x10#7 0xDEADBEEF#32) State.reset) (fun s => s.reg 0x10#7) = some 0xDEADBEEF#32 := by decide
theorem test_wr_unknown_pointer :
    after (exec (.wr 0x20#7 0x77123456#32) State.reset) (fun s => (s.reg 0x20#7, s.outputs))
      = some (0x77123456#32, [.log (.pointerUnknown 0x77#8 0x123456#24)]) := by decide
theorem test_push_appends :
    after (exec (.push 0x05110000#32) State.reset) (fun s => (s.fifo, s.reg 0x08#7))
      = some ([0x05110000#32], 0x05110000#32) := by decide
theorem test_ptrRender :
    after (exec (.ptrRender 0x000190#24) State.reset) (fun s => s.renderbase) = some 2457600
    ∧ after (exec (.ptrRender 0xFF0400#24) State.reset) (fun s => s.renderbase) = some 0 := by decide
theorem test_ptrTex :
    after (exec (.ptrTex 0x300000#24) State.reset) (fun s => s.texbase) = some 0x100000 := by decide
theorem test_ptrQsize :
    after (exec (.ptrQsize 1#24) State.reset) (fun s => s.quadSize) = some .fourteen
    ∧ after (exec (.ptrQsize 0#24) (State.reset.setQuadSize .fourteen)) (fun s => s.quadSize) = some .ten := by decide
/-- P1 step 10. -/
theorem test_setreg_has_side_effect :
    after (step (pushed [0x05200000#32, 0x05000123#32])) (fun s => (s.texbase, s.reg 0x20#7, s.fifo))
      = some (0x123, 0x05000123#32, []) := by decide
/-- P1 step 7. -/
theorem test_setreg_fifo_trigger_skipped :
    after (step (pushed [0x05080000#32, 0xAAAAAAAA#32])) (fun s => (s.reg 0x08#7, s.fifo)) = some (0#32, []) := by decide
/-- P2 step 1. -/
theorem test_setmat :
    after (step (pushed [0x07000000#32, 0x00000000#32, 0x80000000#32, 0x80000000#32, 0x80000000#32, 0xFF800000#32,
      0x80000000#32, 0x80000000#32, 0x80000000#32, 0x01000000#32, 0x03200000#32, 0x01C00000#32, 0xFE000000#32]))
      (fun s => (s.matrix, s.point))
      = some (⟨.fin 1, .fin 0, .fin 0, .fin 0, .fin (-1), .fin 0, .fin 0, .fin 0, .fin 2⟩,
              ⟨.fin 10, .fin (-3), .fin (mkRat 1 4)⟩) := by decide +kernel
/-- P2 step 3. -/
theorem test_setmat8 :
    after (step (pushed [0x08000000#32, 0xCAFEF00D#32, 0x00000000#32, 0x80000000#32, 0x80000000#32, 0x80000000#32,
      0x00000000#32, 0x80000000#32, 0x80000000#32, 0x80000000#32, 0x00000000#32, 0x80000000#32, 0x80000000#32,
      0x80000000#32])) (fun s => (s.matrix, s.point)) = some (identity, ⟨.fin 0, .fin 0, .fin 0⟩) := by decide +kernel
/-- P2 step 4. -/
theorem test_setpt15 :
    after (step (pushed [0x15000000#32, 0x00000000#32, 0x01000000#32, 0x09000000#32])) (fun s => s.point)
      = some ⟨.fin 1, .fin 2, .fin 512⟩ := by decide +kernel
/-- P2 step 2. -/
theorem test_setpt16 :
    after (step (pushed [0x16000000#32, 0x80000000#32, 0x80000000#32, 0xFF000000#32])) (fun s => s.point)
      = some ⟨.fin 0, .fin 0, .fin (mkRat 1 2)⟩ := by decide +kernel
/-- P7 (a). -/
theorem test_pt2clr_unset_clip :
    after (step (pushed [0x1C000000#32, 0x00000000#32, 0x01000000#32, 0x09000000#32])) (fun s => (s.point2, s.fail, s.fifo.length))
      = some (⟨.fin 1, .fin 2, .fin 512⟩, some .unsetClip, 4) := by decide +kernel
/-- One pixel filled: its depth only (R217). -/
theorem test_pt2clr_fills_depth :
    after (exec (.pt2clr ⟨0, 0, 0⟩) drawing) pixel = some (0x00FF8484, 0x7FFF) := by decide +kernel
/-- P6, and its boundary. -/
theorem test_model24_fatal :
    after (step (pushed [0x24002000#32, 0x00010000#32])) (fun s => (s.fail, s.fifo.length))
      = some (some (.displayListFatal 0x00010000#32 0x2000), 2) := by decide
theorem test_model23_bound :
    after (exec (.model23 0x1000#16 0#32) State.reset) (fun s => (s.fail, s.phase, s.walker.count)) = some (none, .walk, 4096)
    ∧ after (exec (.model23 0x1001#16 0#32) State.reset) (fun s => s.fail) = some (some (.displayListFatal 0#32 4097)) := by
  decide
theorem test_sync :
    after (exec .sync31 (State.reset.setQuadSize .fourteen)) (fun s => s.quadSize) = some .ten
    ∧ after (exec .sync32 (State.reset.setQuadSize .fourteen)) (fun s => s.quadSize) = some .ten := by decide
theorem test_logged_commands :
    after (exec (.nop40 0x123456#24) State.reset) State.outputs = some [.log (.nop40 0x40123456#32)]
    ∧ after (step (pushed [0x2C000000#32])) (fun s => (s.outputs, s.fifo)) = some ([.log (.fifoUnknown 0x2C000000#32)], [])
    ∧ after (exec (.dquad 7#24 [1]) State.reset) State.outputs = some [.log (.directQuad [0x38000007#32, 1])] := by decide
/-- V-DL: a record of `D.TEXSEL`, `D.SETREG` and `D.UNK`. -/
theorem test_dTexsel :
    after (step (walking 0 [0x21000000, 0x5D])) (fun s => (s.walker.texoffs, s.walker.buf, s.walker.list))
      = some (0x5D#32, [], none)
    ∧ after (step (walking 0 [0x22000000, 0x5E])) (fun s => s.walker.texoffs) = some 0x5E#32 := by decide
theorem test_dSync :
    after (step (walking 1 [0x31000000, 0])) (fun s => (s.walker.cur, s.walker.list, s.walker.buf)) = some (1, some 8192, []) := by
  decide
theorem test_dSetreg_has_side_effect :
    after (step (walking 0 [0x29200000, 0x05000123])) (fun s => (s.texbase, s.reg 0x20#7)) = some (0x123, 0x05000123#32) := by
  decide
theorem test_dSetreg_fifo_trigger :
    after (step (walking 0 [0x29080000, 0x40000000])) (fun s => (s.fail, s.reg 0x08#7))
      = some (some (.reentrantFifo 0x08#7 0x40000000#32), 0#32) := by decide
theorem test_dUnk_widens :
    after (step (walking 0 [0x99000000, 0])) (fun s => (s.walker.dlQuadsize, s.quadSize, s.outputs))
      = some (.fourteen, .ten, [.log .correctingQuadSize]) := by decide
theorem test_dUnk_logged :
    after (exec (.dUnk 0#32 0#32) (drawing.setWalker { Walker.clear with dlQuadsize := .fourteen })) State.outputs
      = some [.log (.dlUnknown 0#32 0#32)] := by decide
/-- P4, pixel (257, 201): quad A is rejected by depth, quad B blends and overwrites. -/
theorem test_dQuad_farther_rejected : after (exec quadA drawing) pixel = some (0x00FF8484, 0x2000) := by decide +kernel
theorem test_dQuad_nearer_drawn : after (exec quadB drawing) pixel = some (0x00FEFDFE, 0x1000) := by decide +kernel

/-! ## What a step adds; the events -/

theorem test_incomplete_arms_timer :
    after (step (pushed [0x05110000#32])) (fun s => (s.fifo, s.tFifo, s.phase)) = some ([0x05110000#32], .pending, .idle) := by
  decide
theorem test_fire_fifo :
    after (step ((waiting (.fire .fifo)).setFifoTimer .pending)) (fun s => (s.irqFifo, s.tFifo)) = some (true, .idle) := by decide
/-- The diagnostic inputs (R354); a quad while the toggle is active; a quad whose near clip gives six vertices (R286). -/
theorem test_diagnostic_inputs :
    after (step (waiting (.setZbase (.fin 3)))) (fun s => s.zbase) = some (.fin 3)
    ∧ after (step (waiting (.debugToggle true))) (fun s => s.debugToggle) = some true := by decide
theorem test_refused_quads :
    refusal (exec quadB (drawing.setDebugToggle true)) = some .debugToggleActive
    ∧ refusal (exec (.dQuad .ten (vertex 0 0 0xFFFE 0 0) (vertex 64 0 6 0 0) (vertex 64 64 0xFFFE 0 0) (vertex 0 64 6 0 0))
        drawing) = some .sixVertexClip := by decide +kernel
theorem test_failed_state_stops :
    step (State.reset.setFail .unsetClip) = .fault .unsetClip := by rfl
theorem test_geometry_bounds :
    GeomAnswer.accepted ⟨640, 432, ⟨0, 511, 0, 399⟩, 0, 0, 511, 399, false, 0⟩ = true
    ∧ GeomAnswer.accepted ⟨640, 432, ⟨0, 640, 0, 399⟩, 0, 0, 511, 399, false, 0⟩ = false
    ∧ GeomAnswer.accepted ⟨640, 432, ⟨10, 5, 0, 399⟩, 0, 0, 511, 399, false, 0⟩ = false
    ∧ GeomAnswer.accepted ⟨640, 0, ⟨0, 511, 0, 399⟩, 0, 0, 511, 399, false, 0⟩ = false
    ∧ GeomAnswer.clip ⟨640, 432, ⟨0, 511, 0, 399⟩, 0, 0, 511, 399, false, 0⟩ = ⟨0, 511, 0, 399⟩ := by decide
theorem test_little_endian :
    Memory.byteAt .bank1 (Memory.writeLE [] 8 0x7FFF 2) 8 = 0xFF#8 ∧ Memory.byteAt .bank1 (Memory.writeLE [] 8 0x7FFF 2) 9 = 0x7F#8 :=
  by decide
theorem test_bank_ends :
    checkAccess defaults .bank0 16777215 1 = .ok () ∧ checkAccess defaults .bank1 6291456 2 = .error (.raise (.waveRange .bank1 6291456 2))
    ∧ checkAccess defaults .bank0 16777214 4 = .error (.raise (.waveRange .bank0 16777214 4))
    ∧ checkAccess defaults .bank0 2 4 = .error (.refuse (.misalignedWaveAccess .bank0 2 4)) := by
  decide
theorem test_placed_word_runs :
    after (step (State.reset.withFetchWord 32 0x40000001)) State.outputs = some [.log (.nop40 0x40000001#32)] := by decide

/-! ## Witnesses: a state and operands that meet the hypotheses of each statement, clause by clause -/

/-- A result that is a next state. -/
def isNext (r : Result) : Bool :=
  match r with
  | .next _ => true
  | .fault _ => false
  | .refused _ => false

/-- An answer that is a value. -/
def isOk {α : Type} (r : Access α) : Bool :=
  match r with
  | .ok _ => true
  | .error _ => false

/-- An answer that is a polygon. -/
def isPolygon (r : Access (Option (List ScreenVertex))) : Bool :=
  match r with
  | .ok (some _) => true
  | .ok none => false
  | .error _ => false

theorem exists_next {r : Result} (h : isNext r = true) : ∃ t, r = .next t := by
  cases r with
  | next t => exact ⟨t, rfl⟩
  | fault f => simp [isNext] at h
  | refused f => simp [isNext] at h

theorem exists_ok {α : Type} {r : Access α} (h : isOk r = true) : ∃ a, r = .ok a := by
  cases r with
  | ok a => exact ⟨a, rfl⟩
  | error e => simp [isOk] at h

theorem exists_polygon {r : Access (Option (List ScreenVertex))} (h : isPolygon r = true) : ∃ sv, r = .ok (some sv) := by
  cases r with
  | ok o => cases o with
    | some sv => exact ⟨sv, rfl⟩
    | none => simp [isPolygon] at h
  | error e => simp [isPolygon] at h

theorem witness_DecodeEncodeAgree : ∀ i ∈ samples, i.wf = true := by decide

theorem witness_UnnamedBitsHaveNoEffect :
    (topByte 0x05100000#32 = topByte 0x0590FFFF#32 ∧ topByte 0x05100000#32 = 0x05#8
      ∧ regField 0x05100000#32 = regField 0x0590FFFF#32)
    ∧ (topByte 0x23FF0005#32 = topByte 0x23000005#32 ∧ topByte 0x23FF0005#32 ∈ [0x23#8, 0x24#8]
      ∧ lowHalf 0x23FF0005#32 = lowHalf 0x23000005#32)
    ∧ (topByte 0x32FFFFFF#32 = topByte 0x32000000#32
      ∧ topByte 0x32FFFFFF#32 ∈ [0x07#8, 0x08#8, 0x15#8, 0x16#8, 0x1c#8, 0x31#8, 0x32#8])
    ∧ (topByte 0x29200000#32 = topByte 0x29A0FFFF#32 ∧ topByte 0x29200000#32 = 0x29#8
      ∧ regField 0x29200000#32 = regField 0x29A0FFFF#32)
    ∧ (topByte 0x22FFFFFF#32 = topByte 0x22000000#32 ∧ topByte 0x22FFFFFF#32 ∈ [0x21#8, 0x22#8, 0x31#8])
    ∧ (let q := [0x38000000#32, 0x02A80154#32, 1, 2, 0x3FCFF3FC#32, 0x3FCFF3FC#32, 3, 4, 5, 6, 0, 0, 0, 0]
      let q' := [0x38FFFFFF#32, 0xFEABFD57#32, 1, 2, 0xFFFFFFFF#32, 0xFFFFFFFF#32, 3, 4, 5, 6, 7, 8, 9, 10]
      q.length = q'.length ∧ topByte (q.getD 0 0#32) = 0x38#8 ∧ topByte (q'.getD 0 0#32) = 0x38#8
      ∧ (∀ f ∈ [(1, 2), (1, 18), (4, 2), (4, 12), (4, 22), (5, 2), (5, 12), (5, 22)],
          (q.getD f.1 0#32).extractLsb' f.2 8 = (q'.getD f.1 0#32).extractLsb' f.2 8)
      ∧ (∀ k ∈ [2, 3, 6, 7, 8, 9], q.getD k 0#32 = q'.getD k 0#32)) := by decide

theorem witness_StepRunsDecodedInstruction :
    ((waiting (.bus (.read 0x10#7))).fail = none ∧ (waiting (.bus (.read 0x10#7))).phase = .idle
      ∧ (waiting (.bus (.read 0x10#7))).inputs = [.bus (.read 0x10#7)])
    ∧ ((pushed [0x31000000#32]).fail = none ∧ (pushed [0x31000000#32]).phase = .command
      ∧ decodeFifo (pushed [0x31000000#32]).fifo = .ok .sync31)
    ∧ ((walking 0 [0x31000000, 0]).fail = none ∧ (walking 0 [0x31000000, 0]).phase = .walk
      ∧ (walking 0 [0x31000000, 0]).walker.list = some 8192
      ∧ readRecord defaults (walking 0 [0x31000000, 0]).wave0 8192 (walking 0 [0x31000000, 0]).walker.cur
          = .ok (0x31000000#32, 0#32)
      ∧ decodeList defaults .ten ([] ++ [0x31000000#32, 0#32]) = .ok .dSync) := by decide

theorem witness_PlacedTableWordRunsNext :
    decodeTableWord 32 0x31000000 = some .sync31
    ∧ decodeTableWord 64 (0x5D * 2 ^ 32 + 0x21000000) = some (.dTexsel21 0x5D#32)
    ∧ decodeTableWord 32 0x04000190 = some (.ptrRender 0x190#24) := by decide

theorem witness_ReadAnswersOverrideOrStored : State.reset.fail = none := rfl

/-- A plain offset, the FIFO trigger, the pointer register, a timing offset; a command and a sub-command under way. -/
theorem witness_WriteThenReadAnswersValue :
    (∀ o ∈ [0x10#7, 0x08#7, 0x20#7, 0x33#7], o ∉ [0#7, 1#7, 7#7, Config.scanposOffset] ∧ o ∉ Config.portOffsets
      ∧ ∃ t, exec (.wr o 5#32) State.reset = .next t)
    ∧ ((pushed [0x05100000#32, 5#32]).phase ≠ .idle ∧ ∃ t, step (pushed [0x05100000#32, 5#32]) = .next t)
    ∧ ((walking 0 [0x29200000, 1]).phase ≠ .idle ∧ ∃ t, step (walking 0 [0x29200000, 1]) = .next t) := by
  simp only [List.mem_cons, List.not_mem_nil, or_false, forall_eq_or_imp, forall_eq]
  exact ⟨⟨⟨by decide, by decide, _, rfl⟩, ⟨by decide, by decide, _, rfl⟩, ⟨by decide, by decide, _, rfl⟩,
    ⟨by decide, by decide, _, rfl⟩⟩, ⟨by decide, exists_next (by decide)⟩, ⟨by decide, exists_next (by decide)⟩⟩

theorem witness_UnassignedWriteOnlyStores :
    State.reset.fail = none ∧ ∀ o ∈ [0#7, 0x7f#7], o ≠ Config.fifoTrigger ∧ o ≠ Config.ptrPrimary
      ∧ o ∉ Config.timingOffsets ∧ o ∉ Config.portOffsets := by decide

/-- The last column and row may be visible, the one after may not. -/
theorem witness_TimingWriteAppliesAcceptedGeometry :
    (State.reset.fail = none ∧ 0x33#7 ∈ Config.timingOffsets ∧ 0x37#7 ∈ Config.timingOffsets)
    ∧ (let g : GeomAnswer := ⟨640, 432, ⟨0, 639, 0, 431⟩, 0, 0, 511, 399, false, 60⟩
      0 < g.htotal ∧ 0 < g.vtotal ∧ g.vis.minX ≤ g.vis.maxX ∧ g.vis.minY ≤ g.vis.maxY
        ∧ 0 ≤ g.vis.minX ∧ g.vis.maxX < g.htotal ∧ 0 ≤ g.vis.minY ∧ g.vis.maxY < g.vtotal)
    ∧ (let g : GeomAnswer := ⟨640, 432, ⟨0, 640, 0, 431⟩, 0, 0, 511, 399, false, 60⟩
      ¬ (0 < g.htotal ∧ 0 < g.vtotal ∧ g.vis.minX ≤ g.vis.maxX ∧ g.vis.minY ≤ g.vis.maxY
        ∧ 0 ≤ g.vis.minX ∧ g.vis.maxX < g.htotal ∧ 0 ≤ g.vis.minY ∧ g.vis.maxY < g.vtotal)) := by decide

theorem witness_PortWriteIsPortEffect :
    State.reset.fail = none ∧ 0x40#7 ∈ Config.portOffsets ∧ 0x5e#7 ∈ Config.portOffsets := by decide

/-- An action of each kind, the byte at the end of its bank. -/
def actions : List PortAction := [.setReg 0x40#7 1#32, .setByte .bank0 16777215 1#8, .pointer 0x05#8 1#24]

theorem witness_PortEffectTouchesNothingElse :
    (∃ t, portActions defaults actions State.reset = .next t) ∧ State.reset.fail = none
    ∧ (∀ b a v, PortAction.setByte b a v ∈ actions → a < bankSize defaults b)
    ∧ (∀ v, PortAction.setReg 0x41#7 v ∉ actions) ∧ (∀ v, PortAction.setByte .bank0 16777214 v ∉ actions)
    ∧ (∀ idx data, PortAction.pointer idx data ∉ actions.take 2)
    ∧ (∀ b, bankSize defaults b - 1 < bankSize defaults b ∧ bankSize defaults b ≤ bankSize defaults b)
    ∧ ∀ a ∈ actions, ∃ u, portActions defaults [a] State.reset = .next u := by
  refine ⟨exists_next (by decide), rfl, ?_, by simp [actions], by simp [actions], by simp [actions], ?_, ?_⟩
  · intro b a v h
    simp only [actions, List.mem_cons, List.not_mem_nil, or_false, reduceCtorEq, false_or, PortAction.setByte.injEq] at h
    obtain ⟨rfl, rfl, rfl⟩ := h
    decide
  · intro b
    cases b <;> decide
  · simp only [actions, List.mem_cons, List.not_mem_nil, or_false, forall_eq_or_imp, forall_eq]
    exact ⟨exists_next (by decide), exists_next (by decide), exists_next (by decide)⟩

theorem witness_PushAppendsWord : State.reset.fail = none ∧ State.reset.fifo.length ≠ Config.fifoCap := by decide

/-- Twelve of thirteen words. -/
theorem witness_IncompleteCommandWaits :
    let s := pushed (0x07000000#32 :: List.replicate 11 0#32)
    s.fail = none ∧ s.phase = .command ∧ s.fifo = 0x07000000#32 :: List.replicate 11 0#32
      ∧ s.fifo.length < required (topByte 0x07000000#32) := by decide

/-- A command that completes, one that starts a walk, one that fails. -/
theorem witness_DispatchEmptiesBuffer :
    ∀ ws ∈ [[0x31000000#32], [0x23001000#32, 0#32], [0x23001001#32, 0#32]],
      (pushed ws).phase = .command ∧ (pushed ws).fifo = ws.headD 0 :: ws.tail
      ∧ required (topByte (ws.headD 0)) ≤ (pushed ws).fifo.length ∧ ∃ t, step (pushed ws) = .next t := by
  simp only [List.mem_cons, List.not_mem_nil, or_false, forall_eq_or_imp, forall_eq]
  exact ⟨⟨by decide, by decide, by decide, exists_next (by decide)⟩, ⟨by decide, by decide, by decide, exists_next (by decide)⟩,
    ⟨by decide, by decide, by decide, exists_next (by decide)⟩⟩

theorem witness_RenderPointerWrite : State.reset.fail = none := rfl

theorem witness_TexturePointerWrite : State.reset.fail = none := rfl

theorem witness_QuadSizePointerWrite : State.reset.fail = none ∧ 0x77#8 ∉ [0x04#8, 0x05#8, 0x40#8] := by decide

/-- Every buffer is one the FIFO processor may be about to look at. -/
theorem pushed_is_command (ws : List Word) : (pushed ws).fail = none ∧ (pushed ws).phase = .command ∧ (pushed ws).fifo = ws :=
  ⟨rfl, rfl, rfl⟩

theorem witness_SetregIsGuardedBusWrite :
    (State.reset.fail = none ∧ 0x08#7 = Config.fifoTrigger ∧ 0x10#7 ≠ Config.fifoTrigger ∧ 0x10#7 ≠ Config.ptrPrimary
      ∧ 0x10#7 ∉ Config.timingOffsets ∧ 0x10#7 ∉ Config.portOffsets)
    ∧ (∀ ws, (pushed ws).fail = none ∧ (pushed ws).phase = .command ∧ (pushed ws).fifo = ws)
    ∧ (topByte 0x05080000#32 = 0x05#8 ∧ (0x05080000#32).extractLsb' 16 7 = Config.fifoTrigger)
    ∧ (topByte 0x05100000#32 = 0x05#8 ∧ (0x05100000#32).extractLsb' 16 7 = 0x10#7)
    ∧ ∃ t, exec (.wr 0x10#7 1#32) (pushed [0x05100000#32, 1#32]) = .next t ∧ t.fail = none :=
  ⟨by decide, pushed_is_command, by decide, by decide, _, rfl, rfl⟩

/-- A `SETMAT`, a `SETMAT8`, a `SETPT15` and a `SETPT16`, each with its last word. -/
theorem witness_TransformCommandsReadBuffer :
    (∀ ws, (pushed ws).fail = none ∧ (pushed ws).phase = .command ∧ (pushed ws).fifo = ws)
    ∧ (topByte 0x07000000#32 = 0x07#8 ∧ (List.replicate 12 0#32).length = 12)
    ∧ (topByte 0x08000000#32 = 0x08#8 ∧ (List.replicate 13 0#32).length = 13)
    ∧ topByte 0x15000000#32 = 0x15#8 ∧ topByte 0x16000000#32 = 0x16#8 ∧ (List.replicate 3 0#32).length = 3 :=
  ⟨pushed_is_command, by decide⟩

/-- `SYNC31` and `SYNC32` with low bits set. -/
theorem witness_SyncSelectsTenWords :
    (∀ ws, (pushed ws).fail = none ∧ (pushed ws).phase = .command ∧ (pushed ws).fifo = ws)
    ∧ topByte 0x31FFFFFF#32 = 0x31#8 ∧ topByte 0x32ABCDEF#32 = 0x32#8 :=
  ⟨pushed_is_command, by decide⟩

/-- A `DQUAD`, a `NOP40`, and the unknown opcodes on each side of known ones. -/
theorem witness_LoggedCommandsChangeNothing :
    (∀ ws, (pushed ws).fail = none ∧ (pushed ws).phase = .command ∧ (pushed ws).fifo = ws)
    ∧ (topByte 0x38000001#32 = 0x38#8 ∧ (List.replicate 11 7#32).length = 11) ∧ topByte 0x40000000#32 = 0x40#8
    ∧ topByte 0x39000000#32 ∉ [0x05#8, 0x07#8, 0x08#8, 0x15#8, 0x16#8, 0x1c#8, 0x23#8, 0x24#8, 0x31#8, 0x32#8, 0x38#8, 0x40#8]
    ∧ topByte 0x41000000#32 ∉ [0x05#8, 0x07#8, 0x08#8, 0x15#8, 0x16#8, 0x1c#8, 0x23#8, 0x24#8, 0x31#8, 0x32#8, 0x38#8, 0x40#8] :=
  ⟨pushed_is_command, ⟨by decide, rfl⟩, by decide, by decide, by decide⟩

/-- The least exponents on each side of the bounds, and the corner. -/
theorem witness_DspFloatValue :
    (topByte 0x80FFFFFF#32).toInt = -128 ∧ (topByte 0x81000000#32).toInt ≠ -128 ∧ -126 ≤ (topByte 0x82000000#32).toInt
    ∧ ¬ ((0x7F800001#32).getLsbD 23 = true ∧ (0x7F800001#32).toNat % 2 ^ 23 = 0 ∧ (topByte 0x7F800001#32).toInt = 127)
    ∧ ((0x7F800000#32).getLsbD 23 = true ∧ (0x7F800000#32).toNat % 2 ^ 23 = 0 ∧ (topByte 0x7F800000#32).toInt = 127) := by
  decide

/-- A plain value; the tie of `2^24 + 1` between `2^24` and `2^24 + 2`; the bound of overflow from both sides. -/
theorem witness_FlRoundsToNearest :
    (fl (mkRat 1 10) = .fin (mkRat 13421773 (2 ^ 27)) ∧ (2 ^ 24 : Int).natAbs ≤ 2 ^ 24 ∧ (-149 : Int) ≤ -149)
    ∧ (fl 16777217 = .fin 16777216 ∧ (2 ^ 23 + 1 : Int).natAbs ≤ 2 ^ 24 ∧ (-149 : Int) ≤ 1
      ∧ ((2 ^ 23 + 1 : Int) : Rat) * (2 : Rat) ^ (1 : Int) ≠ 16777216
      ∧ |((2 ^ 23 + 1 : Int) : Rat) * (2 : Rat) ^ (1 : Int) - 16777217| = |(16777216 : Rat) - 16777217|)
    ∧ (let overflow : Rat := (2 : Rat) ^ (128 : Int) - (2 : Rat) ^ (103 : Int)
      |overflow - 1| < overflow ∧ overflow ≤ overflow ∧ -overflow ≤ -overflow) := by
  refine ⟨⟨test_fl_rounds.1, by decide, by decide⟩, ⟨by decide +kernel, by decide, by decide, by norm_num, by norm_num⟩, ?_⟩
  refine ⟨?_, le_refl _, le_refl _⟩
  rw [abs_lt]
  constructor <;> norm_num

theorem witness_UnsetClipStopsDrawing :
    State.reset.clip = none ∧ State.reset.debugToggle = false
    ∧ (∃ sv, quadPolygon defaults identity State.reset.point State.reset.zbase 0x5D#32 (vertex 0 0 254 0 0) (vertex 1 0 254 2 0)
        (vertex 1 1 254 2 2) (vertex 0 1 254 0 2) = .ok (some sv)) ∧ (State.reset.setDebugToggle true).debugToggle = true :=
  ⟨rfl, rfl, exists_polygon (by decide +kernel), rfl⟩

theorem witness_DepthClearFillsClipRectangle :
    drawing.fail = none ∧ drawing.clip = some ⟨257, 257, 201, 201⟩ ∧ drawing.renderbase % 2 = 0
    ∧ ∀ y x, 201 ≤ y → y ≤ 201 → 257 ≤ x → x ≤ 257 → depthAddr drawing.renderbase y x + 2 ≤ Config.size1 := by
  refine ⟨rfl, rfl, rfl, ?_⟩
  intro y x h1 h2 h3 h4
  obtain rfl : y = 201 := by omega
  obtain rfl : x = 257 := by omega
  decide

theorem witness_ModelStartsWalkOrIsFatal : (0x1000#16).toNat ≤ 4096 ∧ 4096 < (0x1001#16).toNat := by decide

theorem witness_OversizedListStopsMachine :
    let s := pushed [0x24001001#32, 0#32]
    s.fail = none ∧ s.phase = .command ∧ s.fifo = [0x24001001#32, 0#32]
      ∧ (topByte 0x24001001#32 = 0x23#8 ∨ topByte 0x24001001#32 = 0x24#8) ∧ 4096 < (lowHalf 0x24001001#32).toNat := by decide

theorem witness_ListRegisterWrite :
    State.reset.fail = none ∧ 0x08#7 = Config.fifoTrigger ∧ 0x7f#7 ≠ Config.fifoTrigger ∧ 0x7f#7 ≠ Config.ptrPrimary
    ∧ 0x7f#7 ∉ Config.timingOffsets ∧ 0x7f#7 ∉ Config.portOffsets := by decide

theorem witness_UnknownSubcommandWidensFraming :
    State.reset.walker.dlQuadsize = .ten
    ∧ (State.reset.setWalker { Walker.clear with dlQuadsize := .fourteen }).walker.dlQuadsize = .fourteen := by decide

/-- The first record of a quad, at the last record of bank 0; and the record after that. -/
theorem witness_WalkReadsOneRecord :
    (let s := { walking 0 [] with
      wave0 := putWords [] 16777208 [0x38000000, 0], walker := { Walker.clear with list := some 16777208 } }
    s.fail = none ∧ s.phase = .walk ∧ s.walker.list = some 16777208 ∧ 16777208 % 4 = 0
    ∧ 16777208 + 8 * s.walker.cur + 8 ≤ Config.size0
    ∧ (s.walker.buf ++ [BitVec.ofNat 32 (s.wave0.readLE .bank0 16777208 4), BitVec.ofNat 32 (s.wave0.readLE .bank0 16777212 4)]).length
      < (if topByte (BitVec.ofNat 32 (s.wave0.readLE .bank0 16777208 4)) = 0x38#8 then s.walker.dlQuadsize.words else 2))
    ∧ (let s := { walking 1 [] with walker := { Walker.clear with list := some 16777208, count := 1, cur := 1 } }
      s.fail = none ∧ s.phase = .walk ∧ s.walker.list = some 16777208 ∧ 16777208 % 8 = 0
      ∧ Config.size0 < 16777208 + 8 * s.walker.cur + 8) := by
  decide

/-- The first of two records, and the last. -/
theorem witness_SubcommandEmptiesLocalBuffer :
    ∀ n ∈ [0, 1], ∃ t, step (walking n [0x31000000, 0]) = .next t ∧ t.fail = none
      ∧ (walking n [0x31000000, 0]).walker.list = some 8192 ∧ (walking n [0x31000000, 0]).phase = .walk
      ∧ readRecord defaults (walking n [0x31000000, 0]).wave0 8192 (walking n [0x31000000, 0]).walker.cur = .ok (0x31000000#32, 0#32)
      ∧ decodeList defaults (walking n [0x31000000, 0]).walker.dlQuadsize
          ((walking n [0x31000000, 0]).walker.buf ++ [0x31000000#32, 0#32]) = .ok .dSync := by
  simp only [List.mem_cons, List.not_mem_nil, or_false, forall_eq_or_imp, forall_eq]
  exact ⟨⟨_, rfl, rfl, rfl, rfl, by decide, by decide⟩, ⟨_, rfl, rfl, rfl, rfl, by decide, by decide⟩⟩

theorem witness_OuterLoopRunsOnce :
    let s := State.reset.setPhase .walk
    let t := s.setWalker { Walker.clear with base := 0x400#32 }
    s.fail = none ∧ s.phase = .walk ∧ s.walker.list = none ∧ s.walker.base = 0#32
    ∧ t.fail = none ∧ t.phase = .walk ∧ t.walker.list = none ∧ t.walker.base ≠ 0#32 := by decide

/-- At the last record, and at the entry with the greatest count. -/
theorem witness_EveryWalkEnds :
    ((walking 0 [0x31000000, 0]).fail = none ∧ (walking 0 [0x31000000, 0]).phase = .walk
      ∧ (walking 0 [0x31000000, 0]).WalkerOk)
    ∧ (let s := (State.reset.setWalker { Walker.clear with base := 1#32, count := 4096 }).setPhase .walk
      s.fail = none ∧ s.phase = .walk ∧ s.WalkerOk) := by
  refine ⟨⟨rfl, rfl, by decide, by decide, ?_, by decide, by decide, by decide⟩, rfl, rfl, by decide, by decide, ?_, by decide,
    by decide, by decide⟩
  · intro p hp
    obtain rfl : 8192 = p := by simpa [walking] using hp
    decide
  · intro p hp
    simp [Walker.clear] at hp

/-- Camera depth 0, before the near plane at 1/2048. -/
theorem witness_QuadBehindNearPlaneIsDiscarded :
    State.reset.debugToggle = false
    ∧ camVertex defaults identity State.reset.point State.reset.zbase 0#32 (vertex 0 0 0xFFFE 0 0) = .ok ⟨0, 0, 0, 0, 0⟩
    ∧ (⟨0, 0, 0, 0, 0⟩ : CamVertex).z < Config.nearEps := by decide +kernel

/-- The number of vertices an answer has. -/
def vertices {α : Type} (r : Access (List α)) : Nat :=
  match r with
  | .ok l => l.length
  | .error _ => 0

theorem exists_list {α : Type} {r : Access (List α)} {n : Nat} (h : isOk r = true ∧ vertices r = n) :
    ∃ l, r = .ok l ∧ l.length = n := by
  cases r with
  | ok l => exact ⟨l, rfl, h.2⟩
  | error e => simp [isOk] at h

/-- The rows of V-CLIP: four inside, three, two neighbours, one, none, two opposite. Two opposite vertices of a quad before the
near plane, each camera depth 0, and the two others behind it at depth 8. -/
theorem witness_NearClipVertexCounts :
    (∀ z ∈ [(8, 8, 8, 8), (0, 8, 8, 8), (0, 0, 8, 8), (0, 0, 0, 8), (0, 0, 0, 0), (0, 8, 0, 8)],
      ∃ cv, clipNear defaults ⟨0, 0, z.1, 0, 0⟩ ⟨64, 0, z.2.1, 64, 0⟩ ⟨64, 64, z.2.2.1, 64, 64⟩ ⟨0, 64, z.2.2.2, 0, 64⟩ = .ok cv)
    ∧ (State.reset.debugToggle = false
      ∧ (∀ q ∈ [(0, 0, 0xFFFE, 0), (64, 0, 6, 8), (64, 64, 0xFFFE, 0), (0, 64, 6, 8)],
        camVertex defaults identity State.reset.point State.reset.zbase State.reset.walker.texoffs
          (vertex q.1 q.2.1 q.2.2.1 0 0) = .ok ⟨(q.1 : Nat), (q.2.1 : Nat), (q.2.2.2 : Nat), 0, 0⟩)
      ∧ ∃ cv, clipNear defaults ⟨(0 : Nat), (0 : Nat), (0 : Nat), 0, 0⟩ ⟨(64 : Nat), (0 : Nat), (8 : Nat), 0, 0⟩
          ⟨(64 : Nat), (64 : Nat), (0 : Nat), 0, 0⟩ ⟨(0 : Nat), (64 : Nat), (8 : Nat), 0, 0⟩ = .ok cv ∧ cv.length = 6) := by
  refine ⟨?_, rfl, by decide +kernel, exists_list (by decide +kernel)⟩
  simp only [List.mem_cons, List.not_mem_nil, or_false, forall_eq_or_imp, forall_eq]
  exact ⟨exists_ok (by decide +kernel), exists_ok (by decide +kernel), exists_ok (by decide +kernel),
    exists_ok (by decide +kernel), exists_ok (by decide +kernel), exists_ok (by decide +kernel)⟩

/-- Depths on each side of 0; the six vertices that `witness_NearClipVertexCounts` clips are those of a quad. -/
theorem witness_NudgeMovesOnlyMaxima :
    (0 : Rat) < mkRat 1 2048 ∧ (0 : Rat) ≤ 0
    ∧ ∃ cv, (∃ a b c d, camVertex defaults identity State.reset.point State.reset.zbase 0#32 (vertex 0 0 0xFFFE 0 0) = .ok a
        ∧ camVertex defaults identity State.reset.point State.reset.zbase 0#32 (vertex 64 0 6 0 0) = .ok b
        ∧ camVertex defaults identity State.reset.point State.reset.zbase 0#32 (vertex 64 64 0xFFFE 0 0) = .ok c
        ∧ camVertex defaults identity State.reset.point State.reset.zbase 0#32 (vertex 0 64 6 0 0) = .ok d
        ∧ clipNear defaults a b c d = .ok cv) ∧ 5 < cv.length := by
  obtain ⟨-, -, h, cv, hc, hl⟩ := witness_NearClipVertexCounts
  simp only [List.mem_cons, List.not_mem_nil, or_false, forall_eq_or_imp, forall_eq] at h
  exact ⟨by decide +kernel, le_refl 0, cv, ⟨_, _, _, _, h.1, h.2.1, h.2.2.1, h.2.2.2, hc⟩, by omega⟩

/-- A pixel that is drawn, and one that is rejected by depth. -/
theorem witness_ReadyQuadIsDrawn :
    drawing.fail = none
    ∧ quadReady (vertex 0 0 254 0 0) (vertex 1 0 254 2 0) (vertex 1 1 254 2 2) (vertex 0 1 254 0 2) drawing = true
    ∧ quadReady (vertex 0 0 1022 0 0) (vertex 4 0 1022 0 0) (vertex 4 4 1022 0 0) (vertex 0 4 1022 0 0) drawing = true
    ∧ drawing.clip = some ⟨257, 257, 201, 201⟩ := by decide +kernel

theorem witness_QuadFrame : ∃ t, exec quadB drawing = .next t := exists_next (by decide +kernel)

theorem witness_UnknownCodeRetainsWidth :
    ((0x05D#32).extractLsb' 0 12, TexWidth.w256) ∈ Config.texWidthTable
    ∧ (∀ w, ((0#32).extractLsb' 0 12, w) ∉ Config.texWidthTable)
    ∧ (State.reset.setTexwidthPrev .w128).texwidthPrev = some .w128 ∧ State.reset.texwidthPrev = none := by
  refine ⟨by decide, ?_, rfl, rfl⟩
  intro w
  cases w <;> decide

/-- A polygon of the given `sx` and `sy`. -/
def outline (ps : List (Rat × Rat)) : List ScreenVertex := ps.map fun p => ⟨p.1, p.2, 512, 0, 0⟩

/-- The edges of a polygon that cross a row. -/
def crossingEdges (sv : List ScreenVertex) (yc : Rat) : List (ScreenVertex × ScreenVertex) :=
  (edges sv).filter fun e => decide (min e.1.sy e.2.sy ≤ yc ∧ yc < max e.1.sy e.2.sy)

/-- The first and the last row of the nudged square of V-PROJ; the last edge of a triangle; rows of 0, 2 and 4 crossings. -/
theorem witness_CoverageIsHalfOpen :
    (∀ i ∈ [200, 202], max (rnd (mkRat 401 2)) (0 : Nat) ≤ (i : Int)
      ∧ (i : Int) ≤ min (rnd (mkRat 2025005 10000) - 1) (399 : Nat))
    ∧ (let sv := outline [(0, 0), (8, 0), (0, 8)]
      (⟨8, 0, 512, 0, 0⟩ ∈ sv ∧ ⟨0, 8, 512, 0, 0⟩ ∈ sv ∧ ∀ p ∈ sv, 0 ≤ p.sy ∧ p.sy ≤ 8)
      ∧ sv[2]? = some ⟨0, 8, 512, 0, 0⟩ ∧ sv[(2 + 1) % sv.length]? = some ⟨0, 0, 512, 0, 0⟩
      ∧ defaults.fl ((9 : Nat) + 1 / 2 : Rat) = .fin (19 / 2) ∧ crossingEdges sv (19 / 2) = []
      ∧ defaults.fl ((7 : Nat) + 1 / 2 : Rat) = .fin (15 / 2)
      ∧ crossingEdges sv (15 / 2)
          = [(⟨8, 0, 512, 0, 0⟩, ⟨0, 8, 512, 0, 0⟩), (⟨0, 8, 512, 0, 0⟩, ⟨0, 0, 512, 0, 0⟩)]
      ∧ isOk (crossing defaults (15 / 2) (⟨8, 0, 512, 0, 0⟩, ⟨0, 8, 512, 0, 0⟩)) = true
      ∧ isOk (crossing defaults (15 / 2) (⟨0, 8, 512, 0, 0⟩, ⟨0, 0, 512, 0, 0⟩)) = true)
    ∧ (let sv := outline [(0, 0), (2, 8), (4, 0), (6, 8)]
      2 < (crossingEdges sv (15 / 2)).length
      ∧ (crossingEdges sv (15 / 2)).all (fun e => isOk (crossing defaults (15 / 2) e)) = true) := by decide +kernel

/-- Nearer, equal, farther, and a top-left texel that is the key. -/
theorem witness_DepthTestDecidesPixel :
    drawing.fail = none ∧ drawing.renderbase % 4 = 0 ∧ depthAddr drawing.renderbase 201 257 + 2 ≤ Config.size1
    ∧ fixedPoint defaults ⟨1024, 0, 0⟩ = .ok (some ⟨0x4000, 0, 0, 0, 0⟩) ∧ fixedPoint defaults ⟨512, 0, 0⟩ = .ok (some ⟨0x2000, 0, 0, 0, 0⟩)
    ∧ drawing.wave1.readLE .bank1 (depthAddr drawing.renderbase 201 257) 2 = 0x2000
    ∧ shadeColor defaults drawing.wave0 ⟨.w256, 0x100, 0x8000, 0x4000⟩ ⟨0x2000, 0, 0, 0, 0⟩ = .ok (some 0x00FF8484#32)
    ∧ shadeColor defaults drawing.wave0 ⟨.w256, 5, 0x8000, 0x4000⟩ ⟨0x2000, 0, 0, 0, 0⟩ = .ok none := by decide +kernel

/-- Weights at both ends; samples that are rejected, refused and shaded; the texels and palette of P3, and a key that is met. -/
theorem witness_BlendStaysBetween :
    ((0 : Int) ≤ 0 ∧ (0 : Int) ≤ 255 ∧ (255 : Int) ≤ 255)
    ∧ (defaults.fl ((mkRat (-1) 32) * defaults.depthPerZ) = .fin (mkRat (-1) 2) ∧ ⌊mkRat (-1) 2⌋ < 0)
    ∧ (defaults.fl (0 * defaults.depthPerZ) = .fin 0 ∧ 0 ≤ ⌊(0 : Rat)⌋ ∧ defaults.fl (0 * 256) = .fin 0
      ∧ defaults.fl (mkRat (-1) 512 * 256) = .fin (mkRat (-1) 2))
    ∧ (let e : Extra := ⟨.w256, 0x100, 0x8000, 0x4000⟩
      let c : Texcoord := ⟨0x1000, 0, 0, 0, 0⟩
      e.palbase % 2 = 0 ∧ ∀ dv ≤ 1, ∀ du ≤ 1,
        e.texbase + texelOffset e.texwidth (c.v0 + dv) (c.u0 + du) < defaults.size0
        ∧ e.palbase + 2 * (textures.byteAt .bank0 (e.texbase + texelOffset e.texwidth (c.v0 + dv) (c.u0 + du))).toNat + 2
            ≤ defaults.size0) := by decide +kernel

/-- The last byte of a bank, and the one after it; a word that crosses the end, and one before the beginning. -/
theorem witness_StoreThenLoad :
    ∀ b, 1 ∈ [1, 2, 4] ∧ 4 ∈ [1, 2, 4] ∧ (bankSize defaults b - 1) % 1 = 0 ∧ bankSize defaults b - 1 + 1 ≤ bankSize defaults b
      ∧ (bankSize defaults b : Int) < bankSize defaults b + 1 ∧ (bankSize defaults b : Int) < bankSize defaults b - 2 + 4
      ∧ (-1 : Int) < 0 := by
  intro b
  cases b <;> decide

theorem witness_PixelAddressesDistinct :
    511 < 512 ∧ ((511, 510) : Nat × Nat) ≠ (511, 511)
    ∧ (TexWidth.w64, 64) ∈ [(TexWidth.w64, 64), (.w128, 128), (.w256, 256)] ∧ 3 < 4 ∧ 1 < 2 ∧ 63 < 64 := by decide

theorem witness_FailureIsTerminal : (State.reset.setFail .unsetClip).fail = some .unsetClip := rfl

/-- After reset `t_vbl_on` is pending and the two others are idle; then the other way round. -/
theorem witness_TimersDriveInterruptLines :
    ∀ x ∈ [Timer.fifo, .vblOn, .vblOff], (waiting (.fire x)).fail = none ∧ (waiting (.fire x)).phase = .idle
      ∧ (waiting (.fire x)).inputs = [.fire x]
      ∧ (State.reset.tFifo = .idle ∧ State.reset.tVblOn = .pending ∧ State.reset.tVblOff = .idle)
      ∧ (State.reset.fireVblOn.tVblOn = .idle ∧ State.reset.fireVblOn.tVblOff = .pending)
      ∧ (State.reset.setFifoTimer .pending).tFifo = .pending := by decide

theorem witness_diagnostic_inputs :
    ∀ i ∈ [Input.setZbase (.fin 3), .debugToggle true], (waiting i).fail = none ∧ (waiting i).phase = .idle
      ∧ (waiting i).inputs = [i] := by decide

theorem witness_NothingInterruptsTransaction :
    (pushed [0x31000000#32]).phase ≠ .idle ∧ ∃ t, step (pushed [0x31000000#32]) = .next t :=
  ⟨by decide, exists_next (by decide)⟩

theorem witness_DeviceResetValues :
    (waiting .deviceReset).fail = none ∧ (waiting .deviceReset).phase = .idle
    ∧ (waiting .deviceReset).inputs = [.deviceReset] := by decide

theorem witness_RestoreUndoesEverything :
    let s := waiting .snapshot
    let u := waiting (.restore s.toArch)
    s.fail = none ∧ s.phase = .idle ∧ s.inputs = .snapshot :: [] ∧ u.fail = none ∧ u.phase = .idle
    ∧ u.inputs = .restore s.toArch :: [] := ⟨rfl, rfl, rfl, rfl, rfl, rfl⟩

/-- A write to a register; a step that runs a command which writes no bank; a step that runs no instruction; a store. -/
theorem witness_WaveMemoryWriters :
    (State.reset.fail = none ∧ (∃ t, exec (.wr 0x10#7 1#32) State.reset = .next t) ∧ 0x10#7 ∉ Config.portOffsets)
    ∧ ((∃ t, step (pushed [0x31000000#32]) = .next t) ∧ (pushed [0x31000000#32]).phase ≠ .idle
      ∧ ∀ i u, fetch defaults (pushed [0x31000000#32]) = .run i u → i = .sync31)
    ∧ ((∃ t, step State.reset = .next t) ∧ State.reset.inputs = [] ∧ ∀ i u, fetch defaults State.reset ≠ .run i u)
    ∧ ∃ t, memWrite defaults .bank1 0 4 1 State.reset = .next t := by
  refine ⟨⟨rfl, exists_next (by decide), by decide⟩, ⟨exists_next (by decide), by decide, ?_⟩,
    ⟨exists_next (by decide), rfl, ?_⟩, exists_next (by decide)⟩
  · intro i u h
    have h' : Fetched.run .sync31 (pushed [0x31000000#32]) = .run i u := h
    simp only [Fetched.run.injEq] at h'
    exact h'.1.symm
  · intro i u h
    have h' : Fetched.moved State.reset = .run i u := h
    simp at h'

theorem witness_TransformWriters :
    State.reset.fail = none ∧ (∃ t, exec .sync31 State.reset = .next t)
    ∧ (pushed [0x31000000#32]).phase ≠ .idle ∧ ∃ t, step (pushed [0x31000000#32]) = .next t :=
  ⟨rfl, exists_next (by decide), by decide, exists_next (by decide)⟩

/-- The invariants hold where a command is about to run, and a step goes on from there. -/
theorem witness_StepKeepsInvariants :
    (drawing.setPhase .idle).MemoryOk ∧ drawing.PointersOk ∧ drawing.ClipOk ∧ (pushed [0x31000000#32]).FifoOk
    ∧ (pushed [0x31000000#32]).WalkerOk ∧ (pushed [0x31000000#32]).MemoryOk ∧ (pushed [0x31000000#32]).PointersOk
    ∧ (pushed [0x31000000#32]).ClipOk ∧ ∃ t, step (pushed [0x31000000#32]) = .next t := by
  refine ⟨⟨by decide, by decide⟩, ⟨by decide, by decide⟩, ⟨by decide, by decide⟩, ⟨by decide, by decide, by decide⟩,
    ⟨by decide, by decide, ?_, by decide, by decide, by decide⟩, ⟨by decide, by decide⟩, ⟨by decide, by decide⟩,
    ⟨by decide, by decide⟩, exists_next (by decide)⟩
  intro p hp
  simp [pushed, State.reset, Walker.clear] at hp

end Sys2Proof.Tests
end

namespace Sys2Proof

/-! ## Decoding whole commands and pointer writes -/

open Sys2Proof.Config (defaults)

/-- A FIFO buffer that holds the words its opcode needs is a whole command (R210). -/
theorem decode_fifo_complete {cfg : Cfg} {w : Word} {ws : List Word}
    (h : required (topByte w) ≤ (w :: ws).length) :
    decode cfg (.fifo (w :: ws)) = .ok (fifoCommand (topByte w) (w :: ws)) :=
  if_neg (Nat.not_lt.mpr h)

/-- A local buffer that holds the words its opcode needs is a whole sub-command (R252, R253). -/
theorem decode_list_complete {cfg : Cfg} {framing : Framing} {w : Word} {ws : List Word}
    (h : needed cfg framing (topByte w) ≤ (w :: ws).length) :
    decode cfg (.list framing (w :: ws)) = .ok (listCommand cfg framing (topByte w) (w :: ws)) :=
  if_neg (Nat.not_lt.mpr h)

@[simp] theorem ptrIndex_append (idx : BitVec 8) (data : BitVec 24) : ptrIndex (idx ++ data) = idx :=
  BitVec.extractLsb'_append_eq_left

@[simp] theorem ptrData_append (idx : BitVec 8) (data : BitVec 24) : ptrData (idx ++ data) = data :=
  BitVec.extractLsb'_append_eq_right

/-- A write of `PTR_PRIMARY` with the render index is the pointer row of that index (R139, R144). -/
theorem decode_bus_ptrRender (data : BitVec 24) :
    decode defaults (.bus (.write Config.ptrPrimary (Config.ptrIdxRender ++ data))) = .ok (.ptrRender data) := by
  have hport : Config.ptrPrimary ≠ Config.fifoTrigger := by decide
  simp [decode, decodeBus, hport]

/-- Settles O2: each text is long enough for its opcode, so the opcode's own arm reads its fields. -/
theorem writtenOutWordsDecode : Obligations.WrittenOutWordsDecode := by
  refine ⟨?setreg, ?model, ?texsel, ?dSetreg, decode_bus_ptrRender 0x000190#24⟩
  case setreg => rw [decode_fifo_complete (by decide)]; rfl
  case model => rw [decode_fifo_complete (by decide)]; rfl
  case texsel => rw [decode_list_complete (by decide)]; rfl
  case dSetreg => rw [decode_list_complete (by decide)]; rfl

end Sys2Proof

namespace Sys2Proof.Machine

open Sys2Proof.Config (defaults)

/-! ## Pointer writes -/

/-- A write of `PTR_PRIMARY` stores its word, then writes the sub-register its top byte names (R175, R177). -/
theorem busWrite_ptrPrimary {s : State} (hs : s.fail = none) (idx : BitVec 8) (data : BitVec 24) :
    busWrite defaults Config.ptrPrimary (idx ++ data) s
      = .next (pointerWrite defaults idx data (s.setReg Config.ptrPrimary (idx ++ data))) := by
  have hport : Config.ptrPrimary ≠ Config.fifoTrigger := by decide
  rw [busWrite, accepting_running hs]
  simp [hport]

/-- `PTR.QSIZE` selects the framing (R180). -/
theorem pointerWrite_qsize (data : BitVec 24) (s : State) :
    pointerWrite defaults Config.ptrIdxQsize data s = s.setQuadSize (quadSizeOf data) := by
  have hrender : Config.ptrIdxQsize ≠ Config.ptrIdxRender := by decide
  have htex : Config.ptrIdxQsize ≠ Config.ptrIdxTex := by decide
  simp [pointerWrite, hrender, htex]

/-- An index that is none of the three is logged and has no other effect (R181). -/
theorem pointerWrite_unknown {idx : BitVec 8} (h : idx ∉ defaults.ptrIndices) (data : BitVec 24) (s : State) :
    pointerWrite defaults idx data s = s.emit (.log (.pointerUnknown idx data)) := by
  simp only [Config.defaults_ptrIndices, List.mem_cons, List.not_mem_nil, or_false, not_or] at h
  obtain ⟨hrender, htex, hqsize⟩ := h
  simp [pointerWrite, hrender, htex, hqsize]

/-- Settles O18: both clauses are the write of `PTR_PRIMARY`, at the framing index and at an index of no sub-register. -/
theorem quadSizePointerWrite : Obligations.QuadSizePointerWrite := by
  constructor
  · intro s data hs
    calc exec (.ptrQsize data) s
        = busWrite defaults Config.ptrPrimary (Config.ptrIdxQsize ++ data) s := rfl
      _ = .next (pointerWrite defaults Config.ptrIdxQsize data
            (s.setReg Config.ptrPrimary (Config.ptrIdxQsize ++ data))) := busWrite_ptrPrimary hs _ data
      _ = _ := by rw [pointerWrite_qsize]; rfl
  · intro s idx data hs hidx
    calc exec (.wr Config.ptrPrimary (idx ++ data)) s
        = busWrite defaults Config.ptrPrimary (idx ++ data) s := rfl
      _ = _ := by rw [busWrite_ptrPrimary hs, pointerWrite_unknown hidx]

end Sys2Proof.Machine

namespace Sys2Proof.Machine

/-! ## Rounding to an integer -/

/-- The integer `k` is `x` rounded to nearest, a tie going to the even integer. -/
def RoundsEven (x : ℚ) (k : ℤ) : Prop := |k - x| ≤ 1 / 2 ∧ (|k - x| = 1 / 2 → Even k)

/-- `roundEven` by the remainder: it is at most half the divisor away, and where it is exactly half, the answer is even. -/
theorem roundEven_spec {n d : ℕ} (hd : 0 < d) :
    2 * n ≤ 2 * (d * roundEven n d) + d ∧ 2 * (d * roundEven n d) ≤ 2 * n + d
    ∧ (2 * n = 2 * (d * roundEven n d) + d ∨ 2 * (d * roundEven n d) = 2 * n + d → roundEven n d % 2 = 0) := by
  have hdiv : d * (n / d) + n % d = n := Nat.div_add_mod n d
  have hmod : n % d < d := Nat.mod_lt n hd
  unfold roundEven
  dsimp only
  split
  · omega
  · rw [Nat.mul_add_one]
    omega

theorem roundsEven_roundEven (n : ℕ) {d : ℕ} (hd : 0 < d) : RoundsEven ((n : ℚ) / d) (roundEven n d) := by
  obtain ⟨hlow, hhigh, heven⟩ := roundEven_spec (n := n) hd
  generalize roundEven n d = k at *
  qify at hlow hhigh hd
  have hdist : ((k : ℤ) : ℚ) - n / d = (d * k - n) / d := by
    rw [sub_div, mul_div_cancel_left₀ _ hd.ne', Int.cast_natCast]
  refine ⟨?_, fun htie => ?_⟩
  · rw [hdist, abs_le, le_div_iff₀ hd, div_le_iff₀ hd]
    constructor <;> linarith
  · rw [hdist, abs_eq (by norm_num), div_eq_iff hd.ne', div_eq_iff hd.ne'] at htie
    have hk : k % 2 = 0 := by
      refine heven (htie.symm.imp (fun h => ?_) fun h => ?_) <;> qify <;> linarith
    exact_mod_cast Nat.even_iff.mpr hk

theorem gap_le_dist_add (x : ℚ) (j k : ℤ) : |((j - k : ℤ) : ℚ)| ≤ |j - x| + |k - x| := by
  rw [abs_sub_comm (k : ℚ) x, Int.cast_sub]
  exact abs_sub_le _ _ _

/-- No integer is nearer to `x` than `x` rounded is. -/
theorem RoundsEven.le_dist {x : ℚ} {k : ℤ} (h : RoundsEven x k) (j : ℤ) : |k - x| ≤ |j - x| := by
  by_cases hj : j = k
  · rw [hj]
  · have hone : (1 : ℚ) ≤ |((j - k : ℤ) : ℚ)| := by exact_mod_cast Int.one_le_abs (sub_ne_zero.mpr hj)
    linarith [h.1, gap_le_dist_add x j k]

/-- Another integer as near as `x` rounded is its neighbour, and `x` rounded is even. -/
theorem RoundsEven.of_tie {x : ℚ} {k j : ℤ} (h : RoundsEven x k) (hj : j ≠ k) (htie : |(j : ℚ) - x| = |k - x|) :
    Even k ∧ |j - k| = 1 := by
  have hone : 1 ≤ |j - k| := Int.one_le_abs (sub_ne_zero.mpr hj)
  have hone' : (1 : ℚ) ≤ |((j - k : ℤ) : ℚ)| := by exact_mod_cast hone
  have hle : |((j - k : ℤ) : ℚ)| ≤ 1 := by linarith [h.1, gap_le_dist_add x j k]
  exact ⟨h.2 (by linarith [h.1, gap_le_dist_add x j k]), le_antisymm (by exact_mod_cast hle) hone⟩

/-! ## The numbers of binary32, without a greatest exponent -/

/-- An integer of at most 24 bits, or `2^24`, times a power of two not below `2^-149`. -/
def IsFloat (z : ℚ) : Prop := ∃ m p : ℤ, m.natAbs ≤ 2 ^ 24 ∧ -149 ≤ p ∧ z = m * (2 : ℚ) ^ p

/-- `q` is nearest to `r` of the numbers `IsFloat`; where another is as near, `q` is an even multiple of the gap. -/
def NearestEven (r q : ℚ) : Prop :=
  ∀ z, IsFloat z → |q - r| ≤ |z - r| ∧ (z ≠ q → |z - r| = |q - r| → ∃ k : ℤ, q = 2 * (k : ℚ) * (z - q))

theorem IsFloat.neg {z : ℚ} (h : IsFloat z) : IsFloat (-z) := by
  obtain ⟨m, p, hm, hp, rfl⟩ := h
  exact ⟨-m, p, by rwa [Int.natAbs_neg], hp, by push_cast; ring⟩

theorem NearestEven.neg {r q : ℚ} (h : NearestEven r q) : NearestEven (-r) (-q) := by
  intro z hz
  have hflip : ∀ a b : ℚ, |-a - -b| = |a - b| := fun a b => by rw [neg_sub_neg, abs_sub_comm]
  obtain ⟨hle, heven⟩ := h (-z) hz.neg
  rw [← neg_neg z, hflip, hflip]
  refine ⟨hle, fun hne htie => ?_⟩
  obtain ⟨k, hk⟩ := heven (fun e => hne (by rw [e])) htie
  exact ⟨k, by linear_combination -hk⟩

theorem nearestEven_self (r : ℚ) : NearestEven r r := by
  intro z _
  rw [sub_self, abs_zero]
  exact ⟨abs_nonneg _, fun hne htie => absurd (sub_eq_zero.mp (abs_eq_zero.mp htie)) hne⟩

theorem two_zpow_pos (p : ℤ) : (0 : ℚ) < 2 ^ p := zpow_pos two_pos p

theorem mul_two_zpow_of_le (m : ℤ) {p p' : ℤ} (h : p ≤ p') :
    (m : ℚ) * 2 ^ p' = ((m * 2 ^ (p' - p).toNat : ℤ) : ℚ) * 2 ^ p := by
  push_cast
  rw [mul_assoc, ← zpow_natCast, ← zpow_add₀ two_ne_zero]
  congr 2
  omega

/-- A number of the format is a multiple of the unit `2^p`, or has a lower unit and is less than `2^23` times `2^p`. -/
theorem IsFloat.multiple_or_lt {z : ℚ} (h : IsFloat z) (p : ℤ) :
    (∃ j : ℤ, z = j * (2 : ℚ) ^ p) ∨ (-149 < p ∧ z < 2 ^ 23 * (2 : ℚ) ^ p) := by
  obtain ⟨m, p', hm, hp', rfl⟩ := h
  rcases le_or_gt p p' with hp | hp
  · exact .inl ⟨_, mul_two_zpow_of_le m hp⟩
  · have hm' : (m : ℚ) ≤ 2 ^ 24 := by exact_mod_cast (by omega : m ≤ 2 ^ 24)
    have hle : (m : ℚ) * 2 ^ p' ≤ 2 ^ 23 * 2 ^ p := by
      calc (m : ℚ) * 2 ^ p' ≤ 2 ^ 24 * 2 ^ (p - 1) :=
          mul_le_mul hm' (zpow_le_zpow_right₀ one_le_two (by omega)) (two_zpow_pos _).le (by norm_num)
        _ = 2 ^ 23 * 2 ^ p := by rw [zpow_sub_one₀ two_ne_zero]; ring
    rcases hle.eq_or_lt with heq | hlt
    · exact .inl ⟨2 ^ 23, by exact_mod_cast heq⟩
    · exact .inr ⟨by omega, hlt⟩

/-- Rounding `y` in the unit `2^p` to an integer gives the nearest number of the format, when `y` has 24 significant bits in
that unit or there is no lower unit. -/
theorem RoundsEven.nearestEven {y : ℚ} {p k : ℤ} (h : RoundsEven (y / 2 ^ p) k)
    (hp : p ≤ -149 ∨ 2 ^ 23 * (2 : ℚ) ^ p ≤ y) : NearestEven y (k * (2 : ℚ) ^ p) := by
  have hu : (0 : ℚ) < 2 ^ p := two_zpow_pos p
  have hdist : ∀ j : ℤ, |j * (2 : ℚ) ^ p - y| = |j - y / 2 ^ p| * 2 ^ p := fun j => by
    rw [← abs_of_pos hu, ← abs_mul, abs_of_pos hu, sub_mul, div_mul_cancel₀ _ hu.ne']
  have hnear : ∀ j : ℤ, |k * (2 : ℚ) ^ p - y| ≤ |j * (2 : ℚ) ^ p - y| := fun j => by
    rw [hdist, hdist]
    exact mul_le_mul_of_nonneg_right (h.le_dist j) hu.le
  intro z hz
  rcases hz.multiple_or_lt p with ⟨j, rfl⟩ | ⟨hp', hlt⟩
  · refine ⟨hnear j, fun hne htie => ?_⟩
    have hjk : j ≠ k := fun e => hne (by rw [e])
    rw [hdist, hdist, mul_left_inj' hu.ne'] at htie
    obtain ⟨⟨c, hc⟩, hone⟩ := h.of_tie hjk htie
    have hsq : (j - k) * (j - k) = 1 := by rw [← abs_mul_abs_self, hone, one_mul]
    refine ⟨c * (j - k), ?_⟩
    have hkc : (k : ℚ) = c + c := by exact_mod_cast hc
    have hsq' : ((j : ℚ) - k) * (j - k) = 1 := by exact_mod_cast hsq
    push_cast
    linear_combination (2 : ℚ) ^ p * (hkc - 2 * c * hsq')
  · have hy : 2 ^ 23 * (2 : ℚ) ^ p ≤ y := hp.resolve_left (by omega)
    have hcloser : |k * (2 : ℚ) ^ p - y| < |z - y| := by
      calc |k * (2 : ℚ) ^ p - y| ≤ |((2 ^ 23 : ℤ) : ℚ) * (2 : ℚ) ^ p - y| := hnear (2 ^ 23)
        _ = y - 2 ^ 23 * 2 ^ p := by
            rw [abs_sub_comm]; push_cast; exact abs_of_nonneg (sub_nonneg.mpr hy)
        _ < y - z := by linarith
        _ ≤ |z - y| := by rw [abs_sub_comm]; exact le_abs_self _
    exact ⟨hcloser.le, fun _ htie => absurd htie hcloser.ne'⟩

/-! ## Overflow -/

/-- The greatest number of the format below `2^128`. -/
theorem IsFloat.le_of_lt {z : ℚ} (h : IsFloat z) (hz : z < 2 ^ 128) : z ≤ 2 ^ 128 - 2 ^ 104 := by
  rcases h.multiple_or_lt 104 with ⟨j, rfl⟩ | ⟨_, hlt⟩
  · have hj : j < 2 ^ 24 := by
      by_contra hge
      have : (2 ^ 24 : ℚ) ≤ j := by exact_mod_cast not_lt.mp hge
      norm_num at hz; linarith
    have hj' : (j : ℚ) ≤ 2 ^ 24 - 1 := by exact_mod_cast (by omega : j ≤ 2 ^ 24 - 1)
    norm_num; linarith
  · norm_num at hlt ⊢; linarith

theorem isFloat_overflow : IsFloat (2 ^ 128) := ⟨2 ^ 24, 104, by decide, by decide, by norm_num⟩

theorem isFloat_greatest : IsFloat (2 ^ 128 - 2 ^ 104) := ⟨2 ^ 24 - 1, 104, by decide, by decide, by norm_num⟩

/-- The midpoint of the greatest number below `2^128` and `2^128`. -/
def overflowBound : ℚ := 2 ^ (128 : ℤ) - 2 ^ (103 : ℤ)

/-- A rounded value reaches `2^128` just from the midpoint below it on: at the midpoint the greatest number below `2^128` is an
odd multiple of the gap. -/
theorem NearestEven.overflow_iff {y q : ℚ} (h : NearestEven y q) (hq : IsFloat q) : 2 ^ 128 ≤ q ↔ overflowBound ≤ y := by
  have hbound : overflowBound = 2 ^ 128 - 2 ^ 103 := by norm_num [overflowBound]
  rw [hbound]
  constructor <;> intro hge <;> by_contra! hlt
  · obtain ⟨hle, -⟩ := h _ isFloat_greatest
    have hcloser : |2 ^ 128 - 2 ^ 104 - y| < q - y := abs_lt.mpr ⟨by linarith, by linarith⟩
    linarith [le_abs_self (q - y)]
  · obtain ⟨hle, heven⟩ := h _ isFloat_overflow
    have hgreatest : q ≤ 2 ^ 128 - 2 ^ 104 := hq.le_of_lt hlt
    rw [abs_of_neg (by linarith : q - y < 0)] at hle heven
    have hy : y ≤ 2 ^ 128 := by
      by_contra! hy
      rw [abs_of_neg (by linarith)] at hle
      linarith
    rw [abs_of_nonneg (by linarith)] at hle heven
    obtain ⟨k, hk⟩ := heven hlt.ne' (by linarith)
    have hk' : (2 ^ 24 - 1 : ℚ) = 2 * k := by
      rw [(by linarith : q = 2 ^ 128 - 2 ^ 104)] at hk
      linarith
    have : (2 ^ 24 - 1 : ℤ) = 2 * k := by exact_mod_cast hk'
    omega

/-! ## The rounding `fl` -/

theorem zpow_eq_toNat_div (p : ℤ) : (2 : ℚ) ^ p = 2 ^ p.toNat / 2 ^ (-p).toNat := by
  rw [← zpow_natCast, ← zpow_natCast, ← zpow_sub₀ two_ne_zero]
  congr 1
  omega

theorem dyadic_eq (m p : ℤ) : dyadic m p = m * (2 : ℚ) ^ p := by
  rw [dyadic, Rat.mkRat_eq_div, zpow_eq_toNat_div]
  push_cast
  rw [mul_div_assoc]

theorem powLe_iff {p : ℤ} {n d : ℕ} (hd : 0 < d) : powLe p n d = true ↔ (2 : ℚ) ^ p ≤ n / d := by
  have hd' : (0 : ℚ) < d := by exact_mod_cast hd
  rw [powLe, decide_eq_true_iff, zpow_eq_toNat_div, div_le_div_iff₀ (by positivity) hd', mul_comm d]
  exact_mod_cast Iff.rfl

/-- `binaryExponent` is the exponent of the greatest power of two that `n / d` reaches. -/
theorem binaryExponent_spec {n d : ℕ} (hn : n ≠ 0) (hd : d ≠ 0) :
    (2 : ℚ) ^ binaryExponent n d ≤ n / d ∧ (n : ℚ) / d < 2 ^ (binaryExponent n d + 1) := by
  have hn1 : (2 : ℚ) ^ (n.log2 : ℤ) ≤ n := by exact_mod_cast Nat.log2_self_le hn
  have hn2 : (n : ℚ) < 2 ^ (n.log2 + 1 : ℤ) := by exact_mod_cast Nat.lt_log2_self
  have hd1 : (2 : ℚ) ^ (d.log2 : ℤ) ≤ d := by exact_mod_cast Nat.log2_self_le hd
  have hd2 : (d : ℚ) < 2 ^ (d.log2 + 1 : ℤ) := by exact_mod_cast Nat.lt_log2_self
  have hd0 : (0 : ℚ) < d := by exact_mod_cast Nat.pos_of_ne_zero hd
  have hlow : (2 : ℚ) ^ ((n.log2 : ℤ) - d.log2 - 1) ≤ n / d := by
    rw [sub_sub, zpow_sub₀ two_ne_zero]
    exact div_le_div₀ (by positivity) hn1 hd0 hd2.le
  have hhigh : (n : ℚ) / d < 2 ^ ((n.log2 : ℤ) - d.log2 + 1) := by
    rw [sub_add_eq_add_sub, zpow_sub₀ two_ne_zero]
    exact div_lt_div₀ hn2 hd1 (by positivity) (two_zpow_pos _)
  unfold binaryExponent
  dsimp only
  split
  · next hle => exact ⟨(powLe_iff (Nat.pos_of_ne_zero hd)).mp hle, hhigh⟩
  · next hgt =>
    rw [powLe_iff (Nat.pos_of_ne_zero hd), not_le] at hgt
    exact ⟨hlow, by rwa [sub_add_cancel]⟩

/-- The exponent of the unit in which `fl` rounds: 24 bits of significand, but no unit below `2^-149`. -/
def unitExponent (r : ℚ) : ℤ := max (binaryExponent r.num.natAbs r.den - 23) (-149)

/-- The integer `fl` rounds the size of `r` to, in that unit. -/
def significand (r : ℚ) : ℕ :=
  roundEven (r.num.natAbs * 2 ^ (-unitExponent r).toNat) (r.den * 2 ^ (unitExponent r).toNat)

/-- The size of `r`, rounded. -/
def roundedSize (r : ℚ) : ℚ := significand r * 2 ^ unitExponent r

theorem abs_eq_natAbs_div_den (r : ℚ) : |r| = (r.num.natAbs : ℚ) / r.den := by
  conv_lhs => rw [← Rat.num_div_den r]
  rw [abs_div, Nat.abs_cast, Nat.cast_natAbs, Int.cast_abs]

theorem roundsEven_significand (r : ℚ) : RoundsEven (|r| / 2 ^ unitExponent r) (significand r) := by
  have h := roundsEven_roundEven (r.num.natAbs * 2 ^ (-unitExponent r).toNat)
    (Nat.mul_pos r.den_pos (Nat.two_pow_pos (unitExponent r).toNat))
  have hscale : |r| / 2 ^ unitExponent r = (r.num.natAbs * 2 ^ (-unitExponent r).toNat : ℕ)
      / (r.den * 2 ^ (unitExponent r).toNat : ℕ) := by
    rw [abs_eq_natAbs_div_den, zpow_eq_toNat_div]
    push_cast
    rw [div_div_div_eq]
  rw [hscale]
  exact h

theorem abs_bounds {r : ℚ} (hr : r ≠ 0) :
    (unitExponent r ≤ -149 ∨ 2 ^ 23 * (2 : ℚ) ^ unitExponent r ≤ |r|) ∧ |r| < 2 ^ 24 * (2 : ℚ) ^ unitExponent r := by
  have hnum : r.num.natAbs ≠ 0 := Int.natAbs_ne_zero.mpr (Rat.num_ne_zero.mpr hr)
  obtain ⟨hlow, hhigh⟩ := binaryExponent_spec hnum r.den_nz
  rw [← abs_eq_natAbs_div_den] at hlow hhigh
  have hshift : ∀ (a : ℕ) (p : ℤ), (2 : ℚ) ^ a * 2 ^ p = 2 ^ (a + p) := fun a p => by
    rw [zpow_add₀ two_ne_zero, zpow_natCast]
  rw [hshift, hshift, unitExponent]
  constructor
  · refine (le_or_gt (binaryExponent r.num.natAbs r.den - 23) (-149)).imp (fun h => ?_) fun h => ?_
    · omega
    · rwa [max_eq_left h.le, Nat.cast_ofNat, add_sub_cancel]
  · exact hhigh.trans_le (zpow_le_zpow_right₀ one_le_two (by push_cast; omega))

theorem significand_le (r : ℚ) : significand r ≤ 2 ^ 24 := by
  by_cases hr : r = 0
  · simp [hr, significand, roundEven]
  · have hlt : |r| / 2 ^ unitExponent r < 2 ^ 24 := (div_lt_iff₀ (two_zpow_pos _)).mpr (abs_bounds hr).2
    have hhalf := (abs_le.mp (roundsEven_significand r).1).2
    by_contra! hgt
    have hgt' : (2 ^ 24 + 1 : ℚ) ≤ significand r := by exact_mod_cast hgt
    push_cast at hhalf
    linarith

theorem isFloat_roundedSize (r : ℚ) : IsFloat (roundedSize r) :=
  ⟨significand r, unitExponent r, significand_le r, le_max_right _ _, rfl⟩

theorem roundedSize_zero : roundedSize 0 = 0 := by simp [roundedSize, significand, roundEven]

theorem roundedSize_nonneg (r : ℚ) : 0 ≤ roundedSize r := mul_nonneg (Nat.cast_nonneg _) (two_zpow_pos _).le

theorem nearestEven_roundedSize (r : ℚ) : NearestEven |r| (roundedSize r) := by
  by_cases hr : r = 0
  · rw [hr, roundedSize_zero, abs_zero]
    exact nearestEven_self 0
  · exact (roundsEven_significand r).nearestEven (abs_bounds hr).1

/-- The test of overflow in `fl`, which drops a negative exponent of the unit: there the size is below `2^128` either way. -/
theorem overflow_test_iff (r : ℚ) :
    2 ^ 128 ≤ significand r * 2 ^ (unitExponent r).toNat ↔ (2 : ℚ) ^ 128 ≤ roundedSize r := by
  have hk : (significand r : ℚ) ≤ 2 ^ 24 := by exact_mod_cast significand_le r
  rcases le_or_gt 0 (unitExponent r) with hp | hp
  · lift unitExponent r to ℕ using hp with p hpe
    rw [roundedSize, ← hpe, Int.toNat_natCast, zpow_natCast]
    exact_mod_cast Iff.rfl
  · have hsmall : roundedSize r ≤ 2 ^ 24 * 1 :=
      mul_le_mul hk (zpow_le_one_of_nonpos₀ one_le_two hp.le) (two_zpow_pos _).le (by norm_num)
    rw [Int.toNat_of_nonpos hp.le, pow_zero, mul_one]
    have hk' := significand_le r
    exact ⟨fun h => by omega, fun h => by linarith⟩

/-- `fl` rounds the size and keeps the sign. -/
theorem fl_eq (r : ℚ) :
    fl r = if 2 ^ 128 ≤ roundedSize r then (if r < 0 then .negInf else .posInf)
      else .fin (if r < 0 then -roundedSize r else roundedSize r) := by
  by_cases hr : r = 0
  · simp [hr, fl, roundedSize_zero]
  · have hfl : fl r = if 2 ^ 128 ≤ significand r * 2 ^ (unitExponent r).toNat then (if r.num < 0 then .negInf else .posInf)
        else .fin (dyadic (if r.num < 0 then -(significand r : ℤ) else significand r) (unitExponent r)) :=
      if_neg (Rat.num_ne_zero.mpr hr)
    rw [hfl]
    simp only [overflow_test_iff, Rat.num_neg, dyadic_eq]
    split_ifs <;> simp [roundedSize]

theorem fl_of_nonneg {r : ℚ} (hr : 0 ≤ r) :
    fl r = if overflowBound ≤ |r| then .posInf else .fin (roundedSize r) := by
  simp only [fl_eq, (nearestEven_roundedSize r).overflow_iff (isFloat_roundedSize r), if_neg hr.not_gt]

theorem fl_of_neg {r : ℚ} (hr : r < 0) :
    fl r = if overflowBound ≤ |r| then .negInf else .fin (-roundedSize r) := by
  simp only [fl_eq, (nearestEven_roundedSize r).overflow_iff (isFloat_roundedSize r), if_pos hr]

theorem overflowBound_pos : 0 < overflowBound := by norm_num [overflowBound]

theorem fl_finite {r : ℚ} (h : |r| < overflowBound) : ∃ q, fl r = .fin q := by
  rcases le_or_gt 0 r with hr | hr
  · exact ⟨_, by rw [fl_of_nonneg hr, if_neg h.not_ge]⟩
  · exact ⟨_, by rw [fl_of_neg hr, if_neg h.not_ge]⟩

theorem fl_posInf {r : ℚ} (h : overflowBound ≤ r) : fl r = .posInf := by
  rw [fl_of_nonneg (overflowBound_pos.le.trans h), if_pos (h.trans (le_abs_self r))]

theorem fl_negInf {r : ℚ} (h : r ≤ -overflowBound) : fl r = .negInf := by
  rw [fl_of_neg (by linarith [overflowBound_pos]), if_pos ((le_neg.mp h).trans (neg_le_abs r))]

theorem fl_fin {r q : ℚ} (h : fl r = .fin q) : IsFloat q ∧ |q| < 2 ^ 128 ∧ NearestEven r q := by
  have hfloat := isFloat_roundedSize r
  have hnear := nearestEven_roundedSize r
  have hsize : ¬ overflowBound ≤ |r| → |roundedSize r| < 2 ^ 128 := fun hlt => by
    rwa [abs_of_nonneg (roundedSize_nonneg r), ← not_le, hnear.overflow_iff hfloat]
  rcases le_or_gt 0 r with hr | hr
  · rw [fl_of_nonneg hr] at h
    split at h
    · cases h
    · next hlt =>
      cases h
      rw [abs_of_nonneg hr] at hnear
      exact ⟨hfloat, hsize hlt, hnear⟩
  · rw [fl_of_neg hr] at h
    split at h
    · cases h
    · next hlt =>
      cases h
      rw [abs_of_neg hr] at hnear
      exact ⟨hfloat.neg, by rw [abs_neg]; exact hsize hlt, by simpa only [neg_neg] using hnear.neg⟩

/-- Settles O23: the size is rounded to the nearest number of the unbounded format, from which the bound of overflow and the
finite answers follow. -/
theorem flRoundsToNearest : Obligations.FlRoundsToNearest := by
  intro r
  refine ⟨fl_finite, fl_posInf, fl_negInf, fun q hq => ?_⟩
  obtain ⟨hfloat, hsize, hnear⟩ := fl_fin hq
  exact ⟨hfloat, by exact_mod_cast hsize, fun m p hm hp => hnear _ ⟨m, p, hm, hp, rfl⟩⟩

end Sys2Proof.Machine

namespace Sys2Proof.Machine

open Sys2Proof.Config (defaults)

/-! ## What a step finds to do, and what follows an instruction -/

section
variable {cfg : Cfg}

/-- Between transactions, without an instruction to run: no input is left, or the next one acts at once (R6, R355). -/
theorem fetchInput_moved {s t : State} (h : fetchInput cfg s = .moved t) :
    (s.inputs = [] ∧ t = s) ∨ ∃ i rest, s.inputs = i :: rest ∧ t = applyInput i (s.setInputs rest) := by
  unfold fetchInput at h
  split at h
  · next hin => exact .inl ⟨hin, (Fetched.moved.inj h).symm⟩
  · cases h
  · next i rest _ hin => exact .inr ⟨i, rest, hin, (Fetched.moved.inj h).symm⟩

/-- Between transactions only a bus transaction runs an instruction (R140). -/
theorem fetchInput_run {s u : State} {i : Instr} (h : fetchInput cfg s = .run i u) :
    ∃ op rest, s.inputs = .bus op :: rest ∧ i = decodeBus cfg op ∧ u = s.setInputs rest := by
  unfold fetchInput at h
  split at h
  · cases h
  · next op rest hin =>
    cases h
    exact ⟨op, rest, hin, rfl, rfl⟩
  · cases h

theorem fetchCommand_moved {s t : State} (h : fetchCommand s = .moved t) : t = incompleteCommand s := by
  unfold fetchCommand at h
  split at h <;> cases h
  rfl

theorem fetchCommand_run {s u : State} {i : Instr} (h : fetchCommand s = .run i u) :
    decodeFifo s.fifo = .ok i ∧ u = s := by
  unfold fetchCommand at h
  split at h <;> cases h
  next hdec => exact ⟨hdec, rfl⟩

/-- An iteration of the walker that runs no sub-command tests the outer loop, fails at a record, or reads a record that
completes nothing (R251, R252). -/
theorem fetchRecord_moved {s t : State} (h : fetchRecord cfg s = .moved t) :
    t = outerLoop cfg s
    ∨ (∃ f, t = s.setFail f)
    ∨ ∃ p w0 w1 e, s.walker.list = some p ∧ decodeList cfg s.walker.dlQuadsize (s.walker.buf ++ [w0, w1]) = .error e
        ∧ t = s.setWalker (s.walker.advance w0 w1) := by
  unfold fetchRecord at h
  split at h
  · exact .inl (Fetched.moved.inj h).symm
  · next p hp =>
    split at h
    · next e _ =>
      cases e with
      | raise f => exact .inr (.inl ⟨f, (Fetched.moved.inj h).symm⟩)
      | refuse r => cases h
    · next w0 w1 _ =>
      dsimp only at h
      split at h <;> cases h
      next e hdec => exact .inr (.inr ⟨p, w0, w1, e, hp, hdec, rfl⟩)

/-- An iteration of the walker runs the sub-command that its record completes (R252). -/
theorem fetchRecord_run {s u : State} {i : Instr} (h : fetchRecord cfg s = .run i u) :
    ∃ p w0 w1, s.walker.list = some p ∧ decodeList cfg s.walker.dlQuadsize (s.walker.buf ++ [w0, w1]) = .ok i
      ∧ u = s.setWalker (s.walker.advance w0 w1) := by
  unfold fetchRecord at h
  split at h
  · cases h
  · next p hp =>
    split at h
    · next e _ => cases e <;> cases h
    · next w0 w1 _ =>
      dsimp only at h
      split at h <;> cases h
      next hdec => exact ⟨p, w0, w1, hp, hdec, rfl⟩

end

/-- What follows an instruction (R176, R252): nothing, the end of a command, or an emptied local buffer. -/
theorem retire_cases (p : Phase) (s : State) :
    retire p s = s ∨ retire p s = finishCommand s ∨ retire p s = clearBuffer s := by
  cases hf : s.fail with
  | some f => exact .inl (retire_failed hf)
  | none =>
    rw [retire_running hf]
    cases p with
    | idle => exact .inl rfl
    | command =>
      cases s.phase with
      | walk => exact .inl rfl
      | idle => exact .inr (.inl rfl)
      | command => exact .inr (.inl rfl)
    | walk => exact .inr (.inr rfl)

@[simp] theorem retire_idle (s : State) : retire .idle s = s := by
  cases hf : s.fail with
  | some f => exact retire_failed hf
  | none => exact retire_running hf

/-! ## A step of each kind -/

/-- From a state that has failed, a step is the fault (R44). -/
theorem step_failed {s : State} {f : Fault} (hf : s.fail = some f) : step s = .fault f := by
  simp [step, hf]

/-- Settles O49: `step` looks at `fail` before anything else. -/
theorem failureIsTerminal : Obligations.FailureIsTerminal := fun _ _ => step_failed

/-- Run an instruction of the stream `p` names, then retire it. -/
def runThenRetire (p : Phase) (i : Instr) (s : State) : Result :=
  match exec i s with
  | .next u => .next (retire p u)
  | .fault f => .fault f
  | .refused r => .refused r

/-- A step that fetches an instruction runs and retires it. -/
theorem step_of_fetch_run {s u : State} {i : Instr} (hf : s.fail = none) (h : fetch defaults s = .run i u) :
    step s = runThenRetire u.phase i u := by
  cases hexec : exec i u <;> simp [step, hf, h, runThenRetire, hexec]

/-- A bus transaction at the head of the inputs is fetched between transactions. -/
theorem fetch_bus {s : State} {op : BusOp} {rest : List Input} (hp : s.phase = .idle) (hin : s.inputs = .bus op :: rest) :
    fetch defaults s = .run (decodeBus defaults op) (s.setInputs rest) := by
  rw [fetch_idle hp, fetchInput, hin]

/-- A whole command in the buffer is fetched after a push. -/
theorem fetch_whole_command {s : State} {i : Instr} (hp : s.phase = .command) (hdec : decodeFifo s.fifo = .ok i) :
    fetch defaults s = .run i s := by
  rw [fetch_command hp, fetchCommand, hdec]

/-- A sub-command that the record just read completes is fetched during a walk. -/
theorem fetch_completed_record {s : State} {p : Nat} {w0 w1 : Word} {i : Instr} (hp : s.phase = .walk)
    (hlist : s.walker.list = some p) (hread : readRecord defaults s.wave0 p s.walker.cur = .ok (w0, w1))
    (hdec : decodeList defaults s.walker.dlQuadsize (s.walker.buf ++ [w0, w1]) = .ok i) :
    fetch defaults s = .run i (s.setWalker (s.walker.advance w0 w1)) := by
  rw [fetch_walk hp, fetchRecord, hlist]
  simp [hread, Walker.advance, hdec]

/-- Settles O5: in each phase the instruction is the one `fetch` answers. -/
theorem stepRunsDecodedInstruction : Obligations.StepRunsDecodedInstruction := by
  refine ⟨?bus, ?command, ?record⟩
  case bus =>
    intro s op rest hf hp hin
    exact step_of_fetch_run hf (fetch_bus hp hin)
  case command =>
    intro s i hf hp hdec
    exact step_of_fetch_run hf (fetch_whole_command hp hdec)
  case record =>
    intro s p w0 w1 i hf hp hlist hread hdec
    exact step_of_fetch_run hf (fetch_completed_record hp hlist hread hdec)

end Sys2Proof.Machine

namespace Sys2Proof.Machine

open Sys2Proof.Config (defaults)

/-! ## Invariants of the banks, the pointers and the clip rectangle

`MemoryOk`, `PointersOk` and `ClipOk` have one form: a check of the surviving fields, made also of every snapshot still to be
restored. What keeps such an invariant is said once, for any check that reads the bounded fields alone. -/

/-- The surviving fields on which the rules put a bound (R33, R37, R38). -/
structure Bounded where
  wave0 : Memory
  wave1 : Memory
  clip : Option Rect
  renderbase : Nat
  texbase : Nat

def Arch.bounded (a : Arch) : Bounded := ⟨a.wave0, a.wave1, a.clip, a.renderbase, a.texbase⟩

/-- A check `p` holds of the state and of every snapshot still to be restored. -/
def State.Sound (p : Arch → Bool) (s : State) : Prop := p s.toArch = true ∧ s.restores p = true

theorem memoryOk_iff_sound {s : State} : s.MemoryOk ↔ s.Sound Arch.memoryOk := .rfl

theorem pointersOk_iff_sound {s : State} : s.PointersOk ↔ s.Sound Arch.pointersOk := .rfl

theorem clipOk_iff_sound {s : State} : s.ClipOk ↔ s.Sound Arch.clipOk := .rfl

/-- A check that reads the bounded fields alone, and that every change of one of them keeps. -/
structure BoundKept (p : Arch → Bool) : Prop where
  congr : ∀ a b : Arch, b.bounded = a.bounded → p a = true → p b = true
  store : ∀ (s : State) b a n v, checkAccess defaults b a n = .ok () → p s.toArch = true →
    p (s.setBank b ((s.bank b).writeLE a.toNat v n)).toArch = true
  setScreen : ∀ (s : State) g, p s.toArch = true → p (s.setScreen (GeomAnswer.clip g) (GeomAnswer.yscale g)).toArch = true
  setRenderbase : ∀ (s : State) data, p s.toArch = true → p (s.setRenderbase (renderPointer defaults data)).toArch = true
  setTexbase : ∀ (s : State) data, p s.toArch = true → p (s.setTexbase (texturePointer defaults data)).toArch = true
  reset : ∀ a : Arch, p a = true → p (resetArch a.wave0 a.wave1 a.fail) = true

section
variable {p : Arch → Bool}

@[simp] theorem setBank_inputs (s : State) (b : Bank) (m : Memory) : (s.setBank b m).inputs = s.inputs := by
  cases b <;> rfl

theorem restores_congr {s t : State} (h : t.inputs = s.inputs) : t.restores p = s.restores p := by
  simp [State.restores, h]

/-- Taking an input leaves fewer snapshots to be restored. -/
theorem restores_tail {s : State} {i : Input} {rest : List Input} (hin : s.inputs = i :: rest)
    (h : s.restores p = true) : (s.setInputs rest).restores p = true := by
  rw [State.restores, hin, List.all_cons, Bool.and_eq_true] at h
  exact h.2

theorem restores_head {s : State} {a : Arch} {rest : List Input} (hin : s.inputs = .restore a :: rest)
    (h : s.restores p = true) : p a = true := by
  rw [State.restores, hin, List.all_cons, Bool.and_eq_true] at h
  exact h.1

/-- A change of other fields keeps the check, and the inputs stay. -/
theorem BoundKept.sound_congr (K : BoundKept p) {s t : State} (h : s.Sound p) (hb : t.toArch.bounded = s.toArch.bounded)
    (hin : t.inputs = s.inputs) : t.Sound p :=
  ⟨K.congr _ _ hb h.1, (restores_congr hin).trans h.2⟩

/-- What an instruction changes keeps the check: the five bounded fields by the check's own laws, the others unread. -/
theorem BoundKept.keptByControl (K : BoundKept p) : KeptByControl defaults (State.Sound p) where
  setReg _ _ _ h := K.sound_congr h rfl rfl
  store s b a n v hc h := ⟨K.store s b a n v hc h.1, (restores_congr (setBank_inputs s b _)).trans h.2⟩
  setMatrix _ _ h := K.sound_congr h rfl rfl
  setPoint _ _ h := K.sound_congr h rfl rfl
  setPoint2 _ _ h := K.sound_congr h rfl rfl
  setScreen s g h := ⟨K.setScreen s g h.1, h.2⟩
  setRenderbase s data h := ⟨K.setRenderbase s data h.1, h.2⟩
  setTexbase s data h := ⟨K.setTexbase s data h.1, h.2⟩
  setQuadSize _ _ h := K.sound_congr h rfl rfl
  setTexwidthPrev _ _ h := K.sound_congr h rfl rfl
  setFail _ _ _ h := K.sound_congr h rfl rfl
  setSeenCodes _ _ h := K.sound_congr h rfl rfl
  emit _ _ h := K.sound_congr h rfl rfl
  nextFree _ h := K.sound_congr h rfl rfl
  startWalk _ _ _ _ h := K.sound_congr h rfl rfl
  selectTexture _ _ h := K.sound_congr h rfl rfl
  widen _ _ h := K.sound_congr h rfl rfl
  push _ _ _ _ h := K.sound_congr h rfl rfl

/-- The firing of a timer changes the lines and the timers alone (R345 to R347). -/
theorem fireTimer_bounded (t : Timer) (s : State) :
    (fireTimer t s).toArch.bounded = s.toArch.bounded ∧ (fireTimer t s).inputs = s.inputs := by
  cases t <;> simp only [fireTimer] <;> split <;> exact ⟨rfl, rfl⟩

/-- Taking an input keeps the check: a restored snapshot is one that was checked. -/
theorem BoundKept.applyInput (K : BoundKept p) {s : State} {i : Input} {rest : List Input} (hin : s.inputs = i :: rest)
    (h : s.Sound p) : (Machine.applyInput i (s.setInputs rest)).Sound p := by
  have htaken : (s.setInputs rest).Sound p := ⟨h.1, restores_tail hin h.2⟩
  cases i with
  | bus op => exact htaken
  | fire t =>
    obtain ⟨hb, hi⟩ := fireTimer_bounded t (s.setInputs rest)
    exact K.sound_congr htaken hb hi
  | setZbase z => exact K.sound_congr htaken rfl rfl
  | debugToggle active => exact K.sound_congr htaken rfl rfl
  | deviceReset => exact ⟨K.reset _ htaken.1, htaken.2⟩
  | snapshot => exact K.sound_congr htaken rfl rfl
  | restore a => exact ⟨restores_head hin h.2, htaken.2⟩

/-- A fetch that moves the machine without an instruction keeps the check. -/
theorem BoundKept.fetch_moved (K : BoundKept p) {s t : State} (h : fetch defaults s = .moved t) (hs : s.Sound p) :
    t.Sound p := by
  cases hp : s.phase with
  | idle =>
    rw [fetch_idle hp] at h
    rcases fetchInput_moved h with ⟨_, rfl⟩ | ⟨i, rest, hin, rfl⟩
    · exact hs
    · exact K.applyInput hin hs
  | command =>
    rw [fetch_command hp] at h
    cases fetchCommand_moved h
    exact K.sound_congr hs rfl rfl
  | walk =>
    rw [fetch_walk hp] at h
    rcases fetchRecord_moved h with rfl | ⟨f, rfl⟩ | ⟨_, w0, w1, _, _, _, rfl⟩
    · rcases outerLoop_cases (cfg := defaults) s with ⟨_, hl⟩ | ⟨_, hl⟩ <;> rw [hl] <;> exact K.sound_congr hs rfl rfl
    · exact K.sound_congr hs rfl rfl
    · exact K.sound_congr hs rfl rfl

/-- Fetching an instruction changes no `fail` and keeps the check. -/
theorem BoundKept.fetch_run (K : BoundKept p) {s u : State} {i : Instr} (h : fetch defaults s = .run i u)
    (hs : s.Sound p) : u.fail = s.fail ∧ u.Sound p := by
  cases hp : s.phase with
  | idle =>
    rw [fetch_idle hp] at h
    obtain ⟨op, rest, hin, _, rfl⟩ := fetchInput_run h
    exact ⟨rfl, K.applyInput hin hs⟩
  | command =>
    rw [fetch_command hp] at h
    obtain ⟨_, rfl⟩ := fetchCommand_run h
    exact ⟨rfl, hs⟩
  | walk =>
    rw [fetch_walk hp] at h
    obtain ⟨_, w0, w1, _, _, rfl⟩ := fetchRecord_run h
    exact ⟨rfl, K.sound_congr hs rfl rfl⟩

theorem BoundKept.retire (K : BoundKept p) {q : Phase} {s : State} (hs : s.Sound p) : (Machine.retire q s).Sound p := by
  rcases retire_cases q s with h | h | h <;> rw [h]
  · exact hs
  · exact K.sound_congr hs rfl rfl
  · exact K.sound_congr hs rfl rfl

/-- Every step keeps such a check of the state and of the snapshots still to be restored. -/
theorem BoundKept.step (K : BoundKept p) {s t : State} (h : Machine.step s = .next t) (hs : s.Sound p) : t.Sound p := by
  obtain ⟨hf, hmoved | ⟨i, u, v, hrun, hexec, rfl⟩⟩ := step_next h
  · exact K.fetch_moved hmoved hs
  · obtain ⟨hfu, hu⟩ := K.fetch_run hrun hs
    exact K.retire (K.keptByControl.exec hexec (hfu.trans hf) hu)

end

/-! ## Memory (R37, R80, R83) -/

theorem within_iff {m : Memory} {n : Nat} : m.within n = true ↔ ∀ c ∈ m, c.1 < n := by
  simp [Memory.within]

/-- A store inside the bank lists only addresses of the bank. -/
theorem within_writeLE {m : Memory} {a v n size : Nat} (hm : m.within size = true) (ha : a + n ≤ size) :
    (m.writeLE a v n).within size = true := by
  rw [within_iff] at hm ⊢
  intro c hc
  rcases Memory.mem_writeLE m a v n c hc with ⟨_, hlt⟩ | hold
  · omega
  · exact hm c hold

theorem memoryOk_iff {a : Arch} : a.memoryOk = true ↔
    (a.wave0.wf = true ∧ a.wave0.within Config.size0 = true) ∧ a.wave1.wf = true ∧ a.wave1.within Config.size1 = true := by
  simp only [Arch.memoryOk, Bool.and_eq_true, and_assoc]

/-- An access that may be made ends inside the bank (R83). -/
theorem checkAccess_within {cfg : Cfg} {b : Bank} {a : Int} {n : Nat} (h : checkAccess cfg b a n = .ok ()) :
    a.toNat + n ≤ bankSize cfg b := by
  obtain ⟨_, hlo, hhi⟩ := checkAccess_ok.mp h
  omega

theorem memoryOk_store (s : State) (b : Bank) (a : Int) (n v : Nat) (hc : checkAccess defaults b a n = .ok ())
    (h : s.toArch.memoryOk = true) : (s.setBank b ((s.bank b).writeLE a.toNat v n)).toArch.memoryOk = true := by
  have hend := checkAccess_within hc
  rw [memoryOk_iff] at h ⊢
  obtain ⟨⟨hwf0, hin0⟩, hwf1, hin1⟩ := h
  cases b with
  | bank0 => exact ⟨⟨Memory.wf_writeLE _ _ _ _ hwf0, within_writeLE hin0 hend⟩, hwf1, hin1⟩
  | bank1 => exact ⟨⟨hwf0, hin0⟩, Memory.wf_writeLE _ _ _ _ hwf1, within_writeLE hin1 hend⟩

theorem boundKept_memoryOk : BoundKept Arch.memoryOk where
  congr a b hb h := by
    injection hb with h0 h1
    rwa [Arch.memoryOk, h0, h1]
  store := memoryOk_store
  setScreen _ _ h := h
  setRenderbase _ _ h := h
  setTexbase _ _ h := h
  reset _ h := h

/-- Settles O56: only a store and a restore touch a bank, and a store is made inside its bank. -/
theorem stepKeepsMemoryOk : Obligations.StepKeepsMemoryOk := fun _ _ hs h =>
  memoryOk_iff_sound.mpr (boundKept_memoryOk.step h (memoryOk_iff_sound.mp hs))

/-! ## Pointers and clip rectangle (R33, R38, R182) -/

/-- A cell address is a multiple of the cell size inside the bank (R84, R85). -/
theorem cellAddress_bound {x y W H cell : Nat} (hW : 0 < W) (hH : 0 < H) (hcell : 0 < cell) :
    (x % W + y % H * W) * cell < W * H * cell := by
  have hx := Nat.mod_lt x hW
  have hrow : (y % H + 1) * W ≤ H * W := Nat.mul_le_mul_right W (Nat.mod_lt y hH)
  refine Nat.mul_lt_mul_of_pos_right ?_ hcell
  rw [Nat.add_mul, Nat.one_mul] at hrow
  rw [Nat.mul_comm W H]
  omega

theorem expand0_bound (e : Word) : expand0 defaults e % 8 = 0 ∧ expand0 defaults e < Config.size0 :=
  ⟨Nat.mul_mod_left _ _, cellAddress_bound (by decide) (by decide) (by decide)⟩

theorem expand1_bound (e : Word) : expand1 defaults e % Config.cell1 = 0 ∧ expand1 defaults e < Config.size1 :=
  ⟨Nat.mul_mod_left _ _, cellAddress_bound (by decide) (by decide) (by decide)⟩

theorem pointersOk_iff {a : Arch} : a.pointersOk = true ↔
    (a.renderbase % Config.cell1 = 0 ∧ a.renderbase < Config.size1) ∧ a.texbase < Config.W0 * Config.H0 := by
  simp only [Arch.pointersOk, Bool.and_eq_true, decide_eq_true_eq]

theorem boundKept_pointersOk : BoundKept Arch.pointersOk where
  congr a b hb h := by
    injection hb with _ _ _ hr ht
    rwa [Arch.pointersOk, hr, ht]
  store s b _ _ _ _ h := by cases b <;> exact h
  setScreen _ _ h := h
  setRenderbase s data h := pointersOk_iff.mpr ⟨expand1_bound _, (pointersOk_iff.mp h).2⟩
  setTexbase s data h := pointersOk_iff.mpr ⟨(pointersOk_iff.mp h).1, Nat.mod_lt _ (by decide)⟩
  reset _ _ := rfl

theorem boundKept_clipOk : BoundKept Arch.clipOk where
  congr a b hb h := by
    injection hb with _ _ hc
    rwa [Arch.clipOk, hc]
  store s b _ _ _ _ h := by cases b <;> exact h
  setScreen s g _ := by simp [Arch.clipOk, State.setScreen, GeomAnswer.clip]
  setRenderbase _ _ h := h
  setTexbase _ _ h := h
  reset _ _ := rfl

/-- Settles O57: a pointer write answers a cell of its bank, and `Geometry` an ordered rectangle. -/
theorem stepKeepsPointersAndClipOk : Obligations.StepKeepsPointersAndClipOk := fun _ _ h =>
  ⟨fun hs => pointersOk_iff_sound.mpr (boundKept_pointersOk.step h (pointersOk_iff_sound.mp hs)),
    fun hs => clipOk_iff_sound.mpr (boundKept_clipOk.step h (clipOk_iff_sound.mp hs))⟩

end Sys2Proof.Machine

namespace Sys2Proof

/-! ## The stream of an instruction -/

/-- The phase in which the machine runs an instruction: that of the stream its row belongs to (R145). -/
def Instr.phase : Instr → Machine.Phase
  | .setreg _ _ | .setmat _ _ | .setmat8 _ _ _ | .setpt15 _ | .setpt16 _ | .pt2clr _ | .model23 _ _ | .model24 _ _
  | .sync31 | .sync32 | .dquad _ _ | .nop40 _ | .unk _ => .command
  | .dTexsel21 _ | .dTexsel22 _ | .dSync | .dSetreg _ _ | .dQuad _ _ _ _ _ | .dUnk _ _ => .walk
  | .rd _ | .wr _ _ | .push _ | .ptrRender _ | .ptrTex _ | .ptrQsize _ => .idle

theorem decodeBus_phase (cfg : Cfg) (op : BusOp) : (decodeBus cfg op).phase = .idle := by
  cases op with
  | read o => rfl
  | write o v =>
    simp only [decodeBus, apply_ite Instr.phase]
    simp only [Instr.phase, ite_self]

theorem fifoCommand_phase (op : BitVec 8) (d : List Word) : (fifoCommand op d).phase = .command := by
  simp only [fifoCommand, apply_ite Instr.phase]
  simp only [Instr.phase, ite_self]

theorem listCommand_phase (cfg : Cfg) (framing : Framing) (op : BitVec 8) (buf : List Word) :
    (listCommand cfg framing op buf).phase = .walk := by
  simp only [listCommand, quadAt, apply_ite Instr.phase]
  simp only [Instr.phase, ite_self]

theorem decodeFifo_phase {d : List Word} {i : Instr} (h : decodeFifo d = .ok i) : i.phase = .command := by
  cases d with
  | nil => cases h
  | cons w ws =>
    rw [decodeFifo] at h
    split at h <;> cases h
    exact fifoCommand_phase _ _

theorem decodeList_phase {cfg : Cfg} {framing : Framing} {buf : List Word} {i : Instr}
    (h : decodeList cfg framing buf = .ok i) : i.phase = .walk := by
  cases buf with
  | nil => cases h
  | cons w ws =>
    rw [decodeList] at h
    split at h <;> cases h
    exact listCommand_phase _ _ _ _

end Sys2Proof

namespace Sys2Proof.Machine

open Sys2Proof.Config (defaults)

/-! ## What an instruction can do to the transform and to the walk -/

/-- From `s` to `t` neither the transform and the depth bias nor the walker and the phase have changed. -/
structure LeavesControl (s t : State) : Prop where
  matrix : t.matrix = s.matrix
  point : t.point = s.point
  point2 : t.point2 = s.point2
  zbase : t.zbase = s.zbase
  walker : t.walker = s.walker
  phase : t.phase = s.phase

theorem LeavesControl.refl (s : State) : LeavesControl s s := ⟨rfl, rfl, rfl, rfl, rfl, rfl⟩

theorem LeavesControl.trans {a b c : State} (h : LeavesControl a b) (k : LeavesControl b c) : LeavesControl a c :=
  ⟨k.matrix.trans h.matrix, k.point.trans h.point, k.point2.trans h.point2, k.zbase.trans h.zbase,
    k.walker.trans h.walker, k.phase.trans h.phase⟩

theorem LeavesControl.setReg (s : State) (o : Offset) (v : Word) : LeavesControl s (s.setReg o v) :=
  ⟨rfl, rfl, rfl, rfl, rfl, rfl⟩

theorem LeavesControl.setFail (s : State) (f : Fault) : LeavesControl s (s.setFail f) :=
  ⟨rfl, rfl, rfl, rfl, rfl, rfl⟩

theorem LeavesControl.emit (s : State) (o : Output) : LeavesControl s (s.emit o) :=
  ⟨rfl, rfl, rfl, rfl, rfl, rfl⟩

theorem LeavesControl.setQuadSize (s : State) (f : Framing) : LeavesControl s (s.setQuadSize f) :=
  ⟨rfl, rfl, rfl, rfl, rfl, rfl⟩

theorem OnlyWave1.leavesControl {s t : State} (h : OnlyWave1 s t) : LeavesControl s t := by
  obtain ⟨m, f, rfl⟩ := h
  exact ⟨rfl, rfl, rfl, rfl, rfl, rfl⟩

section
variable {cfg : Cfg}

theorem pointerWrite_leavesControl (idx : BitVec 8) (data : BitVec 24) (s : State) :
    LeavesControl s (pointerWrite cfg idx data s) := by
  rcases pointerWrite_cases (cfg := cfg) idx data s with h | h | h | h <;> rw [h] <;> exact ⟨rfl, rfl, rfl, rfl, rfl, rfl⟩

theorem geometryUpdate_leavesControl (s : State) : LeavesControl s (geometryUpdate cfg s) := by
  rcases applyGeometry_cases (cfg.geometry s.regs) s with ⟨_, h⟩ | ⟨_, h⟩ <;> rw [geometryUpdate, h] <;>
    exact ⟨rfl, rfl, rfl, rfl, rfl, rfl⟩

theorem portAction_leavesControl {a : PortAction} {s t : State} (h : portAction cfg a s = .next t) :
    LeavesControl s t := by
  rcases portAction_next h with rfl | ⟨o, v, _, rfl⟩ | ⟨b, addr, v, _, rfl⟩ | ⟨f, rfl⟩ | ⟨idx, data, rfl⟩
  · exact .refl _
  · exact .setReg _ _ _
  · cases b <;> exact ⟨rfl, rfl, rfl, rfl, rfl, rfl⟩
  · exact .setFail _ _
  · exact pointerWrite_leavesControl _ _ _

/-- A bus write that pushes nothing (R175). -/
theorem busWrite_leavesControl {o : Offset} {v : Word} {s t : State} (ho : o ≠ cfg.fifoTrigger)
    (h : busWrite cfg o v s = .next t) : LeavesControl s t := by
  obtain ⟨_, ⟨htrigger, _⟩ | ⟨_, rfl⟩ | ⟨_, rfl⟩ | ⟨_, hport⟩ | rfl⟩ := busWrite_next h
  · exact absurd htrigger ho
  · exact (LeavesControl.setReg s o v).trans (pointerWrite_leavesControl _ _ _)
  · exact (LeavesControl.setReg s o v).trans (geometryUpdate_leavesControl _)
  · exact (LeavesControl.setReg s o v).trans
      (portWrite_rel LeavesControl .refl (fun _ _ _ => .trans) (fun _ _ _ => portAction_leavesControl) hport)
  · exact .setReg s o v

/-- A push goes on to the FIFO processor (R176). -/
theorem busWrite_push {v : Word} {s t : State} (h : busWrite cfg cfg.fifoTrigger v s = .next t) :
    t = ((s.setReg cfg.fifoTrigger v).setFifo (s.fifo ++ [v])).setPhase .command := by
  obtain ⟨_, h⟩ := accepting_next h
  simp only [if_true] at h
  exact (fifoPush_next h).2

theorem quadDraw_leavesControl {v0 v1 v2 v3 : QVertex} {texoffs : Word} {s t : State}
    (h : quadDraw cfg v0 v1 v2 v3 texoffs s = .next t) : LeavesControl s t := by
  obtain ⟨m, f, w, cs, os, n, rfl⟩ := quadDraw_frame h
  exact ⟨rfl, rfl, rfl, rfl, rfl, rfl⟩

theorem setPoint2AndClear_leavesControl {p : Vec3 Word} {s t : State} (h : setPoint2AndClear cfg p s = .next t) :
    LeavesControl (s.setPoint2 (p.map (dspFloat cfg))) t := by
  rw [setPoint2AndClear] at h
  split at h
  · cases h
    exact .setFail _ _
  · exact (clearDepth_onlyWave1 h).leavesControl

theorem hostRead_leavesControl {o : Offset} {s t : State} (h : hostRead cfg o s = .next t) : LeavesControl s t := by
  obtain ⟨_, h⟩ := accepting_next h
  cases h
  rcases busRead_snd (cfg := cfg) o s with hr | hr <;> rw [hr] <;> exact ⟨rfl, rfl, rfl, rfl, rfl, rfl⟩

end

theorem hostPointer_leavesControl {idx : BitVec 8} {data : BitVec 24} {s t : State}
    (h : hostPointer defaults idx data s = .next t) : LeavesControl s t :=
  busWrite_leavesControl (by decide) h

/-- What an instruction that goes on can do to the transform, the walker and the phase: nothing, or what its own row says. -/
inductive Effect (s : State) : Instr → State → Prop
  | leaves {i t} : LeavesControl s t → Effect s i t
  | setmat m p : Effect s (.setmat m p) (setTransform defaults m p s)
  | setmat8 w m p : Effect s (.setmat8 w m p) (setTransform defaults m p s)
  | setpt15 p : Effect s (.setpt15 p) (setTranslation defaults p s)
  | setpt16 p : Effect s (.setpt16 p) (setTranslation defaults p s)
  | pt2clr p {t} : LeavesControl (s.setPoint2 (p.map (dspFloat defaults))) t → Effect s (.pt2clr p) t
  | model {i : Instr} base (count : BitVec 16) : i.phase = .command → count.toNat ≤ Config.dlCountMax →
      Effect s i ((s.setWalker ⟨base, count.toNat, none, 0, [], s.quadSize, 0#32⟩).setPhase .walk)
  | texsel {i : Instr} w : i.phase = .walk → Effect s i (selectTexture w s)
  | widen {i : Instr} {t} : i.phase = .walk →
      LeavesControl (s.setWalker { s.walker with dlQuadsize := .fourteen }) t → Effect s i t
  | push {i : Instr} v : i.phase = .idle →
      Effect s i (((s.setReg Config.fifoTrigger v).setFifo (s.fifo ++ [v])).setPhase .command)

theorem startWalk_effect {i : Instr} (hi : i.phase = .command) {base : Word} {count : BitVec 16} {s t : State}
    (h : startWalk defaults base count s = .next t) : Effect s i t := by
  rcases startWalk_next h with ⟨_, rfl⟩ | ⟨hcount, rfl⟩
  · exact .leaves (.setFail _ _)
  · exact .model base count hi hcount

/-- What each instruction does, said once (R140 to R145). -/
theorem exec_effect {i : Instr} {s t : State} (h : exec i s = .next t) : Effect s i t := by
  cases i with
  | setreg reg value =>
    simp only [exec, execSetreg, commandWrite] at h
    split at h
    · cases h
      exact .leaves (.refl s)
    · next hreg => exact .leaves (busWrite_leavesControl hreg h)
  | setmat m p => cases h; exact .setmat m p
  | setmat8 w m p => cases h; exact .setmat8 w m p
  | setpt15 p => cases h; exact .setpt15 p
  | setpt16 p => cases h; exact .setpt16 p
  | pt2clr p => exact .pt2clr p (setPoint2AndClear_leavesControl h)
  | model23 count base => exact startWalk_effect rfl h
  | model24 count base => exact startWalk_effect rfl h
  | sync31 => cases h; exact .leaves (.setQuadSize s _)
  | sync32 => cases h; exact .leaves (.setQuadSize s _)
  | dquad low ws => cases h; exact .leaves (.emit s _)
  | nop40 low => cases h; exact .leaves (.emit s _)
  | unk w => cases h; exact .leaves (.emit s _)
  | dTexsel21 w => cases h; exact .texsel w rfl
  | dTexsel22 w => cases h; exact .texsel w rfl
  | dSync => cases h; exact .leaves (.refl s)
  | dSetreg reg value =>
    simp only [exec, execDSetreg, listWrite] at h
    split at h
    · cases h
      exact .leaves (.setFail s _)
    · next hreg => exact .leaves (busWrite_leavesControl hreg h)
  | dQuad f a b c d => exact .leaves (quadDraw_leavesControl h)
  | dUnk v w =>
    simp only [exec, execDUnk] at h
    split at h <;> cases h
    · exact .widen rfl ⟨rfl, rfl, rfl, rfl, rfl, rfl⟩
    · exact .leaves (.emit s _)
  | rd o => exact .leaves (hostRead_leavesControl h)
  | wr o v =>
    by_cases ho : o = Config.fifoTrigger
    · subst ho
      cases busWrite_push (cfg := defaults) h
      exact .push v rfl
    · exact .leaves (busWrite_leavesControl ho h)
  | push v =>
    cases busWrite_push (cfg := defaults) h
    exact .push v rfl
  | ptrRender data => exact .leaves (hostPointer_leavesControl h)
  | ptrTex data => exact .leaves (hostPointer_leavesControl h)
  | ptrQsize data => exact .leaves (hostPointer_leavesControl h)

/-! ## The transform (R35, R36, R39) -/

theorem Effect.zbase {i : Instr} {s t : State} (h : Effect s i t) : t.zbase = s.zbase := by
  cases h with
  | leaves h => exact h.zbase
  | pt2clr p h => exact h.zbase
  | widen _ h => exact h.zbase
  | _ => rfl

theorem Effect.matrix {i : Instr} {s t : State} (h : Effect s i t) (hmat : ∀ m p, i ≠ .setmat m p)
    (hmat8 : ∀ w m p, i ≠ .setmat8 w m p) : t.matrix = s.matrix := by
  cases h with
  | leaves h => exact h.matrix
  | setmat m p => exact absurd rfl (hmat m p)
  | setmat8 w m p => exact absurd rfl (hmat8 w m p)
  | pt2clr p h => exact h.matrix
  | widen _ h => exact h.matrix
  | _ => rfl

theorem Effect.point {i : Instr} {s t : State} (h : Effect s i t) (hmat : ∀ m p, i ≠ .setmat m p)
    (hmat8 : ∀ w m p, i ≠ .setmat8 w m p) (hpt15 : ∀ p, i ≠ .setpt15 p) (hpt16 : ∀ p, i ≠ .setpt16 p) :
    t.point = s.point := by
  cases h with
  | leaves h => exact h.point
  | setmat m p => exact absurd rfl (hmat m p)
  | setmat8 w m p => exact absurd rfl (hmat8 w m p)
  | setpt15 p => exact absurd rfl (hpt15 p)
  | setpt16 p => exact absurd rfl (hpt16 p)
  | pt2clr p h => exact h.point
  | widen _ h => exact h.point
  | _ => rfl

theorem Effect.point2 {i : Instr} {s t : State} (h : Effect s i t) (hclr : ∀ p, i ≠ .pt2clr p) :
    t.point2 = s.point2 := by
  cases h with
  | leaves h => exact h.point2
  | pt2clr p _ => exact absurd rfl (hclr p)
  | widen _ h => exact h.point2
  | _ => rfl

theorem retire_zbase (p : Phase) (s : State) : (retire p s).zbase = s.zbase := by
  rcases retire_cases p s with h | h | h <;> rw [h] <;> rfl

/-- During a transaction no input is taken, so only an instruction could write `zbase`. -/
theorem step_zbase {s t : State} (hp : s.phase ≠ .idle) (h : step s = .next t) : t.zbase = s.zbase := by
  obtain ⟨_, hmoved | ⟨i, u, v, hrun, hexec, rfl⟩⟩ := step_next h
  · cases hphase : s.phase with
    | idle => exact absurd hphase hp
    | command =>
      rw [fetch_command hphase] at hmoved
      rw [fetchCommand_moved hmoved]
      rfl
    | walk =>
      rw [fetch_walk hphase] at hmoved
      rcases fetchRecord_moved hmoved with rfl | ⟨f, rfl⟩ | ⟨_, w0, w1, _, _, _, rfl⟩
      · rcases outerLoop_cases (cfg := defaults) s with ⟨_, hl⟩ | ⟨_, hl⟩ <;> rw [hl] <;> rfl
      · rfl
      · rfl
  · rw [retire_zbase, (exec_effect hexec).zbase]
    cases hphase : s.phase with
    | idle => exact absurd hphase hp
    | command =>
      rw [fetch_command hphase] at hrun
      rw [(fetchCommand_run hrun).2]
    | walk =>
      rw [fetch_walk hphase] at hrun
      obtain ⟨_, w0, w1, _, _, rfl⟩ := fetchRecord_run hrun
      rfl

/-- Settles O55: each field is left by every effect but those of its own commands. -/
theorem transformWriters : Obligations.TransformWriters := by
  refine ⟨fun i s t _ h => ?_, fun s t => step_zbase⟩
  have heffect := exec_effect h
  exact ⟨heffect.zbase, fun hmat hmat8 => ⟨heffect.matrix hmat hmat8, heffect.point hmat hmat8⟩, heffect.point2⟩

/-! ## The walker (R41, R46, R250 to R252) -/

/-- The bounds of the walker's transients, whatever the phase. -/
structure Walker.InBounds (w : Walker) : Prop where
  count : w.count ≤ Config.dlCountMax
  list : ∀ p, w.list = some p → p % 8 = 0 ∧ p < Config.size0 ∧ w.base = 0#32 ∧ w.cur ≤ w.count
  even : w.buf.length % 2 = 0
  short : w.buf.length ≤ 14

theorem walkerOk_iff {s : State} : s.WalkerOk ↔
    (s.phase ≠ .walk → s.walker = Walker.clear) ∧ s.walker.InBounds ∧ (s.fail = none → s.walker.waiting = true) :=
  ⟨fun ⟨hclear, hcount, hlist, heven, hshort, hwait⟩ => ⟨hclear, ⟨hcount, hlist, heven, hshort⟩, hwait⟩,
    fun ⟨hclear, ⟨hcount, hlist, heven, hshort⟩, hwait⟩ => ⟨hclear, hcount, hlist, heven, hshort, hwait⟩⟩

/-- A walker with an empty buffer that is at the outer loop's test. -/
theorem Walker.inBounds_of_no_list {w : Walker} (hcount : w.count ≤ Config.dlCountMax) (hlist : w.list = none)
    (hbuf : w.buf = []) : w.InBounds := by
  refine ⟨hcount, ?_, ?_, ?_⟩ <;> simp [hlist, hbuf]

theorem Walker.waiting_of_empty {w : Walker} (h : w.buf = []) : w.waiting = true := by
  simp [Walker.waiting, h]

theorem walkerOk_of_clear {s : State} (h : s.walker = Walker.clear) : s.WalkerOk :=
  walkerOk_iff.mpr ⟨fun _ => h, Walker.inBounds_of_no_list (h ▸ Nat.zero_le _) (h ▸ rfl) (h ▸ rfl),
    fun _ => Walker.waiting_of_empty (h ▸ rfl)⟩

theorem walkerOk_of_walk {s : State} (hp : s.phase = .walk) (hb : s.walker.InBounds)
    (hw : s.fail = none → s.walker.waiting = true) : s.WalkerOk :=
  walkerOk_iff.mpr ⟨fun h => absurd hp h, hb, hw⟩

/-- A buffer that completes nothing waits (R252). -/
theorem Walker.waiting_of_incomplete {w : Walker} {e : DecodeError} (h : decodeList defaults w.dlQuadsize w.buf = .error e) :
    w.waiting = true := by
  rw [Walker.waiting]
  cases hbuf : w.buf with
  | nil => rfl
  | cons x xs =>
    rw [hbuf, decodeList] at h
    split at h
    · next hlt => exact decide_eq_true hlt
    · cases h

/-- No sub-command needs more than 14 words (R253). -/
theorem needed_le (framing : Framing) (op : BitVec 8) : needed defaults framing op ≤ 14 := by
  rw [needed]
  split
  · cases framing <;> decide
  · decide

/-- A waiting buffer of even length has room for one more record. -/
theorem Walker.InBounds.room {w : Walker} (hb : w.InBounds) (hw : w.waiting = true) : w.buf.length ≤ 12 := by
  rw [Walker.waiting] at hw
  cases hbuf : w.buf with
  | nil => exact Nat.zero_le _
  | cons x xs =>
    rw [hbuf] at hw
    have hlt := of_decide_eq_true hw
    have hneed := needed_le w.dlQuadsize (topByte x)
    have heven := hb.even
    rw [hbuf] at heven
    omega

/-- Reading a record (R251, R252). -/
theorem Walker.InBounds.advance {w : Walker} (hb : w.InBounds) (hw : w.waiting = true) {p : Nat} (hp : w.list = some p)
    (w0 w1 : Word) : (w.advance w0 w1).InBounds := by
  have hroom := hb.room hw
  have heven := hb.even
  obtain ⟨halign, hinside, hbase, _⟩ := hb.list p hp
  have hlen : (w.advance w0 w1).buf.length = w.buf.length + 2 := List.length_append
  refine ⟨hb.count, fun q hq => ?_, by omega, by omega⟩
  simp only [Walker.advance] at hq
  split at hq
  · next hcur =>
    cases hp.symm.trans hq
    exact ⟨halign, hinside, hbase, hcur⟩
  · cases hq

/-- A sub-command changes the framing and the texture offset alone. -/
theorem Walker.InBounds.retune {w : Walker} (hb : w.InBounds) (framing : Framing) (texoffs : Word) :
    Walker.InBounds { w with dlQuadsize := framing, texoffs := texoffs } :=
  ⟨hb.count, hb.list, hb.even, hb.short⟩

theorem Walker.InBounds.emptyBuffer {w : Walker} (hb : w.InBounds) : Walker.InBounds { w with buf := [] } :=
  ⟨hb.count, hb.list, rfl, Nat.zero_le _⟩

/-- Taking a list: its address is a cell of bank 0 (R84, R251). -/
theorem Walker.InBounds.takeList {w : Walker} (hb : w.InBounds) (e : Word) :
    Walker.InBounds { w with list := some (expand0 defaults e), base := 0#32, cur := 0 } := by
  refine ⟨hb.count, fun p hp => ?_, hb.even, hb.short⟩
  cases hp
  obtain ⟨halign, hinside⟩ := expand0_bound e
  exact ⟨halign, hinside, rfl, Nat.zero_le _⟩

theorem Effect.walker_of_idle {i : Instr} {s t : State} (h : Effect s i t) (hi : i.phase = .idle) :
    t.walker = s.walker := by
  cases h with
  | leaves h => exact h.walker
  | pt2clr p h => cases hi
  | model _ _ hp _ => cases hp.symm.trans hi
  | texsel _ hp => cases hp.symm.trans hi
  | widen hp _ => cases hp.symm.trans hi
  | _ => rfl

/-- A FIFO command leaves the walker as it is or starts a walk. -/
theorem Effect.walker_of_command {i : Instr} {s t : State} (h : Effect s i t) (hi : i.phase = .command) :
    t.walker = s.walker
    ∨ (t.phase = .walk ∧ t.walker.count ≤ Config.dlCountMax ∧ t.walker.list = none ∧ t.walker.buf = []) := by
  cases h with
  | leaves h => exact .inl h.walker
  | pt2clr p h => exact .inl h.walker
  | model _ _ _ hcount => exact .inr ⟨rfl, hcount, rfl, rfl⟩
  | texsel _ hp => cases hp.symm.trans hi
  | widen hp _ => cases hp.symm.trans hi
  | _ => exact .inl rfl

/-- A sub-command goes on with the walk, at most in another framing or with another texture offset. -/
theorem Effect.walker_of_walk {i : Instr} {s t : State} (h : Effect s i t) (hi : i.phase = .walk) :
    t.phase = s.phase ∧ ∃ framing texoffs, t.walker = { s.walker with dlQuadsize := framing, texoffs := texoffs } := by
  cases h with
  | leaves h => exact ⟨h.phase, _, _, h.walker⟩
  | model _ _ hp _ => cases hp.symm.trans hi
  | texsel w _ => exact ⟨rfl, _, w, rfl⟩
  | widen _ h => exact ⟨h.phase, .fourteen, _, h.walker⟩
  | push _ hp => cases hp.symm.trans hi
  | _ => cases hi

theorem applyInput_walker (i : Input) (s : State) :
    (applyInput i s).walker = s.walker ∨ (applyInput i s).walker = Walker.clear := by
  cases i with
  | fire t => cases t <;> simp only [applyInput, fireTimer] <;> split <;> exact .inl rfl
  | deviceReset => exact .inr rfl
  | _ => exact .inl rfl

theorem retire_command_walker (s : State) : (retire .command s).walker = s.walker := by
  cases hf : s.fail with
  | some f => rw [retire_failed hf]
  | none => rw [retire_running hf]; cases s.phase <;> rfl

theorem retire_command_walk {s : State} (hp : s.phase = .walk) : retire .command s = s := by
  cases hf : s.fail with
  | some f => exact retire_failed hf
  | none => rw [retire_running hf, hp]

/-- A step between transactions starts no walk. -/
theorem step_walkerOk_of_idle {s t : State} (hp : s.phase = .idle) (hok : s.WalkerOk) (h : step s = .next t) :
    t.WalkerOk := by
  have hclear : s.walker = Walker.clear := hok.1 (by simp [hp])
  obtain ⟨_, hmoved | ⟨i, u, v, hrun, hexec, rfl⟩⟩ := step_next h
  · rw [fetch_idle hp] at hmoved
    rcases fetchInput_moved hmoved with ⟨_, rfl⟩ | ⟨i, rest, _, rfl⟩
    · exact hok
    · rcases applyInput_walker i (s.setInputs rest) with hw | hw
      · exact walkerOk_of_clear (hw.trans hclear)
      · exact walkerOk_of_clear hw
  · rw [fetch_idle hp] at hrun
    obtain ⟨op, rest, _, rfl, rfl⟩ := fetchInput_run hrun
    rw [State.setInputs_phase, hp, retire_idle]
    exact walkerOk_of_clear (((exec_effect hexec).walker_of_idle (decodeBus_phase _ _)).trans hclear)

/-- A FIFO command starts a walk whose buffer is empty, or none. -/
theorem step_walkerOk_of_command {s t : State} (hp : s.phase = .command) (hok : s.WalkerOk) (h : step s = .next t) :
    t.WalkerOk := by
  have hclear : s.walker = Walker.clear := hok.1 (by simp [hp])
  obtain ⟨_, hmoved | ⟨i, u, v, hrun, hexec, rfl⟩⟩ := step_next h
  · rw [fetch_command hp] at hmoved
    rw [fetchCommand_moved hmoved]
    exact walkerOk_of_clear hclear
  · rw [fetch_command hp] at hrun
    obtain ⟨hdec, rfl⟩ := fetchCommand_run hrun
    rw [hp]
    rcases (exec_effect hexec).walker_of_command (decodeFifo_phase hdec) with hw | ⟨hwalk, hcount, hlist, hbuf⟩
    · exact walkerOk_of_clear ((retire_command_walker v).trans (hw.trans hclear))
    · rw [retire_command_walk hwalk]
      exact walkerOk_of_walk hwalk (Walker.inBounds_of_no_list hcount hlist hbuf) fun _ => Walker.waiting_of_empty hbuf

/-- The outer loop's test takes a list or ends the walk (R251). -/
theorem outerLoop_walkerOk {s : State} (hp : s.phase = .walk) (hok : s.WalkerOk) : (outerLoop defaults s).WalkerOk := by
  obtain ⟨_, hb, hw⟩ := walkerOk_iff.mp hok
  rcases outerLoop_cases (cfg := defaults) s with ⟨_, hl⟩ | ⟨_, hl⟩ <;> rw [hl]
  · exact walkerOk_of_clear rfl
  · exact walkerOk_of_walk hp (hb.takeList _) hw

/-- After a sub-command the buffer is empty, unless it failed (R252). -/
theorem retire_walk_walkerOk {s : State} (hp : s.phase = .walk) (hb : s.walker.InBounds) :
    (retire .walk s).WalkerOk := by
  cases hf : s.fail with
  | some f =>
    rw [retire_failed hf]
    exact walkerOk_of_walk hp hb fun h => by simp [hf] at h
  | none =>
    rw [retire_running hf]
    exact walkerOk_of_walk hp hb.emptyBuffer fun _ => Walker.waiting_of_empty rfl

/-- An iteration of the walker keeps its bounds. -/
theorem step_walkerOk_of_walk {s t : State} (hp : s.phase = .walk) (hok : s.WalkerOk) (h : step s = .next t) :
    t.WalkerOk := by
  obtain ⟨_, hb, hw⟩ := walkerOk_iff.mp hok
  obtain ⟨hf, hmoved | ⟨i, u, v, hrun, hexec, rfl⟩⟩ := step_next h
  · rw [fetch_walk hp] at hmoved
    rcases fetchRecord_moved hmoved with rfl | ⟨f, rfl⟩ | ⟨p, w0, w1, e, hlist, hdec, rfl⟩
    · exact outerLoop_walkerOk hp hok
    · exact walkerOk_of_walk hp hb fun h => by simp at h
    · exact walkerOk_of_walk hp (hb.advance (hw hf) hlist w0 w1) fun _ => Walker.waiting_of_incomplete hdec
  · rw [fetch_walk hp] at hrun
    obtain ⟨p, w0, w1, hlist, hdec, rfl⟩ := fetchRecord_run hrun
    obtain ⟨hphase, framing, texoffs, hwalker⟩ := (exec_effect hexec).walker_of_walk (decodeList_phase hdec)
    rw [State.setWalker_phase, hp] at hphase ⊢
    refine retire_walk_walkerOk hphase ?_
    rw [hwalker]
    exact (hb.advance (hw hf) hlist w0 w1).retune framing texoffs

/-- Settles O59, by the phase the step begins in. -/
theorem stepKeepsWalkerOk : Obligations.StepKeepsWalkerOk := by
  intro s t hok h
  cases hp : s.phase with
  | idle => exact step_walkerOk_of_idle hp hok h
  | command => exact step_walkerOk_of_command hp hok h
  | walk => exact step_walkerOk_of_walk hp hok h

/-! ## Reset (R48, R380, R381) -/

theorem reset_reg (o : Offset) : State.reset.reg o = 0#32 := Vector.getElem_replicate _

/-- Before the first store every byte is the free value of its power-on (R381). -/
theorem byteAt_nil (b : Bank) (a : Nat) : Memory.byteAt b [] a = Config.powerOnByte b a := rfl

/-- Settles O60: the invariants by their definitions, each row of the reset table from `resetArch`. -/
theorem resetMeetsInvariants : Obligations.ResetMeetsInvariants := by
  have hmemory : State.reset.MemoryOk := ⟨rfl, rfl⟩
  have hpointers : State.reset.PointersOk := ⟨rfl, rfl⟩
  have hclip : State.reset.ClipOk := ⟨rfl, rfl⟩
  have hfifo : State.reset.FifoOk := ⟨fun _ => rfl, Nat.zero_le _, rfl⟩
  have hzbase : Config.zbaseDefault = .fin 2 := congrArg F.fin (Rat.mkRat_one 2)
  refine ⟨hmemory, hpointers, hclip, hfifo, walkerOk_of_clear rfl, reset_reg, rfl, hzbase, ?table⟩
  exact ⟨rfl, rfl, rfl, rfl, rfl, rfl, rfl, rfl, rfl, rfl, rfl, rfl, rfl, rfl, rfl, rfl, rfl, byteAt_nil _, byteAt_nil _⟩

end Sys2Proof.Machine

namespace Sys2Proof.Machine

open Sys2Proof.Config (defaults)

/-! ## Wave Memory: expanded addresses, accesses and layouts (R80 to R92) -/

/-- Settles O47: each expanded address is a multiple of the cell size below the end of its bank, which is one too. -/
theorem expandedAddressInsideBank : Obligations.ExpandedAddressInsideBank := by
  intro e
  obtain ⟨hcell0, hlt0⟩ := expand0_bound e
  have hend0 : Config.size0 % 8 = 0 := rfl
  obtain ⟨hcell1, hlt1⟩ : expand1 defaults e % 12 = 0 ∧ expand1 defaults e < Config.size1 := expand1_bound e
  have hend1 : Config.size1 % 12 = 0 := rfl
  refine ⟨?formula0, by omega, ?formula1, by omega⟩
  all_goals rw [BitVec.extractLsb'_toNat, BitVec.extractLsb'_toNat, Nat.shiftRight_zero, Nat.add_comm]; rfl

section
variable {cfg : Cfg}

/-- The range is tested before the alignment (R83). -/
theorem checkAccess_outside {b : Bank} {a : Int} {n : Nat} (h : a < 0 ∨ bankSize cfg b < a + n) :
    checkAccess cfg b a n = .error (.raise (.waveRange b a n)) := if_pos h

theorem memWrite_outside {b : Bank} {a : Int} {n : Nat} (h : a < 0 ∨ bankSize cfg b < a + n) (v : Nat) (s : State) :
    memWrite cfg b a n v s = .next (s.setFail (.waveRange b a n)) := by
  rw [memWrite, checkAccess_outside h]
  rfl

theorem memRead_outside {b : Bank} {a : Int} {n : Nat} (h : a < 0 ∨ bankSize cfg b < a + n) (m : Memory) :
    memRead cfg b m a n = .error (.raise (.waveRange b a n)) := by
  rw [memRead, checkAccess_outside h]

end

/-- Settles O46: inside the bank the check passes, and the contents are those of `Memory.writeLE`; outside it fails first. -/
theorem storeThenLoad : Obligations.StoreThenLoad := by
  intro cfg s b n v _
  refine ⟨fun a halign hinside => ?_, fun a hout => ⟨memWrite_outside hout v s, memRead_outside hout⟩⟩
  have hcheck : checkAccess cfg b a n = .ok () := checkAccess_ok.mpr (by omega)
  refine ⟨(s.bank b).writeLE a v n, memWrite_ok hcheck, ?_, fun i => ?_, fun c => ?_⟩
  · exact (memRead_ok hcheck).trans (congrArg _ (Memory.readLE_writeLE b _ a v n))
  · exact Memory.byteAt_writeLE b _ a v n i
  · exact Memory.byteAt_writeLE_outside b _ a v n c

/-- Inside 0..511 on both axes a pixel is known by its cell and by its column's parity (R88). -/
theorem pixel_eq_of_pixelCell_eq {y x y' x' : Nat} (hy : y < 512) (hx : x < 512) (hy' : y' < 512) (hx' : x' < 512)
    (hcell : pixelCell y x = pixelCell y' x') (hparity : x % 2 = x' % 2) : (y, x) = (y', x') := by
  unfold pixelCell at hcell
  rw [Prod.mk.injEq]
  omega

theorem pixelCell_add_row (y x : Nat) : pixelCell (y + 512) x = pixelCell y x := by
  rw [pixelCell, Nat.add_mod_right, pixelCell]

theorem pixelCell_add_column (y x : Nat) : pixelCell y (x + 512) = pixelCell y x := by
  rw [pixelCell, Nat.add_mod_right, pixelCell]

/-- A cell holds two colour words in its first eight bytes and two depths in its last four (R88). -/
theorem colorAddr_disjoint_depthAddr (rb y x y' x' : Nat) :
    colorAddr rb y x + 4 ≤ depthAddr rb y' x' ∨ depthAddr rb y' x' + 2 ≤ colorAddr rb y x := by
  unfold colorAddr depthAddr
  omega

theorem colorAddr_disjoint {y x y' x' : Nat} (rb : Nat) (h : ¬ (pixelCell y x = pixelCell y' x' ∧ x % 2 = x' % 2)) :
    colorAddr rb y x + 4 ≤ colorAddr rb y' x' ∨ colorAddr rb y' x' + 4 ≤ colorAddr rb y x := by
  unfold colorAddr
  omega

theorem depthAddr_disjoint {y x y' x' : Nat} (rb : Nat) (h : ¬ (pixelCell y x = pixelCell y' x' ∧ x % 2 = x' % 2)) :
    depthAddr rb y x + 2 ≤ depthAddr rb y' x' ∨ depthAddr rb y' x' + 2 ≤ depthAddr rb y x := by
  unfold depthAddr
  omega

/-- Where the texel of a block stands: a row of blocks is two rows of texels (R91). -/
theorem texelOffset_block (w : TexWidth) {du dv : Nat} (i j : Nat) (hdu : du < 4) (hdv : dv < 2) :
    texelOffset w (2 * j + dv) (4 * i + du) = 2 * w.texels * j + 8 * i + 4 * dv + du := by
  cases w <;> simp only [texelOffset, TexWidth.texels] <;> omega

/-- No block reaches past the end of its row of blocks, so the offset tells the block, and in it the texel (R91). -/
theorem texelOffset_injective (w : TexWidth) {v u v' u' : Nat} (hu : u < w.texels) (hu' : u' < w.texels)
    (h : texelOffset w v u = texelOffset w v' u') : v = v' ∧ u = u' := by
  cases w <;> simp only [texelOffset, TexWidth.texels] at hu hu' h <;> omega

theorem texels_of_mem {w : TexWidth} {n : Nat} (h : (w, n) ∈ [(.w64, 64), (.w128, 128), (.w256, 256)]) : n = w.texels := by
  cases w <;> simpa [TexWidth.texels] using h

/-- Settles O48: a pixel's bytes are told by its cell and its parity, a texel's offset by its block and its place there. -/
theorem pixelAddressesDistinct : Obligations.PixelAddressesDistinct := by
  refine ⟨?disjoint, ?wrap, ?texels⟩
  case disjoint =>
    intro rb y x y' x' hy hx hy' hx'
    refine ⟨colorAddr_disjoint_depthAddr rb y x y' x', fun hne => ?_⟩
    have hplace : ¬ (pixelCell y x = pixelCell y' x' ∧ x % 2 = x' % 2) := fun ⟨hcell, hparity⟩ =>
      hne (pixel_eq_of_pixelCell_eq hy hx hy' hx' hcell hparity)
    exact ⟨colorAddr_disjoint rb hplace, depthAddr_disjoint rb hplace⟩
  case wrap =>
    intro rb y x
    refine ⟨⟨rfl, rfl⟩, ?row, ?column⟩
    case row => simp only [colorAddr, depthAddr, pixelCell_add_row, and_self]
    case column =>
      have hparity : (x + 512) % 2 = x % 2 := by omega
      simp only [colorAddr, depthAddr, pixelCell_add_column, hparity, and_self]
  case texels =>
    intro w n hmem
    cases texels_of_mem hmem
    exact ⟨fun i j du dv => texelOffset_block w i j, fun v u v' u' => texelOffset_injective w⟩

end Sys2Proof.Machine

namespace Sys2Proof.Machine

open Sys2Proof.Config (defaults)

/-! ## What a step does beside its instruction -/

/-- `t` differs from `s` at most in what says how far the transaction is, and in `fail`. -/
def OnlyProgress (s t : State) : Prop :=
  ∃ ws timer f w p, t = { s with fifo := ws, tFifo := timer, fail := f, walker := w, phase := p }

theorem OnlyProgress.refl (s : State) : OnlyProgress s s := ⟨_, _, _, _, _, rfl⟩

theorem OnlyProgress.setFail (s : State) (f : Fault) : OnlyProgress s (s.setFail f) := ⟨_, _, _, _, _, rfl⟩

theorem OnlyProgress.setWalker (s : State) (w : Walker) : OnlyProgress s (s.setWalker w) := ⟨_, _, _, _, _, rfl⟩

theorem incompleteCommand_onlyProgress (s : State) : OnlyProgress s (incompleteCommand s) := ⟨_, _, _, _, _, rfl⟩

theorem finishCommand_onlyProgress (s : State) : OnlyProgress s (finishCommand s) := ⟨_, _, _, _, _, rfl⟩

theorem outerLoop_onlyProgress {cfg : Cfg} (s : State) : OnlyProgress s (outerLoop cfg s) := by
  rcases outerLoop_cases (cfg := cfg) s with ⟨_, h⟩ | ⟨_, h⟩ <;> rw [h] <;> exact ⟨_, _, _, _, _, rfl⟩

/-- What follows an instruction is progress of the transaction alone (R176, R252). -/
theorem retire_onlyProgress (p : Phase) (s : State) : OnlyProgress s (retire p s) := by
  rcases retire_cases p s with h | h | h <;> rw [h]
  · exact .refl s
  · exact finishCommand_onlyProgress s
  · exact .setWalker s _

/-- A step that runs no instruction: between transactions the input at the head acts, if there is one; in a transaction only
its progress changes (R94, R210, R251, R252). -/
theorem fetch_moved {s t : State} (h : fetch defaults s = .moved t) :
    (s.phase = .idle ∧ ∃ i rest, s.inputs = i :: rest ∧ t = applyInput i (s.setInputs rest)) ∨ OnlyProgress s t := by
  cases hp : s.phase with
  | idle =>
    rw [fetch_idle hp] at h
    rcases fetchInput_moved h with ⟨_, rfl⟩ | hinput
    · exact .inr (.refl t)
    · exact .inl ⟨rfl, hinput⟩
  | command =>
    rw [fetch_command hp] at h
    rw [fetchCommand_moved h]
    exact .inr (incompleteCommand_onlyProgress s)
  | walk =>
    rw [fetch_walk hp] at h
    rcases fetchRecord_moved h with rfl | ⟨f, rfl⟩ | ⟨_, w0, w1, _, _, _, rfl⟩
    · exact .inr (outerLoop_onlyProgress s)
    · exact .inr (.setFail s f)
    · exact .inr (.setWalker s _)

/-- Fetching an instruction takes a bus transaction from the inputs, or leaves all but the walker (R140, R210, R252). -/
theorem fetch_run {s u : State} {i : Instr} (h : fetch defaults s = .run i u) :
    (s.phase = .idle ∧ ∃ rest, u = s.setInputs rest) ∨ ∃ w, u = s.setWalker w := by
  cases hp : s.phase with
  | idle =>
    rw [fetch_idle hp] at h
    obtain ⟨_, rest, _, _, rfl⟩ := fetchInput_run h
    exact .inl ⟨rfl, rest, rfl⟩
  | command =>
    rw [fetch_command hp] at h
    obtain ⟨_, rfl⟩ := fetchCommand_run h
    exact .inr ⟨_, rfl⟩
  | walk =>
    rw [fetch_walk hp] at h
    obtain ⟨_, _, _, _, _, rfl⟩ := fetchRecord_run h
    exact .inr ⟨_, rfl⟩

/-- Fetching an instruction changes nothing that a snapshot captures. -/
theorem fetch_run_toArch {s u : State} {i : Instr} (h : fetch defaults s = .run i u) : u.toArch = s.toArch := by
  rcases fetch_run h with ⟨_, rest, rfl⟩ | ⟨w, rfl⟩ <;> rfl

/-! ## What the other agents drive (R94, R348) -/

/-- The fields that inputs and timers drive, and no instruction. -/
structure Outside where
  inputs : List Input
  irqFifo : Bool
  irqVblank : Bool
  tVblOn : TimerState
  tVblOff : TimerState
  debugToggle : Bool

def State.outside (s : State) : Outside :=
  ⟨s.inputs, s.irqFifo, s.irqVblank, s.tVblOn, s.tVblOff, s.debugToggle⟩

theorem OnlyProgress.outside {s t : State} (h : OnlyProgress s t) : t.outside = s.outside := by
  obtain ⟨ws, timer, f, w, p, rfl⟩ := h
  rfl

/-- No change that an instruction makes is one of these fields. -/
theorem keptByControl_outside (o : Outside) : KeptByControl defaults (fun s => s.outside = o) where
  setReg _ _ _ h := h
  store _ b _ _ _ _ h := by cases b <;> exact h
  setMatrix _ _ h := h
  setPoint _ _ h := h
  setPoint2 _ _ h := h
  setScreen _ _ h := h
  setRenderbase _ _ h := h
  setTexbase _ _ h := h
  setQuadSize _ _ h := h
  setTexwidthPrev _ _ h := h
  setFail _ _ _ h := h
  setSeenCodes _ _ h := h
  emit _ _ h := h
  nextFree _ h := h
  startWalk _ _ _ _ h := h
  selectTexture _ _ h := h
  widen _ _ h := h
  push _ _ _ _ h := h

theorem exec_outside {i : Instr} {s t : State} (hf : s.fail = none) (h : exec i s = .next t) : t.outside = s.outside :=
  (keptByControl_outside s.outside).exec h hf rfl

/-- A step of a transaction takes no input, and neither its instruction nor its progress is one. -/
theorem step_outside {s t : State} (hp : s.phase ≠ .idle) (h : step s = .next t) : t.outside = s.outside := by
  obtain ⟨hf, hmoved | ⟨i, u, v, hrun, hexec, rfl⟩⟩ := step_next h
  · rcases fetch_moved hmoved with ⟨hidle, _⟩ | hprogress
    · exact absurd hidle hp
    · exact hprogress.outside
  · have hfu : u.fail = none := (congrArg Arch.fail (fetch_run_toArch hrun)).trans hf
    have hu : u.outside = s.outside := by
      rcases fetch_run hrun with ⟨hidle, _⟩ | ⟨w, rfl⟩
      · exact absurd hidle hp
      · rfl
    calc (retire u.phase v).outside
        = v.outside := (retire_onlyProgress _ v).outside
      _ = u.outside := exec_outside hfu hexec
      _ = s.outside := hu

/-- Settles O51, field by field of `Outside`. -/
theorem nothingInterruptsTransaction : Obligations.NothingInterruptsTransaction := by
  intro s t hp h
  injection step_outside hp h with hinputs hfifo hvblank hon hoff htoggle
  exact ⟨hinputs, hfifo, hvblank, hon, hoff, htoggle⟩

/-! ## The writers of Wave Memory (R93) -/

/-- Both banks. -/
def State.waves (s : State) : Memory × Memory := (s.wave0, s.wave1)

theorem waves_eq_iff {s t : State} : t.waves = s.waves ↔ t.wave0 = s.wave0 ∧ t.wave1 = s.wave1 := Prod.mk_inj

section
variable {cfg : Cfg}

theorem pointerWrite_waves (idx : BitVec 8) (data : BitVec 24) (s : State) :
    (pointerWrite cfg idx data s).waves = s.waves := by
  rcases pointerWrite_cases (cfg := cfg) idx data s with h | h | h | h <;> rw [h] <;> rfl

theorem geometryUpdate_waves (s : State) : (geometryUpdate cfg s).waves = s.waves := by
  rcases applyGeometry_cases (cfg.geometry s.regs) s with ⟨_, h⟩ | ⟨_, h⟩ <;> rw [geometryUpdate, h]
  rfl

/-- A bus write writes a bank at a port offset only (R175, R183). -/
theorem busWrite_waves {o : Offset} {v : Word} {s t : State} (ho : o ∉ cfg.portOffsets)
    (h : busWrite cfg o v s = .next t) : t.waves = s.waves := by
  obtain ⟨_, ⟨_, hpush⟩ | ⟨_, rfl⟩ | ⟨_, rfl⟩ | ⟨hport, _⟩ | rfl⟩ := busWrite_next h
  · rw [(fifoPush_next hpush).2]
    rfl
  · exact pointerWrite_waves _ _ _
  · exact geometryUpdate_waves _
  · exact absurd (List.contains_iff_mem.mp hport) ho
  · rfl

theorem commandWrite_waves {o : Offset} {v : Word} {s t : State} (ho : o ∉ cfg.portOffsets)
    (h : commandWrite cfg o v s = .next t) : t.waves = s.waves := by
  unfold commandWrite at h
  split at h
  · cases h
    rfl
  · exact busWrite_waves ho h

theorem listWrite_waves {o : Offset} {v : Word} {s t : State} (ho : o ∉ cfg.portOffsets)
    (h : listWrite cfg o v s = .next t) : t.waves = s.waves := by
  unfold listWrite at h
  split at h
  · cases h
    rfl
  · exact busWrite_waves ho h

theorem hostRead_waves {o : Offset} {s t : State} (h : hostRead cfg o s = .next t) : t.waves = s.waves := by
  obtain ⟨_, h⟩ := accepting_next h
  cases h
  rcases busRead_snd (cfg := cfg) o s with hr | hr <;> rw [hr] <;> rfl

theorem startWalk_waves {base : Word} {count : BitVec 16} {s t : State} (h : startWalk cfg base count s = .next t) :
    t.waves = s.waves := by
  rcases startWalk_next h with ⟨_, rfl⟩ | ⟨_, rfl⟩ <;> rfl

theorem setPoint2AndClear_wave0 {p : Vec3 Word} {s t : State} (h : setPoint2AndClear cfg p s = .next t) :
    t.wave0 = s.wave0 := by
  rw [setPoint2AndClear] at h
  split at h
  · cases h
    rfl
  · obtain ⟨m, f, rfl⟩ := clearDepth_onlyWave1 h
    rfl

theorem quadDraw_wave0 {v0 v1 v2 v3 : QVertex} {texoffs : Word} {s t : State}
    (h : quadDraw cfg v0 v1 v2 v3 texoffs s = .next t) : t.wave0 = s.wave0 := by
  obtain ⟨m, f, w, cs, os, n, rfl⟩ := quadDraw_frame h
  rfl

@[simp] theorem setBank_regs (s : State) (b : Bank) (m : Memory) : (s.setBank b m).regs = s.regs := by
  cases b <;> rfl

@[simp] theorem setBank_fifo (s : State) (b : Bank) (m : Memory) : (s.setBank b m).fifo = s.fifo := by
  cases b <;> rfl

theorem bank_setBank_ne (s : State) {b c : Bank} (m : Memory) (h : c ≠ b) : (s.setBank b m).bank c = s.bank c := by
  cases b <;> cases c
  case bank0.bank1 | bank1.bank0 => rfl
  all_goals exact absurd rfl h

/-- A store leaves the other bank, the registers and the FIFO buffer (R83). -/
theorem memWrite_frame {b : Bank} {a : Int} {n v : Nat} {s t : State} (h : memWrite cfg b a n v s = .next t) :
    t.regs = s.regs ∧ t.fifo = s.fifo ∧ ∀ c, c ≠ b → t.bank c = s.bank c := by
  rcases memWrite_next h with ⟨_, rfl⟩ | rfl
  · exact ⟨setBank_regs s b _, setBank_fifo s b _, fun c => bank_setBank_ne s _⟩
  · exact ⟨rfl, rfl, fun c _ => by cases c <;> rfl⟩

end

/-- The instruction writes to the bus, if at all, outside the port offsets. -/
def AvoidsPorts (i : Instr) : Prop :=
  ∀ o v, (i = .wr o v ∨ i = .setreg o v ∨ i = .dSetreg o v) → o ∉ Config.portOffsets

theorem fifoTrigger_not_port : Config.fifoTrigger ∉ Config.portOffsets := by decide

theorem ptrPrimary_not_port : Config.ptrPrimary ∉ Config.portOffsets := by decide

/-- The instructions that write neither bank (R93). -/
theorem exec_waves {i : Instr} {s t : State} (h : exec i s = .next t) (hport : AvoidsPorts i)
    (hclr : ∀ p, i ≠ .pt2clr p) (hquad : ∀ f a b c d, i ≠ .dQuad f a b c d) : t.waves = s.waves := by
  cases i with
  | setreg o v => exact commandWrite_waves (hport o v (.inr (.inl rfl))) h
  | dSetreg o v => exact listWrite_waves (hport o v (.inr (.inr rfl))) h
  | wr o v => exact busWrite_waves (hport o v (.inl rfl)) h
  | push v => exact busWrite_waves fifoTrigger_not_port h
  | ptrRender _ | ptrTex _ | ptrQsize _ => exact busWrite_waves ptrPrimary_not_port h
  | rd o => exact hostRead_waves h
  | model23 _ _ | model24 _ _ => exact startWalk_waves h
  | pt2clr p => exact absurd rfl (hclr p)
  | dQuad f a b c d => exact absurd rfl (hquad f a b c d)
  | dUnk v w =>
    simp only [exec, execDUnk] at h
    split at h <;> cases h <;> rfl
  | _ =>
    cases h
    rfl

/-- `PT2CLR` and `D.QUAD` write bank 1 alone (R93). -/
theorem exec_wave0 {i : Instr} {s t : State} (h : exec i s = .next t) (hport : AvoidsPorts i) :
    t.wave0 = s.wave0 := by
  cases i with
  | pt2clr p => exact setPoint2AndClear_wave0 h
  | dQuad f a b c d => exact quadDraw_wave0 h
  | _ => exact (waves_eq_iff.mp (exec_waves h hport nofun nofun)).1

theorem OnlyProgress.waves {s t : State} (h : OnlyProgress s t) : t.waves = s.waves := by
  obtain ⟨ws, timer, f, w, p, rfl⟩ := h
  rfl

theorem OnlyProgress.regs {s t : State} (h : OnlyProgress s t) : t.regs = s.regs := by
  obtain ⟨ws, timer, f, w, p, rfl⟩ := h
  rfl

/-- Of the inputs only a restore writes a bank: a device reset leaves Wave Memory (R186, R380). -/
theorem applyInput_waves {i : Input} (h : ∀ a, i ≠ .restore a) (s : State) : (applyInput i s).waves = s.waves := by
  cases i with
  | restore a => exact absurd rfl (h a)
  | fire t => cases t <;> simp only [applyInput, fireTimer] <;> split <;> rfl
  | _ => rfl

theorem applyInput_regs {i : Input} (h : ∀ a, i ≠ .restore a) (hreset : i ≠ .deviceReset) (s : State) :
    (applyInput i s).regs = s.regs := by
  cases i with
  | restore a => exact absurd rfl (h a)
  | deviceReset => exact absurd rfl hreset
  | fire t => cases t <;> simp only [applyInput, fireTimer] <;> split <;> rfl
  | _ => rfl

/-- The next step restores no snapshot. -/
def State.RestoresNothing (s : State) : Prop := ∀ a rest, s.phase = .idle → s.inputs ≠ .restore a :: rest

theorem fetch_moved_waves {s t : State} (hrestore : s.RestoresNothing) (h : fetch defaults s = .moved t) :
    t.waves = s.waves := by
  rcases fetch_moved h with ⟨hidle, i, rest, hin, rfl⟩ | hprogress
  · exact applyInput_waves (fun a ha => hrestore a rest hidle (ha ▸ hin)) (s.setInputs rest)
  · exact hprogress.waves

theorem fetch_moved_regs {s t : State} (hrestore : s.RestoresNothing)
    (hreset : ∀ rest, s.phase = .idle → s.inputs ≠ .deviceReset :: rest) (h : fetch defaults s = .moved t) :
    t.regs = s.regs := by
  rcases fetch_moved h with ⟨hidle, i, rest, hin, rfl⟩ | hprogress
  · exact applyInput_regs (fun a ha => hrestore a rest hidle (ha ▸ hin)) (fun hi => hreset rest hidle (hi ▸ hin))
      (s.setInputs rest)
  · exact hprogress.regs

/-- A step that restores nothing does to the banks what its instruction does, and without one leaves them. -/
theorem step_waves {s t : State} (hrestore : s.RestoresNothing) (h : step s = .next t) :
    t.waves = s.waves ∨ ∃ i u v, fetch defaults s = .run i u ∧ exec i u = .next v
      ∧ u.waves = s.waves ∧ t.waves = v.waves := by
  obtain ⟨_, hmoved | ⟨i, u, v, hrun, hexec, rfl⟩⟩ := step_next h
  · exact .inl (fetch_moved_waves hrestore hmoved)
  · have hu : u.waves = s.waves := congrArg (fun a : Arch => (a.wave0, a.wave1)) (fetch_run_toArch hrun)
    exact .inr ⟨i, u, v, hrun, hexec, hu, (retire_onlyProgress _ v).waves⟩

/-- Settles O54: a step by its instruction, an instruction by its row, a store by its bank. -/
theorem waveMemoryWriters : Obligations.WaveMemoryWriters := by
  refine ⟨?instr, ?step, fun cfg b a n v s t => memWrite_frame⟩
  case instr =>
    intro i s t _ h hport
    exact ⟨exec_wave0 h hport, fun hclr hquad => (waves_eq_iff.mp (exec_waves h hport hclr hquad)).2⟩
  case step =>
    intro s t h hrestore
    dsimp only
    refine ⟨fun hport => ?banks, fun hnone hreset => ?regs⟩
    case banks =>
      rcases step_waves hrestore h with hsame | ⟨i, u, v, hrun, hexec, hu, ht⟩
      · obtain ⟨h0, h1⟩ := waves_eq_iff.mp hsame
        exact ⟨h0, fun _ _ => h1⟩
      · have havoids : AvoidsPorts i := by
          rintro o w (rfl | rfl | rfl)
          · exact hport o w (.inl ⟨u, hrun⟩)
          · exact hport o w (.inr (.inl ⟨u, hrun⟩))
          · exact hport o w (.inr (.inr ⟨u, hrun⟩))
        obtain ⟨hu0, hu1⟩ := waves_eq_iff.mp hu
        obtain ⟨ht0, ht1⟩ := waves_eq_iff.mp ht
        refine ⟨ht0.trans ((exec_wave0 hexec havoids).trans hu0), fun hclr hquad => ?_⟩
        have hexec1 : v.waves = u.waves := exec_waves hexec havoids (fun p hi => hclr p ⟨u, hi ▸ hrun⟩)
          (fun f a b c d hi => hquad f a b c d ⟨u, hi ▸ hrun⟩)
        exact ht1.trans ((waves_eq_iff.mp hexec1).2.trans hu1)
    case regs =>
      obtain ⟨_, hmoved | ⟨i, u, _, hrun, _, _⟩⟩ := step_next h
      · exact fetch_moved_regs hrestore hreset hmoved
      · exact absurd ⟨u, hrun⟩ (hnone i)

end Sys2Proof.Machine

namespace Sys2Proof

/-! ## Fields of composed words (R130 to R139) -/

/-- A field above the low part of a composed word is one of the high part. -/
theorem extractLsb'_append_above {v w len start : Nat} {x : BitVec v} {y : BitVec w} {z : BitVec len} (hle : w ≤ start)
    (h : x.extractLsb' (start - w) len = z) : (x ++ y).extractLsb' start len = z :=
  (BitVec.extractLsb'_append_eq_of_le hle).trans h

/-- A field within the low part of a composed word is one of that part. -/
theorem extractLsb'_append_below {v w len start : Nat} {x : BitVec v} {y : BitVec w} {z : BitVec len}
    (hle : start + len ≤ w) (h : y.extractLsb' start len = z) : (x ++ y).extractLsb' start len = z :=
  (BitVec.extractLsb'_append_eq_of_add_le hle).trans h

@[simp] theorem topByte_opWord (op : BitVec 8) (low : BitVec 24) : topByte (opWord op low) = op :=
  BitVec.extractLsb'_append_eq_left

@[simp] theorem low24_opWord (op : BitVec 8) (low : BitVec 24) : low24 (opWord op low) = low :=
  BitVec.extractLsb'_append_eq_right

@[simp] theorem topByte_regWord (op : BitVec 8) (reg : Offset) : topByte (regWord op reg) = op :=
  BitVec.extractLsb'_append_eq_left

@[simp] theorem regField_regWord (op : BitVec 8) (reg : Offset) : regField (regWord op reg) = reg :=
  extractLsb'_append_below (by decide) (extractLsb'_append_above le_rfl BitVec.extractLsb'_append_eq_right)

@[simp] theorem topByte_countWord (op : BitVec 8) (count : BitVec 16) : topByte (countWord op count) = op :=
  BitVec.extractLsb'_append_eq_left

@[simp] theorem lowHalf_countWord (op : BitVec 8) (count : BitVec 16) : lowHalf (countWord op count) = count :=
  extractLsb'_append_below (by decide) BitVec.extractLsb'_append_eq_right

@[simp] theorem extractLsb'_halves_low (hi lo : BitVec 16) : (halves hi lo).extractLsb' 0 16 = lo :=
  BitVec.extractLsb'_append_eq_right

@[simp] theorem extractLsb'_halves_high (hi lo : BitVec 16) : (halves hi lo).extractLsb' 16 16 = hi :=
  BitVec.extractLsb'_append_eq_left

/-! ## The quad buffer (R136) -/

/-- The texture fields of word 1 of a quad buffer. -/
theorem twoTextureFields (u v : BitVec 8) :
    let w : Word := 0#6 ++ v ++ 0#8 ++ u ++ 0#2
    w.extractLsb' 2 8 = u ∧ w.extractLsb' 18 8 = v := by
  constructor
  · exact extractLsb'_append_above le_rfl BitVec.extractLsb'_append_eq_right
  · iterate 3 refine extractLsb'_append_above (by decide) ?_
    exact BitVec.extractLsb'_append_eq_right

/-- The texture fields of words 4 and 5 of a quad buffer. -/
theorem threeTextureFields (f g h : BitVec 8) :
    let w : Word := 0#2 ++ h ++ 0#2 ++ g ++ 0#2 ++ f ++ 0#2
    w.extractLsb' 2 8 = f ∧ w.extractLsb' 12 8 = g ∧ w.extractLsb' 22 8 = h := by
  refine ⟨?low, ?middle, ?high⟩
  case low => exact extractLsb'_append_above le_rfl BitVec.extractLsb'_append_eq_right
  case middle =>
    iterate 3 refine extractLsb'_append_above (by decide) ?_
    exact BitVec.extractLsb'_append_eq_right
  case high =>
    iterate 5 refine extractLsb'_append_above (by decide) ?_
    exact BitVec.extractLsb'_append_eq_right

theorem length_quadWords (framing : Framing) (a b c d : QVertex) :
    (quadWords framing a b c d).length = framing.words := by
  cases framing <;> rfl

/-- The words of a quad buffer give back its four vertices, in either framing. -/
theorem quadAt_quadWords (framing : Framing) (a b c d : QVertex) :
    quadAt Config.defaults framing (quadWords framing a b c d) = .dQuad framing a b c d := by
  obtain ⟨hau, hav⟩ := twoTextureFields a.u a.v
  obtain ⟨hbu, hbv, hcu⟩ := threeTextureFields b.u b.v c.u
  obtain ⟨hcv, hdu, hdv⟩ := threeTextureFields c.v d.u d.v
  simp [quadAt, VertexLayout.read, BitPos.read, Config.quadLayout, quadWords, hau, hav, hbu, hbv, hcu, hcv, hdu, hdv]

/-! ## Decoding what the encoder writes (R143) -/

/-- A FIFO buffer of just the words its opcode needs is that opcode's command. -/
theorem decode_fifo_exact {cfg : Cfg} {op : BitVec 8} {w : Word} {ws : List Word} {i : Instr} (hop : topByte w = op)
    (hlen : required op = (w :: ws).length) (hcommand : fifoCommand op (w :: ws) = i) :
    decode cfg (.fifo (w :: ws)) = .ok i := by
  subst hop
  rw [decode_fifo_complete hlen.le, hcommand]

/-- A local buffer of just the words its opcode needs is that opcode's sub-command. -/
theorem decode_list_exact {cfg : Cfg} {framing : Framing} {op : BitVec 8} {w : Word} {ws : List Word} {i : Instr}
    (hop : topByte w = op) (hlen : needed cfg framing op = (w :: ws).length)
    (hcommand : listCommand cfg framing op (w :: ws) = i) : decode cfg (.list framing (w :: ws)) = .ok i := by
  subst hop
  rw [decode_list_complete hlen.le, hcommand]

/-- An opcode that R131 does not name takes one word and is `UNK` (R131, R211). -/
theorem fifo_unknown {op : BitVec 8} (h : op ∉ fifoOpcodes) :
    required op = 1 ∧ ∀ d, fifoCommand op d = .unk (wordAt d 0) := by
  simp only [fifoOpcodes, List.mem_cons, List.not_mem_nil, or_false, not_or] at h
  simp [required, fifoCommand, h]

/-- An opcode of no sub-command row takes one record and is `D.UNK` (R133, R253, R254). -/
theorem list_unknown {cfg : Cfg} {framing : Framing} {op : BitVec 8} (htexsel : op ∉ cfg.dlOpTexsel)
    (hsync : op ∉ cfg.dlOpSync) (hreg : op ∉ cfg.dlOpReg) (hquad : op ∉ cfg.dlOpQuad) :
    needed cfg framing op = 2 ∧ ∀ buf, listCommand cfg framing op buf = .dUnk (wordAt buf 0) (wordAt buf 1) := by
  simp [needed, listCommand, htexsel, hsync, hreg, hquad]

theorem wf_unk_iff {w : Word} : (Instr.unk w).wf = true ↔ topByte w ∉ fifoOpcodes := by
  simp [Instr.wf]

theorem wf_dUnk_iff {w0 w1 : Word} : (Instr.dUnk w0 w1).wf = true ↔
    topByte w0 ∉ Config.dlOpTexsel ∧ topByte w0 ∉ Config.dlOpSync ∧ topByte w0 ∉ Config.dlOpReg
      ∧ topByte w0 ∉ Config.dlOpQuad := by
  simp [Instr.wf, and_assoc]

theorem wf_wr_iff {o : Offset} {v : Word} : (Instr.wr o v).wf = true ↔
    o ≠ Config.fifoTrigger ∧ (o = Config.ptrPrimary → ptrIndex v ∉ Config.defaults.ptrIndices) := by
  simp only [Instr.wf, Bool.not_eq_true', Bool.or_eq_false_iff, Bool.and_eq_false_imp, beq_eq_false_iff_ne, beq_iff_eq,
    List.contains_eq_mem, decide_eq_false_iff_not]

/-- A write that is neither a push nor a pointer write is `WR` (R144, R177). -/
theorem decodeBus_wr {o : Offset} {v : Word} (htrigger : o ≠ Config.fifoTrigger)
    (hptr : o = Config.ptrPrimary → ptrIndex v ∉ Config.defaults.ptrIndices) :
    decodeBus Config.defaults (.write o v) = .wr o v := by
  by_cases ho : o = Config.ptrPrimary
  · have hindex := hptr ho
    simp only [Config.defaults_ptrIndices, List.mem_cons, List.not_mem_nil, or_false, not_or] at hindex
    simp [decodeBus, htrigger, hindex]
  · simp [decodeBus, htrigger, ho]

/-- A write of `PTR_PRIMARY` is the pointer row whose index it carries, if it carries one of the three (R139, R144). -/
theorem decodeBus_ptrPrimary (idx : BitVec 8) (data : BitVec 24) :
    decodeBus Config.defaults (.write Config.ptrPrimary (idx ++ data)) =
      if idx = Config.ptrIdxRender then .ptrRender data
      else if idx = Config.ptrIdxTex then .ptrTex data
      else if idx = Config.ptrIdxQsize then .ptrQsize data
      else .wr Config.ptrPrimary (idx ++ data) := by
  have hport : Config.ptrPrimary ≠ Config.fifoTrigger := by decide
  simp [decodeBus, hport]

/-- Settles O1: row by row, the opcode is the top byte of the first word, the words are as many as it needs, and each field
is read where the encoder put it. -/
theorem decodeEncodeAgree : Obligations.DecodeEncodeAgree := by
  intro i hwf
  cases i with
  | setreg reg value =>
    exact decode_fifo_exact (topByte_regWord _ _) rfl (congrArg (Instr.setreg · value) (regField_regWord _ reg))
  | setmat m p => exact decode_fifo_exact (topByte_opWord _ _) rfl rfl
  | setmat8 pad m p => exact decode_fifo_exact (topByte_opWord _ _) rfl rfl
  | setpt15 p => exact decode_fifo_exact (topByte_opWord _ _) rfl rfl
  | setpt16 p => exact decode_fifo_exact (topByte_opWord _ _) rfl rfl
  | pt2clr p => exact decode_fifo_exact (topByte_opWord _ _) rfl rfl
  | model23 count base =>
    exact decode_fifo_exact (topByte_countWord _ _) rfl (congrArg (Instr.model23 · base) (lowHalf_countWord _ count))
  | model24 count base =>
    exact decode_fifo_exact (topByte_countWord _ _) rfl (congrArg (Instr.model24 · base) (lowHalf_countWord _ count))
  | sync31 => exact decode_fifo_exact (topByte_opWord _ _) rfl rfl
  | sync32 => exact decode_fifo_exact (topByte_opWord _ _) rfl rfl
  | dquad low ws =>
    have hlen : ws.length = 11 := by simpa [Instr.wf] using hwf
    refine decode_fifo_exact (topByte_opWord _ _) (congrArg (· + 1) hlen).symm ?_
    exact congrArg₂ Instr.dquad (low24_opWord _ low) (List.take_of_length_le hlen.le)
  | nop40 low => exact decode_fifo_exact (topByte_opWord _ _) rfl (congrArg Instr.nop40 (low24_opWord _ low))
  | unk w =>
    obtain ⟨hlen, hcommand⟩ := fifo_unknown (wf_unk_iff.mp hwf)
    exact decode_fifo_exact rfl hlen (hcommand _)
  | dTexsel21 texoffs => exact decode_list_exact (topByte_opWord _ _) rfl rfl
  | dTexsel22 texoffs => exact decode_list_exact (topByte_opWord _ _) rfl rfl
  | dSync => exact decode_list_exact (topByte_opWord _ _) rfl rfl
  | dSetreg reg value =>
    exact decode_list_exact (topByte_regWord _ _) rfl (congrArg (Instr.dSetreg · value) (regField_regWord _ reg))
  | dQuad framing a b c d =>
    exact decode_list_exact (topByte_opWord _ _) (length_quadWords framing a b c d).symm (quadAt_quadWords framing a b c d)
  | dUnk w0 w1 =>
    obtain ⟨htexsel, hsync, hreg, hquad⟩ := wf_dUnk_iff.mp hwf
    obtain ⟨hlen, hcommand⟩ := list_unknown (cfg := Config.defaults) htexsel hsync hreg hquad
    exact decode_list_exact rfl hlen (hcommand _)
  | rd o => rfl
  | wr o v =>
    obtain ⟨htrigger, hptr⟩ := wf_wr_iff.mp hwf
    exact congrArg _ (decodeBus_wr htrigger hptr)
  | push w => rfl
  | ptrRender data => exact congrArg _ (decodeBus_ptrPrimary _ data)
  | ptrTex data => exact congrArg _ (decodeBus_ptrPrimary _ data)
  | ptrQsize data => exact congrArg _ (decodeBus_ptrPrimary _ data)

end Sys2Proof

namespace Sys2Proof

open Sys2Proof.Config (defaults)

/-! ## What decoding depends on (R130 to R136, R141) -/

/-- A FIFO buffer is decoded by its length, its opcode and the command they select. -/
theorem decodeFifo_congr {w w' : Word} {rest : List Word} (hop : topByte w = topByte w')
    (hcommand : fifoCommand (topByte w) (w :: rest) = fifoCommand (topByte w) (w' :: rest)) :
    decodeFifo (w :: rest) = decodeFifo (w' :: rest) := by
  simp only [decodeFifo, List.length_cons, ← hop, hcommand]

/-- A local buffer is decoded by its length, its opcode and the sub-command they select. -/
theorem decodeList_congr {cfg : Cfg} {framing : Framing} {q q' : List Word} (hlen : q.length = q'.length)
    (hop : topByte (wordAt q 0) = topByte (wordAt q' 0))
    (hcommand : listCommand cfg framing (topByte (wordAt q 0)) q = listCommand cfg framing (topByte (wordAt q 0)) q') :
    decodeList cfg framing q = decodeList cfg framing q' := by
  cases q with
  | nil => rw [List.length_eq_zero_iff.mp hlen.symm]
  | cons w ws =>
    cases q' with
    | nil => cases hlen
    | cons w' ws' =>
      have hop : topByte w = topByte w' := hop
      have hcommand : listCommand cfg framing (topByte w) (w :: ws) = listCommand cfg framing (topByte w) (w' :: ws') :=
        hcommand
      simp only [decodeList, ← hop, hlen, hcommand]

/-- The transform, point and sync commands read nothing of their first word (R132). -/
theorem fifoCommand_ignores_first {op : BitVec 8} (hop : op ∈ [0x07#8, 0x08#8, 0x15#8, 0x16#8, 0x1c#8, 0x31#8, 0x32#8])
    (w w' : Word) (rest : List Word) : fifoCommand op (w :: rest) = fifoCommand op (w' :: rest) := by
  simp only [List.mem_cons, List.not_mem_nil, or_false] at hop
  rcases hop with rfl | rfl | rfl | rfl | rfl | rfl | rfl <;> rfl

/-- `MODEL23` and `MODEL24` read the low half of their first word (R132). -/
theorem fifoCommand_model_congr {op : BitVec 8} (hop : op ∈ [0x23#8, 0x24#8]) {w w' : Word}
    (hcount : lowHalf w = lowHalf w') (rest : List Word) : fifoCommand op (w :: rest) = fifoCommand op (w' :: rest) := by
  simp only [List.mem_cons, List.not_mem_nil, or_false] at hop
  rcases hop with rfl | rfl
  · exact congrArg (Instr.model23 · _) hcount
  · exact congrArg (Instr.model24 · _) hcount

/-- `D.TEXSEL` and `D.SYNC` read nothing of their first word (R133). -/
theorem listCommand_ignores_first {op : BitVec 8} (hop : op ∈ [0x21#8, 0x22#8, 0x31#8]) (framing : Framing) (w w' : Word)
    (rest : List Word) : listCommand defaults framing op (w :: rest) = listCommand defaults framing op (w' :: rest) := by
  simp only [List.mem_cons, List.not_mem_nil, or_false] at hop
  rcases hop with rfl | rfl | rfl <;> rfl

/-- The vertices of a quad are read from eight texture fields and six words of halves (R136). -/
theorem quadAt_congr (framing : Framing) {q q' : List Word}
    (hfields : ∀ f ∈ [(1, 2), (1, 18), (4, 2), (4, 12), (4, 22), (5, 2), (5, 12), (5, 22)],
      (q.getD f.1 0#32).extractLsb' f.2 8 = (q'.getD f.1 0#32).extractLsb' f.2 8)
    (hwords : ∀ k ∈ [2, 3, 6, 7, 8, 9], q.getD k 0#32 = q'.getD k 0#32) :
    quadAt defaults framing q = quadAt defaults framing q' := by
  simp only [List.forall_mem_cons, List.not_mem_nil, false_implies, implies_true, and_true] at hfields hwords
  simp only [quadAt, VertexLayout.read, BitPos.read, Config.defaults_quadLayout, Config.quadLayout, hfields, hwords]

/-- Settles O4: the decoder reads a buffer only through its length, its opcode and the fields of the command it selects. -/
theorem unnamedBitsHaveNoEffect : Obligations.UnnamedBitsHaveNoEffect := by
  refine ⟨fun w w' rest hop => ⟨?setreg, ?model, ?unread, ?dSetreg, ?dUnread⟩, ?quad⟩
  case setreg =>
    intro hsetreg hreg
    refine decodeFifo_congr hop ?_
    rw [hsetreg]
    exact congrArg (Instr.setreg · _) hreg
  case model =>
    intro hmodel hcount
    exact decodeFifo_congr hop (fifoCommand_model_congr hmodel hcount rest)
  case unread =>
    intro hunread
    exact decodeFifo_congr hop (fifoCommand_ignores_first hunread w w' rest)
  case dSetreg =>
    intro framing hsetreg hreg
    refine decodeList_congr rfl hop ?_
    rw [show topByte (wordAt (w :: rest) 0) = 0x29#8 from hsetreg]
    exact congrArg (Instr.dSetreg · _) hreg
  case dUnread =>
    intro framing hunread
    exact decodeList_congr rfl hop (listCommand_ignores_first hunread framing w w' rest)
  case quad =>
    intro framing q q' hlen hquad hquad' hfields hwords
    refine decodeList_congr hlen (hquad.trans hquad'.symm) ?_
    rw [show topByte (wordAt q 0) = 0x38#8 from hquad]
    exact quadAt_congr framing hfields hwords

end Sys2Proof

namespace Sys2Proof.Machine

open Sys2Proof.Config (defaults)

/-! ## Placed instructions (R145, R210, R252) -/

@[simp] theorem placeCode_fail (c : Code) (s : State) : (placeCode c s).fail = none := by
  cases c <;> rfl

/-- A whole sub-command is one record or more. -/
theorem two_le_length_of_decodeList {framing : Framing} {buf : List Word} {i : Instr}
    (h : decodeList defaults framing buf = .ok i) : 2 ≤ buf.length := by
  cases buf with
  | nil => cases h
  | cons w ws =>
    have hneeded : 2 ≤ needed defaults framing (topByte w) := by
      unfold needed
      split
      · cases framing <;> decide
      · exact le_rfl
    rw [decodeList] at h
    split at h
    · cases h
    · next hlen => exact hneeded.trans (not_lt.mp hlen)

theorem wordAt_drop (ws : List Word) (n k : Nat) : wordAt (ws.drop n) k = wordAt ws (n + k) := by
  simp [wordAt, List.getD_eq_getElem?_getD]

/-- A list is all but its last two words, then those two. -/
theorem take_append_last_two {ws : List Word} (h : 2 ≤ ws.length) :
    ws.take (ws.length - 2) ++ [wordAt ws (ws.length - 2), wordAt ws (ws.length - 1)] = ws := by
  have htwo : (ws.drop (ws.length - 2)).length = 2 := by rw [List.length_drop]; omega
  obtain ⟨a, b, hlast⟩ := List.length_eq_two.mp htwo
  have ha : wordAt ws (ws.length - 2 + 0) = a := by rw [← wordAt_drop, hlast]; rfl
  have hb : wordAt ws (ws.length - 2 + 1) = b := by rw [← wordAt_drop, hlast]; rfl
  rw [show ws.length - 1 = ws.length - 2 + 1 by omega, hb, ← Nat.add_zero (ws.length - 2), ha, ← hlast]
  exact List.take_append_drop _ ws

/-- The first record of the placed list is the two words stored there. -/
theorem readRecord_placed (m : Memory) (w0 w1 : Word) :
    readRecord defaults ((m.writeLE placedList w0.toNat 4).writeLE (placedList + 4) w1.toNat 4) placedList 0
      = .ok (w0, w1) := by
  have hword : ∀ w : Word, BitVec.ofNat 32 (w.toNat % 256 ^ 4) = w := fun w => by
    have hlt : w.toNat < 256 ^ 4 := w.isLt
    rw [Nat.mod_eq_of_lt hlt, BitVec.ofNat_toNat, BitVec.setWidth_eq]
  have hfirst : ∀ m' : Memory, read32 defaults .bank0 m' placedList 0 = .ok (m'.readLE .bank0 placedList 4) :=
    fun m' => memRead_ok (by decide)
  have hsecond : ∀ m' : Memory, read32 defaults .bank0 m' placedList 1 = .ok (m'.readLE .bank0 (placedList + 4) 4) :=
    fun m' => memRead_ok (by decide)
  simp only [readRecord, Nat.cast_zero, mul_zero, zero_add, hfirst, hsecond]
  rw [Memory.readLE_writeLE, Memory.readLE_writeLE_outside _ _ _ _ _ _ _ (.inl le_rfl), Memory.readLE_writeLE]
  exact congrArg Except.ok (congrArg₂ Prod.mk (hword w0) (hword w1))

/-- Words that decode are, once placed, the instruction that is fetched next, on a state without a failure. -/
theorem fetch_placeCode {c : Code} {i : Instr} (hdec : decode defaults c = .ok i) (s : State) :
    ∃ t, fetch defaults (placeCode c s) = .run i t ∧ t.fail = none := by
  cases c with
  | fifo ws => exact ⟨_, fetch_whole_command rfl hdec, rfl⟩
  | list framing ws =>
    refine ⟨_, fetch_completed_record rfl rfl (readRecord_placed s.wave0 _ _) ?_, rfl⟩
    have hwhole := take_append_last_two (two_le_length_of_decodeList hdec)
    exact (congrArg (decodeList defaults framing) hwhole).trans hdec
  | bus op =>
    cases hdec
    exact ⟨_, fetch_bus rfl rfl, rfl⟩

theorem decode_of_decodeTableWord {nbits w : Nat} {i : Instr} (h : decodeTableWord nbits w = some i) :
    decode defaults (tableCode nbits w) = .ok i := by
  unfold decodeTableWord at h
  cases hdec : decode defaults (tableCode nbits w) with
  | error e => rw [hdec] at h; cases h
  | ok j => rw [hdec] at h; cases h; rfl

/-- Settles O6: the placed words are where `fetch` looks, and a step runs and retires what `fetch` answers. -/
theorem placedTableWordRunsNext : Obligations.PlacedTableWordRunsNext := by
  intro s nbits w i hdec
  obtain ⟨t, hfetch, hfail⟩ := fetch_placeCode (decode_of_decodeTableWord hdec) s
  exact ⟨t, hfetch, hfail, step_of_fetch_run (placeCode_fail _ s) hfetch⟩

end Sys2Proof.Machine

namespace Sys2Proof.Machine

open Sys2Proof.Config (defaults)

/-! ## The value of a DSP float (R134) -/

/-- A number of the format below `2^128` in size is its own rounding. -/
theorem fl_of_isFloat {r : ℚ} (hr : IsFloat r) (hlt : |r| < 2 ^ 128) : fl r = .fin r := by
  have hsize : |r| ≤ 2 ^ 128 - 2 ^ 104 := by
    rw [abs_lt] at hlt
    exact abs_le'.mpr ⟨hr.le_of_lt hlt.2, hr.neg.le_of_lt (by linarith)⟩
  have hbound : |r| < overflowBound := hsize.trans_lt (by norm_num [overflowBound])
  obtain ⟨q, hq⟩ := fl_finite hbound
  obtain ⟨-, -, hnear⟩ := fl_fin hq
  have hdist : |q - r| ≤ |r - r| := (hnear r hr).1
  rw [sub_self, abs_zero, abs_nonpos_iff, sub_eq_zero] at hdist
  rw [hq, hdist]

/-- The fraction of a DSP float (R134). -/
def dspFraction (w : Word) : ℕ := w.toNat % 2 ^ 23

/-- The signed significand of a DSP float in units of its last place: by the sign bit `1` or `-2`, and the fraction. -/
def dspSignificand (w : Word) : ℤ := if w.getLsbD 23 then (dspFraction w : ℤ) - 2 ^ 24 else (dspFraction w : ℤ) + 2 ^ 23

theorem dspFraction_lt (w : Word) : dspFraction w < 2 ^ 23 := Nat.mod_lt _ (by decide)

theorem dspValue_zero {w : Word} (he : (topByte w).toInt = -128) : dspValue w = 0 := if_pos he

theorem dspValue_eq {w : Word} (he : (topByte w).toInt ≠ -128) :
    dspValue w = dspSignificand w * (2 : ℚ) ^ ((topByte w).toInt - 23) := by
  have hfraction : (w.extractLsb' 0 23).toNat = dspFraction w := by
    rw [BitVec.extractLsb'_toNat, Nat.shiftRight_zero, dspFraction]
  rw [dspValue, if_neg he, dyadic_eq, hfraction, dspSignificand]

/-- Only the least significand has more than 24 bits. -/
theorem natAbs_dspSignificand (w : Word) : (dspSignificand w).natAbs < 2 ^ 24
    ∨ (dspSignificand w).natAbs = 2 ^ 24 ∧ w.getLsbD 23 = true ∧ dspFraction w = 0 := by
  have hlt := dspFraction_lt w
  unfold dspSignificand
  split
  · next hsign =>
    rcases Nat.eq_zero_or_pos (dspFraction w) with hzero | hpos
    · exact .inr ⟨by rw [hzero]; rfl, hsign, hzero⟩
    · exact .inl (by omega)
  · exact .inl (by omega)

/-- The value as R134 writes it. -/
theorem dspSignificand_mul (w : Word) (e : ℤ) :
    (dspSignificand w : ℚ) * (2 : ℚ) ^ (e - 23) =
      if w.getLsbD 23 then (-2 + (dspFraction w : ℚ) / 2 ^ 23) * (2 : ℚ) ^ e
      else (1 + (dspFraction w : ℚ) / 2 ^ 23) * (2 : ℚ) ^ e := by
  have hunit : (2 : ℚ) ^ (e - 23) = 2 ^ e / 2 ^ 23 := zpow_sub₀ two_ne_zero e 23
  rw [hunit, dspSignificand]
  split <;> push_cast <;> ring

/-- An integer below `2^24` in size, in a unit up to `2^104`, or up to `2^24` in a lower unit, is below `2^128`. -/
theorem abs_mul_zpow_lt {m p : ℤ} (hm : m.natAbs ≤ 2 ^ 24) (hp : p ≤ 104) (hlt : m.natAbs < 2 ^ 24 ∨ p < 104) :
    |(m : ℚ) * (2 : ℚ) ^ p| < 2 ^ 128 := by
  have hsize : |(m : ℚ)| = m.natAbs := by rw [Nat.cast_natAbs, Int.cast_abs]
  have hm' : (m.natAbs : ℚ) ≤ 2 ^ 24 := by exact_mod_cast hm
  have htop : (2 : ℚ) ^ 128 = 2 ^ 24 * 2 ^ (104 : ℤ) := by norm_num
  rw [abs_mul, hsize, abs_of_pos (two_zpow_pos p), htop]
  rcases hlt with hlt | hlt
  · have hlt' : (m.natAbs : ℚ) < 2 ^ 24 := by exact_mod_cast hlt
    exact mul_lt_mul hlt' (zpow_le_zpow_right₀ one_le_two hp) (two_zpow_pos p) (by norm_num)
  · exact mul_lt_mul' hm' (zpow_lt_zpow_right₀ one_lt_two hlt) (two_zpow_pos p).le (by norm_num)

/-- Settles O22: the significand has 24 bits or is `-2^24`, so it is a number of the format, below `2^128` in size but in the
last corner. -/
theorem dspFloatValue : Obligations.DspFloatValue := by
  intro w e f r
  have hr : dspSignificand w * (2 : ℚ) ^ (e - 23) = r := dspSignificand_mul w e
  have hvalue : e ≠ -128 → dspFloat defaults w = fl r := fun he => congrArg fl ((dspValue_eq he).trans hr)
  have he127 : e ≤ 127 := Int.lt_add_one_iff.mp BitVec.toInt_lt
  refine ⟨?zero, hvalue, ?exact, ?corner⟩
  case zero => exact fun he => congrArg fl (dspValue_zero he)
  case exact =>
    intro he hcorner
    have hsize : (dspSignificand w).natAbs < 2 ^ 24 ∨ (dspSignificand w).natAbs = 2 ^ 24 ∧ e < 127 :=
      (natAbs_dspSignificand w).imp_right fun ⟨hmax, hsign, hfraction⟩ =>
        ⟨hmax, he127.lt_of_ne fun h => hcorner ⟨hsign, hfraction, h⟩⟩
    have hfloat : IsFloat r := ⟨dspSignificand w, e - 23, by omega, by omega, hr.symm⟩
    have hlt : |r| < 2 ^ 128 := hr ▸ abs_mul_zpow_lt (by omega) (by omega) (by omega)
    exact (hvalue (by omega)).trans (fl_of_isFloat hfloat hlt)
  case corner =>
    rintro ⟨hsign, hfraction, he⟩
    have hleast : dspSignificand w = -2 ^ 24 := by
      rw [dspSignificand, if_pos hsign, show dspFraction w = 0 from hfraction]
      rfl
    have hlow : r ≤ -overflowBound := by
      rw [← hr, hleast, he]
      norm_num [overflowBound]
    exact (hvalue (by omega)).trans (fl_negInf hlow)

end Sys2Proof.Machine

namespace Sys2Proof.Machine

open Sys2Proof.Config (defaults)

/-! ## Bus reads (R170 to R174) -/

/-- The scan line in both halves, as a number (R174). -/
theorem scanPos_eq (vpos : Nat) :
    scanPos vpos = BitVec.ofNat 32 ((vpos % 65536) * 65536 + vpos % 65536) := by
  apply BitVec.eq_of_toNat_eq
  have hlow : vpos % 65536 < 2 ^ 16 := Nat.mod_lt _ (by decide)
  rw [scanPos, BitVec.toNat_append, BitVec.toNat_ofNat, ← Nat.shiftLeft_add_eq_or_of_lt hlow, Nat.shiftLeft_eq,
    BitVec.toNat_ofNat]
  omega

/-- An offset without an override is read as stored (R170). -/
theorem busRead_stored {o : Offset} (ho : o ∉ [0#7, 1#7, 7#7, Config.scanposOffset]) (s : State) :
    busRead defaults o s = (s.reg o, s) := by
  simp only [List.mem_cons, List.not_mem_nil, or_false, not_or] at ho
  obtain ⟨hid, hstatus, hmagic, hscan⟩ := ho
  simp [busRead, hid, hstatus, hmagic, hscan]

/-- With no failure recorded `RD` tells what `BusRead` answers (R44, R170). -/
theorem exec_rd {s : State} (hs : s.fail = none) (o : Offset) :
    exec (.rd o) s = .next ((busRead defaults o s).2.emit (.readData o (busRead defaults o s).1)) :=
  accepting_running hs _

/-- Settles O7: by the offset, along the overrides of `busRead`. -/
theorem readAnswersOverrideOrStored : Obligations.ReadAnswersOverrideOrStored := by
  intro s o hs
  dsimp only
  rw [exec_rd hs]
  by_cases hid : o = 0#7
  · subst hid; rfl
  by_cases hstatus : o = 1#7
  · subst hstatus; rfl
  by_cases hmagic : o = 7#7
  · subst hmagic; rfl
  by_cases hscan : o = Config.scanposOffset
  · subst hscan
    rw [← scanPos_eq]
    rfl
  · rw [busRead_stored (by simp [hid, hstatus, hmagic, hscan])]
    simp [hid, hstatus, hmagic, hscan]

/-! ## Bus writes, by the class of the offset (R175) -/

section
variable {s : State} {o : Offset} {v : Word}

/-- The FIFO trigger: the word is stored and appended, and the FIFO processor is next (R176). -/
theorem busWrite_fifoTrigger (hs : s.fail = none) (hroom : s.fifo.length ≠ Config.fifoCap) (v : Word) :
    busWrite defaults Config.fifoTrigger v s
      = .next (((s.setReg Config.fifoTrigger v).setFifo (s.fifo ++ [v])).setPhase .command) := by
  rw [busWrite, accepting_running hs]
  simp [fifoPush, hroom]

theorem timing_ne_fifoTrigger (ho : o ∈ Config.timingOffsets) : o ≠ Config.fifoTrigger :=
  ne_of_mem_of_not_mem ho (by decide)

theorem timing_ne_ptrPrimary (ho : o ∈ Config.timingOffsets) : o ≠ Config.ptrPrimary :=
  ne_of_mem_of_not_mem ho (by decide)

theorem timing_not_port : ∀ o ∈ Config.timingOffsets, o ∉ Config.portOffsets := by decide

/-- A timing offset: the value is stored, then `Geometry` is recomputed (R182). -/
theorem busWrite_timing (hs : s.fail = none) (ho : o ∈ Config.timingOffsets) (v : Word) :
    busWrite defaults o v s = .next (geometryUpdate defaults (s.setReg o v)) := by
  rw [busWrite, accepting_running hs]
  simp [timing_ne_fifoTrigger ho, timing_ne_ptrPrimary ho, ho]

/-- A port offset: the value is stored, then `PortWrite` is given the old value and the new one (R183). -/
theorem busWrite_port (hs : s.fail = none) (ho : o ∈ Config.portOffsets) (v : Word) :
    busWrite defaults o v s = portWrite defaults o (s.reg o) v (s.setReg o v) := by
  have htrigger : o ≠ Config.fifoTrigger := ne_of_mem_of_not_mem ho fifoTrigger_not_port
  have hptr : o ≠ Config.ptrPrimary := ne_of_mem_of_not_mem ho ptrPrimary_not_port
  have htiming : o ∉ Config.timingOffsets := fun ht => timing_not_port o ht ho
  rw [busWrite, accepting_running hs]
  simp [htrigger, hptr, htiming, ho]

/-- An unassigned offset: the value is stored (R184). -/
theorem busWrite_unassigned (hs : s.fail = none) (htrigger : o ≠ Config.fifoTrigger) (hptr : o ≠ Config.ptrPrimary)
    (htiming : o ∉ Config.timingOffsets) (hport : o ∉ Config.portOffsets) (v : Word) :
    busWrite defaults o v s = .next (s.setReg o v) := by
  rw [busWrite, accepting_running hs]
  simp [htrigger, hptr, htiming, hport]

end

/-- Settles O13: the write of the FIFO trigger. -/
theorem pushAppendsWord : Obligations.PushAppendsWord := fun _ w hs hroom => busWrite_fifoTrigger hs hroom w

/-- Settles O9: the write of an unassigned offset. -/
theorem unassignedWriteOnlyStores : Obligations.UnassignedWriteOnlyStores :=
  fun _ _ v hs htrigger hptr htiming hport => busWrite_unassigned hs htrigger hptr htiming hport v

/-- Settles O11: what `PortEffect` is shown after the store is the statement's view by definition. -/
theorem portWriteIsPortEffect : Obligations.PortWriteIsPortEffect := by
  intro s o v hs ho
  calc exec (.wr o v) s
      = portWrite defaults o (s.reg o) v (s.setReg o v) := busWrite_port hs ho v
    _ = _ := by
        simp only [portWrite, Config.defaults_portEffect]
        cases Config.portEffect <;> rfl

/-- The test of `GeometryUpdate` (R182). -/
theorem accepted_iff (g : GeomAnswer) : GeomAnswer.accepted g = true ↔
    0 < g.htotal ∧ 0 < g.vtotal ∧ g.vis.minX ≤ g.vis.maxX ∧ g.vis.minY ≤ g.vis.maxY
      ∧ 0 ≤ g.vis.minX ∧ g.vis.maxX < g.htotal ∧ 0 ≤ g.vis.minY ∧ g.vis.maxY < g.vtotal := by
  simp [GeomAnswer.accepted, and_assoc]

theorem clip_ordered (g : GeomAnswer) :
    (GeomAnswer.clip g).minX ≤ (GeomAnswer.clip g).maxX ∧ (GeomAnswer.clip g).minY ≤ (GeomAnswer.clip g).maxY :=
  ⟨Nat.le_add_right _ _, Nat.le_add_right _ _⟩

/-- Settles O10: the two outcomes of the acceptance test. -/
theorem timingWriteAppliesAcceptedGeometry : Obligations.TimingWriteAppliesAcceptedGeometry := by
  refine ⟨fun s o v hs ho => busWrite_timing hs ho v, fun g s => ⟨fun hg => ?accepted, fun hg => ?rejected⟩⟩
  case accepted =>
    obtain ⟨hx, hy⟩ := clip_ordered g
    exact ⟨GeomAnswer.clip g, rfl, rfl, rfl, rfl, hx, hy, if_pos ((accepted_iff g).mpr hg)⟩
  case rejected => exact if_neg (hg ∘ (accepted_iff g).mp)

/-! ## Pointer writes, in numbers (R177 to R181) -/

/-- The shift by 16 leaves column 0 and the row in `data[15:0]` (R178). -/
theorem renderPointer_eq (data : BitVec 24) :
    renderPointer defaults data = ((data.toNat % 65536) % 1024 * 512) * 12 := by
  have hshift : (data.zeroExtend 32 <<< 16).toNat = data.toNat % 65536 * 65536 := by
    rw [BitVec.toNat_shiftLeft, BitVec.zeroExtend, BitVec.toNat_setWidth, Nat.shiftLeft_eq]
    omega
  calc renderPointer defaults data
      = ((data.zeroExtend 32 <<< 16).toNat % 512 + (data.zeroExtend 32 <<< 16).toNat >>> 16 % 1024 * 512) * 12 := rfl
    _ = _ := by
        rw [hshift, Nat.shiftRight_eq_div_pow]
        omega

/-- Bank 0 has `2^21` cells (R179). -/
theorem texturePointer_eq (data : BitVec 24) :
    texturePointer defaults data = (data.extractLsb' 0 21).toNat := by
  rw [BitVec.extractLsb'_toNat, Nat.shiftRight_zero]
  rfl

/-- What each index selects (R177 to R181). -/
theorem pointerWrite_defaults (idx : BitVec 8) (data : BitVec 24) (s : State) :
    pointerWrite defaults idx data s =
      if idx = 0x04#8 then s.setRenderbase (((data.toNat % 65536) % 1024 * 512) * 12)
      else if idx = 0x05#8 then s.setTexbase (data.extractLsb' 0 21).toNat
      else if idx = 0x40#8 then s.setQuadSize (if data = 0#24 then .ten else .fourteen)
      else s.emit (.log (.pointerUnknown idx data)) := by
  rw [pointerWrite, renderPointer_eq, texturePointer_eq]
  rfl

/-- Settles O16: the write of `PTR_PRIMARY` with the render index. -/
theorem renderPointerWrite : Obligations.RenderPointerWrite := by
  intro s data hs
  calc exec (.ptrRender data) s
      = busWrite defaults Config.ptrPrimary (0x04#8 ++ data) s := rfl
    _ = _ := by rw [busWrite_ptrPrimary hs, pointerWrite_defaults, if_pos rfl]

/-- Settles O17: the write of `PTR_PRIMARY` with the texture index. -/
theorem texturePointerWrite : Obligations.TexturePointerWrite := by
  intro s data hs
  calc exec (.ptrTex data) s
      = busWrite defaults Config.ptrPrimary (0x05#8 ++ data) s := rfl
    _ = _ := by rw [busWrite_ptrPrimary hs, pointerWrite_defaults, if_neg (by decide), if_pos rfl]

/-! ## Snapshots (R185, R186) -/

/-- A step that fetches no instruction is the move. -/
theorem step_of_fetch_moved {s t : State} (hs : s.fail = none) (h : fetch defaults s = .moved t) : step s = .next t := by
  simp [step, hs, h]

/-- Between transactions an input that is no bus transaction acts at once (R6, R94). -/
theorem step_input {s : State} {i : Input} {rest : List Input} (hs : s.fail = none) (hp : s.phase = .idle)
    (hin : s.inputs = i :: rest) (hbus : ∀ op, i ≠ .bus op) : step s = .next (applyInput i (s.setInputs rest)) := by
  apply step_of_fetch_moved hs
  rw [fetch_idle hp, fetchInput, hin]
  cases i with
  | bus op => exact absurd rfl (hbus op)
  | _ => rfl

/-- Settles O53: what a snapshot hands out is `toArch`, and a restore sets it. -/
theorem restoreUndoesEverything : Obligations.RestoreUndoesEverything := by
  intro s u rest rest' hs hps hins hu hpu hinu
  exact ⟨step_input hs hps hins nofun, _, step_input hu hpu hinu nofun, rfl, rfl, rfl⟩

end Sys2Proof.Machine

namespace Sys2Proof.Machine

open Sys2Proof.Config (defaults)

/-! ## What the actions of a `PortEffect` leave (R183) -/

section
variable {cfg : Cfg} {s t : State}

theorem pointerWrite_regs (idx : BitVec 8) (data : BitVec 24) (s : State) :
    (pointerWrite cfg idx data s).regs = s.regs := by
  rcases pointerWrite_cases (cfg := cfg) idx data s with h | h | h | h <;> rw [h] <;> rfl

theorem bank_congr (h : t.waves = s.waves) (b : Bank) : t.bank b = s.bank b := by
  obtain ⟨h0, h1⟩ := waves_eq_iff.mp h
  cases b
  · exact h0
  · exact h1

@[simp] theorem bank_setBank_same (s : State) (b : Bank) (m : Memory) : (s.setBank b m).bank b = m := by
  cases b <;> rfl

theorem reg_congr (h : t.regs = s.regs) (o : Offset) : t.reg o = s.reg o := by
  rw [State.reg, State.reg, h]

/-- What a pointer write sets. -/
structure Pointers where
  renderbase : Nat
  texbase : Nat
  quadSize : Framing
  outputs : List Output

def State.pointers (s : State) : Pointers := ⟨s.renderbase, s.texbase, s.quadSize, s.outputs⟩

theorem setBank_pointers (s : State) (b : Bank) (m : Memory) : (s.setBank b m).pointers = s.pointers := by
  cases b <;> rfl

/-- `t` differs from `s` at most in what a `PortEffect` can reach. -/
def OnlyPortReach (s t : State) : Prop :=
  ∃ regs m0 m1 rb tb q os f,
    t = { s with regs := regs, wave0 := m0, wave1 := m1, renderbase := rb, texbase := tb, quadSize := q,
                 outputs := os, fail := f }

theorem OnlyPortReach.refl (s : State) : OnlyPortReach s s := ⟨_, _, _, _, _, _, _, _, rfl⟩

theorem OnlyPortReach.trans {a b c : State} (h : OnlyPortReach a b) (k : OnlyPortReach b c) : OnlyPortReach a c := by
  obtain ⟨_, _, _, _, _, _, _, _, rfl⟩ := h
  obtain ⟨_, _, _, _, _, _, _, _, rfl⟩ := k
  exact ⟨_, _, _, _, _, _, _, _, rfl⟩

theorem portAction_onlyPortReach {a : PortAction} (h : portAction cfg a s = .next t) : OnlyPortReach s t := by
  rcases portAction_next h with rfl | ⟨o, v, _, rfl⟩ | ⟨b, addr, v, _, rfl⟩ | ⟨f, rfl⟩ | ⟨idx, data, rfl⟩
  · exact .refl _
  · exact ⟨_, _, _, _, _, _, _, _, rfl⟩
  · cases b <;> exact ⟨_, _, _, _, _, _, _, _, rfl⟩
  · exact ⟨_, _, _, _, _, _, _, _, rfl⟩
  · rcases pointerWrite_cases (cfg := cfg) idx data s with h | h | h | h <;> rw [h] <;>
      exact ⟨_, _, _, _, _, _, _, _, rfl⟩

/-- A register is left by an action that does not write it, or that may not. -/
theorem portAction_reg {a : PortAction} {o : Offset} (ha : ∀ v, a = .setReg o v → o ∉ cfg.portOffsets)
    (h : portAction cfg a s = .next t) : t.reg o = s.reg o := by
  cases a with
  | setReg p v =>
    simp only [portAction] at h
    split at h <;> cases h
    · next hp =>
      have hne : o ≠ p := by
        rintro rfl
        exact ha v rfl (List.contains_iff_mem.mp hp)
      exact reg_setReg_ne s p o v hne
    · rfl
  | setByte b addr v => exact reg_congr (memWrite_frame h).1 o
  | pointer idx data =>
    cases h
    exact reg_congr (pointerWrite_regs idx data s) o

/-- A byte of a bank is left by an action that does not write it. -/
theorem portAction_byteAt {a : PortAction} {b : Bank} {addr : Nat} (ha : ∀ v, a ≠ .setByte b addr v)
    (h : portAction cfg a s = .next t) : (t.bank b).byteAt b addr = (s.bank b).byteAt b addr := by
  cases a with
  | setReg p v =>
    simp only [portAction] at h
    split at h <;> cases h
    · exact congrArg (fun m => Memory.byteAt b m addr) (bank_congr (s := s) rfl b)
    · rfl
  | setByte c k v =>
    by_cases hb : b = c
    · subst hb
      have hk : addr ≠ k := fun hk => ha v (hk ▸ rfl)
      rcases memWrite_next h with ⟨_, rfl⟩ | rfl
      · rw [bank_setBank_same]
        exact Memory.byteAt_writeLE_outside b _ _ _ _ _ (by omega)
      · exact congrArg (fun m => Memory.byteAt b m addr) (bank_congr (s := s) rfl b)
    · rw [(memWrite_frame h).2.2 b hb]
  | pointer idx data =>
    cases h
    rw [bank_congr (pointerWrite_waves idx data s)]

theorem portAction_pointers {a : PortAction} (ha : ∀ idx data, a ≠ .pointer idx data)
    (h : portAction cfg a s = .next t) : t.pointers = s.pointers := by
  cases a with
  | setReg p v =>
    simp only [portAction] at h
    split at h <;> cases h <;> rfl
  | setByte b addr v =>
    rcases memWrite_next h with ⟨_, rfl⟩ | rfl
    · exact setBank_pointers s b _
    · rfl
  | pointer idx data => exact absurd rfl (ha idx data)

/-- An action whose byte, if it writes one, is inside its bank raises nothing. -/
theorem portAction_running {a : PortAction} (hs : s.fail = none)
    (ha : ∀ b addr v, a = .setByte b addr v → addr < bankSize cfg b) :
    ∃ t, portAction cfg a s = .next t ∧ t.fail = none := by
  cases a with
  | setReg p v => exact ⟨_, rfl, by split <;> exact hs⟩
  | setByte b addr v =>
    have hcheck : checkAccess cfg b addr 1 = .ok () := checkAccess_ok.mpr (by have := ha b addr v rfl; omega)
    exact ⟨_, memWrite_ok hcheck, (setBank_fail s b _).trans hs⟩
  | pointer idx data =>
    refine ⟨_, rfl, ?_⟩
    rcases pointerWrite_cases (cfg := cfg) idx data s with h | h | h | h <;> rw [h] <;> exact hs

/-- What a list of actions leaves: a part `g` of the state that each action of that list leaves. -/
theorem portActions_keep {α : Type} (g : State → α) {l : List PortAction}
    (each : ∀ a ∈ l, ∀ s t, portAction cfg a s = .next t → g t = g s) (h : portActions cfg l s = .next t) :
    g t = g s := by
  induction l generalizing s with
  | nil =>
    cases h
    rfl
  | cons a rest ih =>
    obtain ⟨hhead, htail⟩ := List.forall_mem_cons.mp each
    obtain ⟨u, hu, ⟨_, hr⟩ | ⟨_, rfl⟩⟩ := andThen_next h
    · exact (ih htail hr).trans (hhead s u hu)
    · exact hhead s _ hu

theorem portActions_running {l : List PortAction} (hs : s.fail = none)
    (hl : ∀ b addr v, PortAction.setByte b addr v ∈ l → addr < bankSize cfg b) :
    ∃ t, portActions cfg l s = .next t ∧ t.fail = none := by
  induction l generalizing s with
  | nil => exact ⟨s, rfl, hs⟩
  | cons a rest ih =>
    obtain ⟨u, hu, hfu⟩ := portAction_running hs fun b addr v ha => hl b addr v (ha ▸ List.mem_cons_self)
    obtain ⟨t, ht, hft⟩ := ih hfu fun b addr v ha => hl b addr v (List.mem_cons_of_mem a ha)
    exact ⟨t, by rw [portActions, hu, andThen_running hfu, ht], hft⟩

/-- A list is its first action and then, unless that failed, the rest. -/
theorem portActions_cons {a : PortAction} {u : State} (h : portActions cfg [a] s = .next u) (l : List PortAction) :
    portActions cfg (a :: l) s = if u.fail = none then portActions cfg l u else .next u := by
  rw [portActions_singleton] at h
  rw [portActions, h]
  cases hf : u.fail with
  | none => rw [andThen_running hf, if_pos rfl]
  | some f => rw [andThen_failed hf, if_neg nofun]

/-- A byte inside its bank is written, and no other byte of the bank (R83, R183). -/
theorem portActions_setByte {b : Bank} {addr : Nat} (ha : addr < bankSize cfg b) (v : Byte) (s : State) :
    ∃ m, portActions cfg [.setByte b addr v] s = .next (s.setBank b m) ∧ m.byteAt b addr = v
      ∧ ∀ c, c ≠ addr → m.byteAt b c = (s.bank b).byteAt b c := by
  have hcheck : checkAccess cfg b addr 1 = .ok () := checkAccess_ok.mpr (by omega)
  refine ⟨(s.bank b).write addr v, ?_, Memory.byteAt_write_same b _ _ _, fun c => Memory.byteAt_write_ne b _ _ _ _⟩
  calc portActions cfg [.setByte b addr v] s
      = .next (s.setBank b ((s.bank b).writeLE addr v.toNat 1)) := (portActions_singleton _ s).trans (memWrite_ok hcheck)
    _ = _ := by simp [Memory.writeLE]

end

/-- Settles O12: what each action leaves, a list of them leaves, and each action's own effect is an equation above. -/
theorem portEffectTouchesNothingElse : Obligations.PortEffectTouchesNothingElse := by
  refine ⟨fun l s t h => ⟨?other, ?frame, ?reg, ?byte, ?pointers⟩, fun l s hs hl => portActions_running hs hl,
    fun s => ⟨rfl, ?setReg, ?setByte, ?pointer, fun a l u h => portActions_cons h l⟩⟩
  case other =>
    intro o ho
    exact portActions_keep (·.reg o) (fun a _ s t => portAction_reg fun _ _ => ho) h
  case frame =>
    exact portActions_rel OnlyPortReach .refl (fun _ _ _ => .trans) (fun _ _ _ => portAction_onlyPortReach) h
  case reg =>
    intro o ho
    exact portActions_keep (·.reg o) (fun a ha s t => portAction_reg fun v hv => absurd (hv ▸ ha) (ho v)) h
  case byte =>
    intro b addr hb
    exact portActions_keep (fun s => (s.bank b).byteAt b addr)
      (fun a ha s t => portAction_byteAt fun v hv => hb v (hv ▸ ha)) h
  case pointers =>
    intro hl
    injection portActions_keep State.pointers
      (fun a ha s t => portAction_pointers fun idx data ha' => hl idx data (ha' ▸ ha)) h with hrb htb hq hos
    exact ⟨hrb, htb, hq, hos⟩
  case setReg =>
    intro o v
    rw [portActions_singleton]
    simp [portAction]
  case setByte =>
    intro b addr v
    exact ⟨fun ha => portActions_setByte ha v s,
      fun ha => (portActions_singleton _ s).trans (memWrite_outside (by omega) _ s)⟩
  case pointer =>
    intro idx data
    rw [portActions_singleton, portAction, pointerWrite_defaults]

/-! ## What a write leaves in the register file (R175, R187) -/

section
variable {cfg : Cfg} {s t : State} {o : Offset} {v : Word}

theorem pointerWrite_fail (idx : BitVec 8) (data : BitVec 24) (s : State) :
    (pointerWrite cfg idx data s).fail = s.fail := by
  rcases pointerWrite_cases (cfg := cfg) idx data s with h | h | h | h <;> rw [h] <;> rfl

theorem geometryUpdate_regs_fail (s : State) :
    (geometryUpdate cfg s).regs = s.regs ∧ (geometryUpdate cfg s).fail = s.fail := by
  rcases applyGeometry_cases (cfg.geometry s.regs) s with ⟨_, h⟩ | ⟨_, h⟩ <;> rw [geometryUpdate, h] <;>
    exact ⟨rfl, rfl⟩

/-- A bus write stores its value and nothing fails, but at a port offset, where `PortWrite` follows the store (R175). -/
theorem busWrite_stores_or_port (h : busWrite cfg o v s = .next t) :
    (t.regs = (s.setReg o v).regs ∧ t.fail = none)
    ∨ (o ∈ cfg.portOffsets ∧ portWrite cfg o (s.reg o) v (s.setReg o v) = .next t) := by
  obtain ⟨hs, ⟨_, hpush⟩ | ⟨_, rfl⟩ | ⟨_, rfl⟩ | ⟨ho, hport⟩ | rfl⟩ := busWrite_next h
  · rw [(fifoPush_next hpush).2]
    exact .inl ⟨rfl, hs⟩
  · exact .inl ⟨pointerWrite_regs _ _ _, (pointerWrite_fail _ _ _).trans hs⟩
  · obtain ⟨hregs, hfail⟩ := geometryUpdate_regs_fail (cfg := cfg) (s.setReg o v)
    exact .inl ⟨hregs, hfail.trans hs⟩
  · exact .inr ⟨List.contains_iff_mem.mp ho, hport⟩
  · exact .inl ⟨rfl, hs⟩

/-- A register that is no port changes only by a write to its own offset (R175, R183). -/
theorem busWrite_reg_ne {p : Offset} (hp : p ∉ cfg.portOffsets) (hne : p ≠ o) (h : busWrite cfg o v s = .next t) :
    t.reg p = s.reg p := by
  have hstore : (s.setReg o v).reg p = s.reg p := reg_setReg_ne s o p v hne
  obtain ⟨hregs, _⟩ | ⟨_, hport⟩ := busWrite_stores_or_port h
  · exact (reg_congr hregs p).trans hstore
  · obtain ⟨f, _, hactions⟩ := portWrite_next hport
    exact (portActions_keep (·.reg p) (fun a _ s t => portAction_reg fun _ _ => hp) hactions).trans hstore

theorem startWalk_regs {base : Word} {count : BitVec 16} (h : startWalk cfg base count s = .next t) :
    t.regs = s.regs := by
  rcases startWalk_next h with ⟨_, rfl⟩ | ⟨_, rfl⟩ <;> rfl

theorem setPoint2AndClear_regs {p : Vec3 Word} (h : setPoint2AndClear cfg p s = .next t) : t.regs = s.regs := by
  rw [setPoint2AndClear] at h
  split at h
  · cases h
    rfl
  · obtain ⟨m, f, rfl⟩ := clearDepth_onlyWave1 h
    rfl

theorem quadDraw_regs {v0 v1 v2 v3 : QVertex} {texoffs : Word} (h : quadDraw cfg v0 v1 v2 v3 texoffs s = .next t) :
    t.regs = s.regs := by
  obtain ⟨m, f, w, cs, os, n, rfl⟩ := quadDraw_frame h
  rfl

end

/-- No command and no sub-command writes the FIFO trigger register: the two that write the bus refuse that offset, and no
`PortEffect` reaches it (R183, R212, R257). -/
theorem exec_fifoTrigger {i : Instr} {s t : State} (hi : i.phase ≠ .idle) (h : exec i s = .next t) :
    t.reg Config.fifoTrigger = s.reg Config.fifoTrigger := by
  cases i with
  | setreg reg value | dSetreg reg value =>
    simp only [exec, execSetreg, commandWrite, execDSetreg, listWrite] at h
    split at h
    · cases h
      rfl
    · next hreg => exact busWrite_reg_ne (cfg := defaults) fifoTrigger_not_port (Ne.symm hreg) h
  | pt2clr p => exact reg_congr (setPoint2AndClear_regs h) _
  | model23 _ _ | model24 _ _ => exact reg_congr (startWalk_regs h) _
  | dQuad f a b c d => exact reg_congr (quadDraw_regs h) _
  | dUnk v w =>
    simp only [exec, execDUnk] at h
    split at h <;> cases h <;> rfl
  | rd _ | wr _ _ | push _ | ptrRender _ | ptrTex _ | ptrQsize _ => exact absurd rfl hi
  | _ =>
    cases h
    rfl

/-- The instruction a step fetches is of the stream its phase reads (R130, R145). -/
theorem fetch_run_phase {s u : State} {i : Instr} (h : fetch defaults s = .run i u) : i.phase = s.phase := by
  cases hp : s.phase with
  | idle =>
    rw [fetch_idle hp] at h
    obtain ⟨op, _, _, rfl, _⟩ := fetchInput_run h
    exact decodeBus_phase defaults op
  | command =>
    rw [fetch_command hp] at h
    exact decodeFifo_phase (fetchCommand_run h).1
  | walk =>
    rw [fetch_walk hp] at h
    obtain ⟨_, _, _, _, hdec, _⟩ := fetchRecord_run h
    exact decodeList_phase hdec

theorem step_fifoTrigger {s t : State} (hp : s.phase ≠ .idle) (h : step s = .next t) :
    t.reg Config.fifoTrigger = s.reg Config.fifoTrigger := by
  obtain ⟨_, hmoved | ⟨i, u, v, hrun, hexec, rfl⟩⟩ := step_next h
  · rcases fetch_moved hmoved with ⟨hidle, _⟩ | hprogress
    · exact absurd hidle hp
    · exact reg_congr hprogress.regs _
  · have hi : i.phase ≠ .idle := fetch_run_phase hrun ▸ hp
    calc (retire u.phase v).reg Config.fifoTrigger
        = v.reg Config.fifoTrigger := reg_congr (retire_onlyProgress _ v).regs _
      _ = u.reg Config.fifoTrigger := exec_fifoTrigger hi hexec
      _ = s.reg Config.fifoTrigger := reg_congr (congrArg Arch.regs (fetch_run_toArch hrun)) _

/-- Settles O8: outside the ports the store is the last change of the register, and outside the overrides a read answers it;
no step of a transaction writes the FIFO trigger. -/
theorem writeThenReadAnswersValue : Obligations.WriteThenReadAnswersValue := by
  refine ⟨fun s t o v hread hport h => ?_, fun s t => step_fifoTrigger⟩
  obtain ⟨hregs, hfail⟩ | ⟨ho, _⟩ := busWrite_stores_or_port (cfg := defaults) h
  · have hvalue : t.reg o = v := (reg_congr hregs o).trans (reg_setReg_same s o v)
    rw [exec_rd hfail, busRead_stored hread, hvalue]
  · exact absurd ho hport

end Sys2Proof.Machine

namespace Sys2Proof

/-- The commands that start a walk (R218, R219). -/
def Instr.isModel : Instr → Bool
  | .model23 _ _ | .model24 _ _ => true
  | _ => false

/-- Only the two `MODEL` opcodes are read as a `MODEL` command (R131). -/
theorem fifoCommand_isModel {op : BitVec 8} {d : List Word} (h : (fifoCommand op d).isModel = true) :
    op = opModel23 ∨ op = opModel24 := by
  by_contra! hop
  obtain ⟨h23, h24⟩ := hop
  simp only [fifoCommand, if_neg h23, if_neg h24, apply_ite Instr.isModel] at h
  simp [Instr.isModel] at h

end Sys2Proof

namespace Sys2Proof.Machine

open Sys2Proof.Config (defaults)

/-! ## Buffers that wait (R210, R211, R225) -/

/-- A buffer that holds no whole command waits, and only such a one (R210, R225). -/
theorem fifoWaiting_iff {d : List Word} : fifoWaiting d = true ↔ ∃ e, decodeFifo d = .error e := by
  cases d with
  | nil => exact ⟨fun _ => ⟨_, rfl⟩, fun _ => rfl⟩
  | cons w ws =>
    rw [fifoWaiting, decodeFifo, decide_eq_true_eq]
    split
    · next hlt => exact ⟨fun _ => ⟨_, rfl⟩, fun _ => hlt⟩
    · next hge => exact ⟨fun hlt => absurd hlt hge, fun ⟨_, he⟩ => nomatch he⟩

/-- No command needs more than 14 words (R211, R225). -/
theorem required_le (op : BitVec 8) : required op ≤ 14 := by
  unfold required
  split_ifs <;> decide

/-- A waiting buffer has room for one more word (R225). -/
theorem length_of_fifoWaiting {d : List Word} (h : fifoWaiting d = true) : d.length < 14 := by
  cases d with
  | nil => exact Nat.zero_lt_succ _
  | cons w ws => exact (of_decide_eq_true h).trans_le (required_le _)

/-! ## The FIFO processor's own fields: what an instruction can do to them (R34, R176, R210) -/

/-- The buffer, the FIFO-ready timer and the phase. -/
structure Intake where
  fifo : List Word
  tFifo : TimerState
  phase : Phase

def State.intake (s : State) : Intake := ⟨s.fifo, s.tFifo, s.phase⟩

section
variable {cfg : Cfg}

/-- Of the changes that instructions make, only those of the control flow reach these fields. -/
theorem keptByChanges_intake (q : Intake) : KeptByChanges cfg (fun s => s.intake = q) where
  setReg _ _ _ h := h
  store _ b _ _ _ _ h := by cases b <;> exact h
  setMatrix _ _ h := h
  setPoint _ _ h := h
  setPoint2 _ _ h := h
  setScreen _ _ h := h
  setRenderbase _ _ h := h
  setTexbase _ _ h := h
  setQuadSize _ _ h := h
  setTexwidthPrev _ _ h := h
  setFail _ _ _ h := h
  setSeenCodes _ _ h := h
  emit _ _ h := h
  nextFree _ h := h

/-- A bus write that pushes nothing (R175). -/
theorem busWrite_intake {o : Offset} {v : Word} {s t : State} (ho : o ≠ cfg.fifoTrigger)
    (h : busWrite cfg o v s = .next t) : t.intake = s.intake :=
  (keptByChanges_intake s.intake).busWrite ho h rfl

end

/-- What an instruction can do to the buffer, the timer and the phase: nothing, or a push, or the start of a walk. -/
inductive IntakeEffect (s : State) (i : Instr) (t : State) : Prop
  | leaves : t.intake = s.intake → IntakeEffect s i t
  | push v : i.phase = .idle → t.intake = ⟨s.fifo ++ [v], s.tFifo, .command⟩ → IntakeEffect s i t
  | walk : i.isModel = true → t.fail = none → t.intake = ⟨s.fifo, s.tFifo, .walk⟩ → IntakeEffect s i t

theorem anyBusWrite_intake {i : Instr} (hi : i.phase = .idle) {o : Offset} {v : Word} {s t : State}
    (h : busWrite defaults o v s = .next t) : IntakeEffect s i t := by
  by_cases ho : o = Config.fifoTrigger
  · subst ho
    cases busWrite_push (cfg := defaults) h
    exact .push v hi rfl
  · exact .leaves (busWrite_intake ho h)

theorem startWalk_intake {i : Instr} (hi : i.isModel = true) {base : Word} {count : BitVec 16} {s t : State}
    (hs : s.fail = none) (h : startWalk defaults base count s = .next t) : IntakeEffect s i t := by
  rcases startWalk_next h with ⟨_, rfl⟩ | ⟨_, rfl⟩
  · exact .leaves rfl
  · exact .walk hi hs rfl

/-- What each instruction does to them, said once. -/
theorem exec_intake {i : Instr} {s t : State} (hs : s.fail = none) (h : exec i s = .next t) : IntakeEffect s i t := by
  have K := keptByChanges_intake (cfg := defaults) s.intake
  cases i with
  | setreg reg value | dSetreg reg value =>
    simp only [exec, execSetreg, commandWrite, execDSetreg, listWrite] at h
    split at h
    · cases h
      exact .leaves rfl
    · next hreg => exact .leaves (busWrite_intake hreg h)
  | pt2clr p =>
    simp only [exec, execPt2clr, setPoint2AndClear] at h
    split at h
    · cases h
      exact .leaves rfl
    · exact .leaves (K.clearDepth h hs rfl)
  | model23 _ _ | model24 _ _ => exact startWalk_intake rfl hs h
  | dQuad f a b c d => exact .leaves (K.quadDraw h hs rfl)
  | dUnk v w =>
    simp only [exec, execDUnk] at h
    split at h <;> cases h <;> exact .leaves rfl
  | rd o =>
    obtain ⟨_, h⟩ := accepting_next h
    cases h
    rcases busRead_snd (cfg := defaults) o s with hr | hr <;> rw [hr] <;> exact .leaves rfl
  | wr _ _ | push _ | ptrRender _ | ptrTex _ | ptrQsize _ => exact anyBusWrite_intake rfl h
  | _ =>
    cases h
    exact .leaves rfl

/-! ## The bound of the buffer, and what waits in it between transactions (R225) -/

/-- No more than 14 words, and between transactions no whole command. -/
structure Intake.Ok (q : Intake) : Prop where
  waiting : q.phase = .idle → fifoWaiting q.fifo = true
  short : q.fifo.length ≤ 14

theorem fifoOk_iff {s : State} : s.FifoOk ↔ s.intake.Ok ∧ s.restores (fun a => fifoWaiting a.fifo) = true :=
  ⟨fun ⟨hwait, hshort, hrestores⟩ => ⟨⟨hwait, hshort⟩, hrestores⟩,
    fun ⟨⟨hwait, hshort⟩, hrestores⟩ => ⟨hwait, hshort, hrestores⟩⟩

theorem Intake.ok_of_waiting {q : Intake} (h : fifoWaiting q.fifo = true) : q.Ok :=
  ⟨fun _ => h, (length_of_fifoWaiting h).le⟩

theorem Intake.ok_of_transaction {q : Intake} (hp : q.phase ≠ .idle) (h : q.fifo.length ≤ 14) : q.Ok :=
  ⟨fun hidle => absurd hidle hp, h⟩

theorem finishCommand_intakeOk (s : State) : (finishCommand s).intake.Ok := Intake.ok_of_waiting rfl

/-- What follows an instruction leaves the buffer, or empties it. -/
theorem retire_intakeOk {p : Phase} {s : State} (h : s.intake.Ok) : (retire p s).intake.Ok := by
  rcases retire_cases p s with hr | hr | hr <;> rw [hr]
  · exact h
  · exact finishCommand_intakeOk s
  · exact h

/-- An input leaves the buffer, empties it, or restores a snapshot's. -/
theorem applyInput_intakeOk {i : Input} {s : State} (hs : s.intake.Ok)
    (hi : ∀ a, i = .restore a → fifoWaiting a.fifo = true) : (applyInput i s).intake.Ok := by
  cases i with
  | fire t => cases t <;> simp only [applyInput, fireTimer] <;> split <;> exact ⟨hs.waiting, hs.short⟩
  | deviceReset => exact Intake.ok_of_waiting rfl
  | restore a => exact Intake.ok_of_waiting (hi a rfl)
  | _ => exact hs

/-- An instruction keeps the bound: a word is pushed only onto a buffer that waits. -/
theorem IntakeEffect.ok {s : State} {i : Instr} {t : State} (h : IntakeEffect s i t) (hi : i.phase = s.phase)
    (hs : s.intake.Ok) : t.intake.Ok := by
  cases h with
  | leaves h => exact h ▸ hs
  | push v hidle h =>
    rw [h]
    have hroom : s.fifo.length < 14 := length_of_fifoWaiting (hs.waiting (hi.symm.trans hidle))
    exact Intake.ok_of_transaction nofun (by simpa using hroom)
  | walk _ _ h => exact h ▸ Intake.ok_of_transaction nofun hs.short

theorem fetch_run_intake {s u : State} {i : Instr} (h : fetch defaults s = .run i u) : u.intake = s.intake := by
  rcases fetch_run h with ⟨_, rest, rfl⟩ | ⟨w, rfl⟩ <;> rfl

/-- A fetch that runs nothing keeps the bound: in the FIFO processor it is the one of a buffer that waits. -/
theorem fetch_moved_intakeOk {s t : State} (hs : s.FifoOk) (h : fetch defaults s = .moved t) : t.intake.Ok := by
  obtain ⟨hok, hrestores⟩ := fifoOk_iff.mp hs
  cases hp : s.phase with
  | idle =>
    rw [fetch_idle hp] at h
    rcases fetchInput_moved h with ⟨_, rfl⟩ | ⟨i, rest, hin, rfl⟩
    · exact hok
    · exact applyInput_intakeOk (s := s.setInputs rest) hok fun a ha => restores_head (ha ▸ hin) hrestores
  | command =>
    rw [fetch_command hp, fetchCommand] at h
    split at h <;> cases h
    next e he => exact Intake.ok_of_waiting (fifoWaiting_iff.mpr ⟨e, he⟩)
  | walk =>
    rw [fetch_walk hp] at h
    rcases fetchRecord_moved h with rfl | ⟨f, rfl⟩ | ⟨_, w0, w1, _, _, _, rfl⟩
    · rcases outerLoop_cases (cfg := defaults) s with ⟨_, hl⟩ | ⟨_, hl⟩ <;> rw [hl]
      · exact finishCommand_intakeOk _
      · exact hok
    · exact hok
    · exact hok

theorem step_intakeOk {s t : State} (hs : s.FifoOk) (h : step s = .next t) : t.intake.Ok := by
  obtain ⟨hf, hmoved | ⟨i, u, v, hrun, hexec, rfl⟩⟩ := step_next h
  · exact fetch_moved_intakeOk hs hmoved
  · have hu := fetch_run_intake hrun
    have hfail : u.fail = none := (congrArg Arch.fail (fetch_run_toArch hrun)).trans hf
    have hphase : i.phase = u.phase := (fetch_run_phase hrun).trans (congrArg Intake.phase hu).symm
    exact retire_intakeOk ((exec_intake hfail hexec).ok hphase (hu ▸ (fifoOk_iff.mp hs).1))

/-! ## Steps, and the snapshots still to be restored -/

theorem applyInput_inputs (i : Input) (s : State) : (applyInput i s).inputs = s.inputs := by
  cases i with
  | fire t => exact (fireTimer_bounded t s).2
  | _ => rfl

/-- A step takes no input, or the next one, which it does between transactions alone (R6, R94). -/
theorem step_inputs {s t : State} (h : step s = .next t) : t.inputs = s.inputs ∨ ∃ i, s.inputs = i :: t.inputs := by
  by_cases hp : s.phase = .idle
  · obtain ⟨hf, hmoved | ⟨i, u, v, hrun, hexec, rfl⟩⟩ := step_next h
    · rw [fetch_idle hp] at hmoved
      rcases fetchInput_moved hmoved with ⟨_, rfl⟩ | ⟨i, rest, hin, rfl⟩
      · exact .inl rfl
      · exact .inr ⟨i, by rw [applyInput_inputs, hin]; rfl⟩
    · rw [fetch_idle hp] at hrun
      obtain ⟨op, rest, hin, _, rfl⟩ := fetchInput_run hrun
      have hv : v.inputs = rest := congrArg Outside.inputs (exec_outside (s := s.setInputs rest) hf hexec)
      refine .inr ⟨.bus op, ?_⟩
      rw [State.setInputs_phase, hp, retire_idle, hv, hin]
  · exact .inl (congrArg Outside.inputs (step_outside hp h))

/-- No step adds a snapshot to be restored. -/
theorem step_restores {p : Arch → Bool} {s t : State} (h : step s = .next t) (hs : s.restores p = true) :
    t.restores p = true := by
  rcases step_inputs h with hin | ⟨i, hin⟩
  · exact (restores_congr hin).trans hs
  · exact (restores_congr (s := s.setInputs t.inputs) rfl).trans (restores_tail hin hs)

/-- Settles O58: a word is pushed only onto a buffer that waits, and a transaction ends only with a buffer that is empty or
waits. -/
theorem stepKeepsFifoOk : Obligations.StepKeepsFifoOk := fun _ _ hs h =>
  fifoOk_iff.mpr ⟨step_intakeOk hs h, step_restores h (fifoOk_iff.mp hs).2⟩

end Sys2Proof.Machine

namespace Sys2Proof.Machine

open Sys2Proof.Config (defaults)

/-! ## The FIFO processor: waiting and dispatch (R210, R211) -/

/-- Settles O3: the named opcodes by evaluation, any other as an opcode of no command. -/
theorem requiredWordCounts : Obligations.RequiredWordCounts := by
  refine ⟨rfl, rfl, rfl, rfl, rfl, rfl, rfl, rfl, rfl, rfl, rfl, rfl, fun op hop => ?_⟩
  have hunknown : op ∉ fifoOpcodes := fun h =>
    hop (((List.Perm.swap opNop40 opDquad []).append_left (fifoOpcodes.take 10)).mem_iff.mp h)
  exact (fifo_unknown hunknown).1

/-- Settles O14: a buffer that waits is moved past. -/
theorem incompleteCommandWaits : Obligations.IncompleteCommandWaits := by
  intro s w rest hs hp hfifo hshort
  have hwaiting : fifoWaiting s.fifo = true := by
    rw [hfifo] at hshort ⊢
    exact decide_eq_true hshort
  obtain ⟨e, he⟩ := fifoWaiting_iff.mp hwaiting
  exact step_of_fetch_moved hs (by rw [fetch_command hp, fetchCommand, he]; rfl)

/-- What a step of the FIFO processor does with a whole command. -/
theorem step_command_next {s t : State} {i : Instr} (hp : s.phase = .command) (hdec : decodeFifo s.fifo = .ok i)
    (h : step s = .next t) : s.fail = none ∧ ∃ u, exec i s = .next u ∧ t = retire .command u := by
  obtain ⟨hs, hmoved | ⟨j, u, v, hrun, hexec, rfl⟩⟩ := step_next h
  · cases (fetch_whole_command hp hdec).symm.trans hmoved
  · cases (fetch_whole_command hp hdec).symm.trans hrun
    exact ⟨hs, v, hexec, by rw [hp]⟩

/-- After a command that went on and began no walk, the whole buffer is emptied and the timer armed (R176, R210). -/
theorem retire_command_finished {s : State} (hs : s.fail = none) (hp : s.phase = .command) :
    retire .command s = finishCommand s := by
  rw [retire_running hs, hp]

/-- Settles O15: the three things that can follow a command, by what it did to the buffer and whether it failed. -/
theorem dispatchEmptiesBuffer : Obligations.DispatchEmptiesBuffer := by
  intro s t w rest hp hfifo hlong h
  rw [hfifo] at hlong
  have hdec : decodeFifo s.fifo = .ok (fifoCommand (topByte w) (w :: rest)) := by
    rw [hfifo]
    exact decode_fifo_complete (cfg := defaults) hlong
  obtain ⟨hs, u, hexec, rfl⟩ := step_command_next hp hdec h
  cases exec_intake hs hexec with
  | leaves hu =>
    injection hu with hufifo hutimer huphase
    cases hfail : u.fail with
    | none =>
      rw [retire_command_finished hfail (huphase.trans hp)]
      exact .inl ⟨hfail, rfl, rfl, rfl⟩
    | some f =>
      rw [retire_failed hfail]
      exact .inr (.inr ⟨by simp [hfail], hufifo, hutimer⟩)
  | push v hidle _ => cases (fifoCommand_phase _ _).symm.trans hidle
  | walk hmodel hfail hu =>
    injection hu with hufifo hutimer huphase
    rw [retire_command_walk huphase]
    exact .inr (.inl ⟨hfail, huphase, hufifo, hutimer, fifoCommand_isModel hmodel⟩)

/-- A whole command that goes on, is no `MODEL` and raises nothing, is consumed by its step (R176, R210). -/
theorem step_command {s t : State} {i : Instr} (hs : s.fail = none) (hp : s.phase = .command)
    (hdec : decodeFifo s.fifo = .ok i) (hmodel : i.isModel = false) (hexec : exec i s = .next t) (ht : t.fail = none) :
    step s = .next (finishCommand t) := by
  rw [step_of_fetch_run hs (fetch_whole_command hp hdec), runThenRetire, hexec, hp]
  cases exec_intake hs hexec with
  | leaves h => exact congrArg _ (retire_command_finished ht ((congrArg Intake.phase h).trans hp))
  | push _ hidle _ => cases (decodeFifo_phase hdec).symm.trans hidle
  | walk h _ _ => cases hmodel.symm.trans h

/-- The instruction of a buffer that holds just the words of its opcode (R210, R211). -/
theorem decodeFifo_exact {fifo : List Word} {w : Word} {ws : List Word} (hfifo : fifo = w :: ws) {op : BitVec 8}
    (hop : topByte w = op) (hlen : required op = ws.length + 1) :
    decodeFifo fifo = .ok (fifoCommand op (w :: ws)) :=
  hfifo ▸ decode_fifo_exact (cfg := defaults) hop hlen rfl

/-! ## Register writes from the FIFO (R212) -/

theorem exec_setreg_trigger (value : Word) (s : State) : exec (.setreg Config.fifoTrigger value) s = .next s := rfl

theorem exec_setreg {reg : Offset} (hreg : reg ≠ Config.fifoTrigger) (value : Word) (s : State) :
    exec (.setreg reg value) s = exec (.wr reg value) s := if_neg hreg

/-- Settles O19: the guard, the write behind it, and the command's step as that of any command. -/
theorem setregIsGuardedBusWrite : Obligations.SetregIsGuardedBusWrite := by
  intro s reg value
  refine ⟨?trigger, fun hreg => exec_setreg hreg value s, ?unassigned, ?step⟩
  case trigger =>
    rintro rfl
    exact exec_setreg_trigger value s
  case unassigned =>
    intro hs hreg hptr htiming hport
    exact (exec_setreg hreg value s).trans (busWrite_unassigned hs hreg hptr htiming hport value)
  case step =>
    rintro w hs hp hfifo hop rfl
    have hdec : decodeFifo s.fifo = .ok (.setreg (regField w) value) := decodeFifo_exact hfifo hop rfl
    refine ⟨fun hreg => ?_, fun hreg t hwrite ht => ?_⟩
    · rw [step_command (t := s) hs hp hdec rfl (if_pos hreg) hs]
      rfl
    · rw [step_command hs hp hdec rfl ((exec_setreg hreg value s).trans hwrite) ht]
      rfl

/-! ## The transform commands (R213 to R216) -/

/-- Settles O20: each of the four is this assignment, and the padding word is no argument of it. -/
theorem transformCommandsLoadTransform : Obligations.TransformCommandsLoadTransform :=
  fun _ _ _ _ => ⟨rfl, rfl, rfl, rfl⟩

/-- Settles O21: the words of the operands are those of the buffer after its first. -/
theorem transformCommandsReadBuffer : Obligations.TransformCommandsReadBuffer := by
  intro s w d hs hp hfifo val mat vec
  have hdec : ∀ op n, topByte w = op → d.length = n → required op = n + 1 →
      decodeFifo s.fifo = .ok (fifoCommand op (w :: d)) := fun op n hop hd hlen =>
    decodeFifo_exact hfifo hop (hlen.trans (congrArg (· + 1) hd.symm))
  refine ⟨fun hop hd => ?setmat, fun hop hd => ?setmat8, fun hop hd => ?setpt⟩
  case setmat =>
    have hsetmat : decodeFifo s.fifo = .ok (.setmat (matrixAt (w :: d) 1) (pointAt (w :: d) 10)) := hdec _ 12 hop hd rfl
    rw [step_command hs hp hsetmat rfl rfl hs]
    rfl
  case setmat8 =>
    have hsetmat8 : decodeFifo s.fifo = .ok (.setmat8 (wordAt (w :: d) 1) (matrixAt (w :: d) 2) (pointAt (w :: d) 11)) :=
      hdec _ 13 hop hd rfl
    rw [step_command hs hp hsetmat8 rfl rfl hs]
    rfl
  case setpt =>
    rcases hop with hop | hop
    · have hsetpt15 : decodeFifo s.fifo = .ok (.setpt15 (pointAt (w :: d) 1)) := hdec _ 3 hop hd rfl
      rw [step_command hs hp hsetpt15 rfl rfl hs]
      rfl
    · have hsetpt16 : decodeFifo s.fifo = .ok (.setpt16 (pointAt (w :: d) 1)) := hdec _ 3 hop hd rfl
      rw [step_command hs hp hsetpt16 rfl rfl hs]
      rfl

/-! ## Framing and logged commands (R220 to R224) -/

/-- Settles O28: a step with the single word in the buffer runs the command and consumes it. -/
theorem syncSelectsTenWords : Obligations.SyncSelectsTenWords := by
  refine fun s => ⟨rfl, rfl, fun w hs hp hfifo hop => ?_⟩
  rcases hop with hop | hop
  · have hdec : decodeFifo s.fifo = .ok .sync31 := decodeFifo_exact hfifo hop rfl
    rw [step_command hs hp hdec rfl rfl hs]
    rfl
  · have hdec : decodeFifo s.fifo = .ok .sync32 := decodeFifo_exact hfifo hop rfl
    rw [step_command hs hp hdec rfl rfl hs]
    rfl

/-- A word is its opcode and its low 24 bits (R130). -/
theorem opWord_topByte_low24 (w : Word) : opWord (topByte w) (low24 w) = w := by
  have hjoin : topByte w ++ low24 w = w.extractLsb' 0 32 := BitVec.extractLsb'_append_extractLsb'_eq_extractLsb' rfl
  exact hjoin.trans BitVec.extractLsb'_eq_self

theorem exec_dquad (low : BitVec 24) (ws : List Word) (s : State) :
    exec (.dquad low ws) s = .next (s.emit (.log (.directQuad (opWord opDquad low :: ws)))) := rfl

theorem exec_nop40 (low : BitVec 24) (s : State) :
    exec (.nop40 low) s = .next (s.emit (.log (.nop40 (opWord opNop40 low)))) := rfl

theorem exec_unk (w : Word) (s : State) : exec (.unk w) s = .next (s.emit (.log (.fifoUnknown w))) := rfl

/-- Settles O29: each is one log entry, and a step with its words in the buffer logs them as they stand there. -/
theorem loggedCommandsChangeNothing : Obligations.LoggedCommandsChangeNothing := by
  refine ⟨fun s low ws w => ⟨exec_dquad low ws s, exec_nop40 low s, exec_unk w s⟩, ?step⟩
  intro s w d hs hp hfifo
  have hword : ∀ op, topByte w = op → opWord op (low24 w) = w := fun _ hop => hop ▸ opWord_topByte_low24 w
  refine ⟨fun hop hd => ?dquad, fun hop hd => ?nop40, fun hop hd => ?unk⟩
  case dquad =>
    have hdec : decodeFifo s.fifo = .ok (.dquad (low24 w) (d.take 11)) :=
      decodeFifo_exact hfifo hop (congrArg (· + 1) hd.symm)
    have hexec := exec_dquad (low24 w) (d.take 11) s
    rw [List.take_of_length_le hd.le] at hdec hexec
    rw [hword opDquad hop] at hexec
    rw [step_command hs hp hdec rfl hexec hs]
    rfl
  case nop40 =>
    subst hd
    have hdec : decodeFifo s.fifo = .ok (.nop40 (low24 w)) := decodeFifo_exact hfifo hop rfl
    have hexec := exec_nop40 (low24 w) s
    rw [hword opNop40 hop] at hexec
    rw [step_command hs hp hdec rfl hexec hs]
    rfl
  case unk =>
    subst hd
    obtain ⟨hone, hunk⟩ := fifo_unknown (op := topByte w) hop
    have hdec : decodeFifo s.fifo = .ok (.unk w) := (decodeFifo_exact hfifo rfl hone).trans (congrArg _ (hunk [w]))
    rw [step_command hs hp hdec rfl (exec_unk w s) hs]
    rfl

/-! ## An unset clip rectangle, and the debug toggle (R217, R291, R354) -/

/-- Classifying a texture changes no clip rectangle (R289). -/
theorem classifyWidth_clip {cfg : Cfg} (texoffs : Word) (s : State) : (classifyWidth cfg texoffs s).2.clip = s.clip := by
  rcases classifyWidth_snd texoffs s with ⟨w, hw⟩ | ⟨cs, os, n, hw⟩ <;> rw [hw]
  rfl

/-- `PT2CLR` without a clip rectangle (R217). -/
theorem setPoint2AndClear_unset {cfg : Cfg} {s : State} (hclip : s.clip = none) (p : Vec3 Word) :
    setPoint2AndClear cfg p s = .next ((s.setPoint2 (p.map (dspFloat cfg))).setFail .unsetClip) := by
  simp [setPoint2AndClear, hclip, raise]

/-- A polygon without a clip rectangle (R291). -/
theorem scanConvert_unset {cfg : Cfg} {s : State} (hclip : s.clip = none) (sv : List ScreenVertex) (e : Extra) :
    scanConvert cfg sv e s = .next (s.setFail .unsetClip) := by
  simp [scanConvert, hclip, raise]

/-- Settles O24: the clip rectangle is looked for after `point2` is written, and after the texture is classified; the toggle
before anything else. -/
theorem unsetClipStopsDrawing : Obligations.UnsetClipStopsDrawing := by
  refine ⟨fun s p hclip => setPoint2AndClear_unset hclip p, ?quad, ?toggle⟩
  case quad =>
    intro s framing v0 v1 v2 v3 sv htoggle hclip hpoly
    calc exec (.dQuad framing v0 v1 v2 v3) s
        = quadDraw defaults v0 v1 v2 v3 s.walker.texoffs s := rfl
      _ = _ := by
          simp only [quadDraw, htoggle, hpoly, Bool.false_eq_true, if_false]
          exact scanConvert_unset ((classifyWidth_clip _ s).trans hclip) sv _
  case toggle =>
    intro s framing v0 v1 v2 v3 htoggle
    exact if_pos htoggle

end Sys2Proof.Machine

namespace Sys2Proof.Machine

open Sys2Proof.Config (defaults)

/-! ## The depth clear (R88, R90, R217) -/

/-- A loop each of whose iterations goes on, goes on, and reaches what its iterations lead to, each from the index before. -/
theorem forRange_reaches {f : Nat → State → Result} (P : Nat → State → Prop) {lo n : Nat} {s : State}
    (each : ∀ i a, lo ≤ i → i < lo + n → a.fail = none → P i a → ∃ b, f i a = .next b ∧ b.fail = none ∧ P (i + 1) b)
    (hf : s.fail = none) (hs : P lo s) : ∃ t, forRange f lo n s = .next t ∧ t.fail = none ∧ P (lo + n) t := by
  induction n generalizing lo s with
  | zero => exact ⟨s, rfl, hf, hs⟩
  | succ n ih =>
    obtain ⟨u, hu, hfu, hpu⟩ := each lo s le_rfl (by omega) hf hs
    obtain ⟨t, ht, hft, hpt⟩ := ih (lo := lo + 1) (fun i a h1 h2 => each i a (by omega) (by omega)) hfu hpu
    exact ⟨t, by rw [forRange, hu, andThen_running hfu, ht], hft, by rwa [Nat.add_right_comm] at hpt⟩

/-- `t` is `s` with `MAX_DEPTH` in the depths of the pixels `D`, and every other byte of bank 1 as before. -/
structure DepthFilled (D : Nat → Nat → Prop) (s t : State) : Prop where
  frame : t = s.setWave1 t.wave1
  filled : ∀ y x, D y x → t.wave1.readLE .bank1 (depthAddr s.renderbase y x) 2 = Config.maxDepth
  kept : ∀ a, (∀ y x, D y x → a ≠ depthAddr s.renderbase y x ∧ a ≠ depthAddr s.renderbase y x + 1) →
    t.wave1.byteAt .bank1 a = s.wave1.byteAt .bank1 a

theorem DepthFilled.none {D : Nat → Nat → Prop} (hD : ∀ y x, ¬ D y x) (s : State) : DepthFilled D s s :=
  ⟨rfl, fun y x h => absurd h (hD y x), fun _ _ => rfl⟩

theorem DepthFilled.congr {D E : Nat → Nat → Prop} {s t : State} (h : DepthFilled D s t) (hDE : ∀ y x, D y x ↔ E y x) :
    DepthFilled E s t :=
  ⟨h.frame, fun y x hE => h.filled y x ((hDE y x).mpr hE), fun a ha => h.kept a fun y x hD => ha y x ((hDE y x).mp hD)⟩

/-- Two depths lie apart, or at the same address (R88). -/
theorem depthAddr_eq_or_disjoint (rb y x y' x' : Nat) :
    depthAddr rb y x = depthAddr rb y' x'
    ∨ depthAddr rb y x + 2 ≤ depthAddr rb y' x' ∨ depthAddr rb y' x' + 2 ≤ depthAddr rb y x := by
  by_cases h : pixelCell y x = pixelCell y' x' ∧ x % 2 = x' % 2
  · obtain ⟨hcell, hparity⟩ := h
    exact .inl (by rw [depthAddr, hcell, hparity, depthAddr])
  · exact .inr (depthAddr_disjoint rb h)

/-- A depth of an even target, inside bank 1, may be accessed (R83, R87, R88). -/
theorem checkAccess_depth {rb y x : Nat} (heven : rb % 2 = 0) (hinside : depthAddr rb y x + 2 ≤ Config.size1) :
    checkAccess defaults .bank1 (depthAddr rb y x) 2 = .ok () := by
  refine checkAccess_ok.mpr ⟨?_, Int.natCast_nonneg _, by exact_mod_cast hinside⟩
  have haddr : depthAddr rb y x % 2 = 0 := by
    unfold depthAddr
    omega
  exact_mod_cast haddr

/-- Filling one more pixel (R90): the store lies apart from every depth filled before, or at the same address. -/
theorem DepthFilled.write {D E : Nat → Nat → Prop} {s t : State} (h : DepthFilled D s t) (heven : s.renderbase % 2 = 0)
    {y x : Nat} (hinside : depthAddr s.renderbase y x + 2 ≤ Config.size1)
    (hE : ∀ y' x', E y' x' ↔ D y' x' ∨ (y' = y ∧ x' = x)) :
    ∃ u, writeDepth defaults t.renderbase y x Config.maxDepth t = .next u ∧ u.fail = t.fail ∧ DepthFilled E s u := by
  have hrb : t.renderbase = s.renderbase := congrArg (·.renderbase) h.frame
  have hstored : ∀ m : Memory, (m.writeLE (depthAddr s.renderbase y x) Config.maxDepth 2).readLE .bank1
      (depthAddr s.renderbase y x) 2 = Config.maxDepth := fun m => Memory.readLE_writeLE _ m _ _ _
  rw [hrb]
  refine ⟨_, memWrite_ok (checkAccess_depth heven hinside), rfl, ?frame, fun y' x' hx' => ?filled, fun a ha => ?kept⟩
  case frame => exact congrArg (·.setWave1 (t.wave1.writeLE (depthAddr s.renderbase y x) Config.maxDepth 2)) h.frame
  case filled =>
    rcases (hE y' x').mp hx' with hD | ⟨rfl, rfl⟩
    · rcases depthAddr_eq_or_disjoint s.renderbase y' x' y x with heq | hapart
      · rw [heq]
        exact hstored _
      · exact (Memory.readLE_writeLE_outside _ _ _ _ _ _ _ hapart).trans (h.filled y' x' hD)
    · exact hstored _
  case kept =>
    obtain ⟨hlow, hhigh⟩ := ha y x ((hE y x).mpr (.inr ⟨rfl, rfl⟩))
    have hout : a < depthAddr s.renderbase y x ∨ depthAddr s.renderbase y x + 2 ≤ a := by omega
    exact (Memory.byteAt_writeLE_outside _ _ _ _ _ _ hout).trans
      (h.kept a fun y' x' hD => ha y' x' ((hE y' x').mpr (.inl hD)))

/-- The pixels of a rectangle that come, row by row, before the pixel (`Y`, `X`). -/
def rasterBefore (c : Rect) (Y X y x : Nat) : Prop :=
  c.minX ≤ x ∧ x ≤ c.maxX ∧ c.minY ≤ y ∧ (y < Y ∨ y = Y ∧ x < X)

section
variable {s : State} {c : Rect}

/-- Every depth of the rectangle lies inside bank 1. -/
def DepthsInside (s : State) (c : Rect) : Prop :=
  ∀ y x, c.minY ≤ y → y ≤ c.maxY → c.minX ≤ x → x ≤ c.maxX → depthAddr s.renderbase y x + 2 ≤ Config.size1

/-- One row of the clear, from its first column to its last. -/
theorem clearDepthRow_fills (heven : s.renderbase % 2 = 0) (hinside : DepthsInside s c) {y : Nat} (hlo : c.minY ≤ y)
    (hhi : y ≤ c.maxY) {t : State} (ht : t.fail = none) (h : DepthFilled (rasterBefore c y c.minX) s t) :
    ∃ u, clearDepthRow defaults c y t = .next u ∧ u.fail = none ∧ DepthFilled (rasterBefore c (y + 1) c.minX) s u := by
  obtain ⟨u, hu, hfu, hfilled⟩ := forRange_reaches (fun x => DepthFilled (rasterBefore c y x) s)
    (f := fun x t => writeDepth defaults t.renderbase y x Config.maxDepth t) (lo := c.minX) (n := c.maxX + 1 - c.minX)
    (fun x a hxlo hxhi ha hDa => by
      obtain ⟨b, hb, hfb, hDb⟩ := hDa.write (E := rasterBefore c y (x + 1)) heven
        (hinside y x hlo hhi hxlo (by omega)) (fun y' x' => by unfold rasterBefore; omega)
      exact ⟨b, hb, hfb.trans ha, hDb⟩) ht h
  exact ⟨u, hu, hfu, hfilled.congr fun y' x' => by unfold rasterBefore; omega⟩

/-- The clear goes on and fills the rectangle (R217). -/
theorem clearDepth_fills (hs : s.fail = none) (heven : s.renderbase % 2 = 0) (hinside : DepthsInside s c) :
    ∃ t, clearDepth defaults c s = .next t
      ∧ DepthFilled (fun y x => c.minY ≤ y ∧ y ≤ c.maxY ∧ c.minX ≤ x ∧ x ≤ c.maxX) s t := by
  obtain ⟨t, ht, _, hfilled⟩ := forRange_reaches (fun y => DepthFilled (rasterBefore c y c.minX) s)
    (f := clearDepthRow defaults c) (lo := c.minY) (n := c.maxY + 1 - c.minY)
    (fun y a hlo hhi ha => clearDepthRow_fills heven hinside hlo (by omega) ha) hs
    (.none (fun y x => by unfold rasterBefore; omega) s)
  exact ⟨t, ht, hfilled.congr fun y x => by unfold rasterBefore; omega⟩

end

/-- Settles O25: each depth is stored inside the bank, apart from the ones stored before or over one of them. -/
theorem depthClearFillsClipRectangle : Obligations.DepthClearFillsClipRectangle := by
  intro s p c hs hclip heven hinside value
  obtain ⟨t, ht, hframe, hfilled, hkept⟩ :=
    clearDepth_fills (s := s.setPoint2 (p.map (dspFloat defaults))) (c := c) hs heven hinside
  refine ⟨t.wave1, ?_, fun y x hylo hyhi hxlo hxhi => ?_, fun a ha => ?_⟩
  · calc exec (.pt2clr p) s
        = clearDepth defaults c (s.setPoint2 (p.map (dspFloat defaults))) := by
          simp [exec, execPt2clr, setPoint2AndClear, hclip]
      _ = .next t := ht
      _ = _ := congrArg _ hframe
  · rw [readDepth, memRead_ok (checkAccess_depth heven (hinside y x hylo hyhi hxlo hxhi))]
    exact congrArg _ (hfilled y x ⟨hylo, hyhi, hxlo, hxhi⟩)
  · exact hkept a fun y x ⟨hylo, hyhi, hxlo, hxhi⟩ => ha y x hylo hyhi hxlo hxhi

end Sys2Proof.Machine

namespace Sys2Proof.Machine

open Sys2Proof.Config (defaults)

/-! ## The sub-commands and the entry of a walk (R250, R255 to R259) -/

/-- A count within the bound starts a walk (R250). -/
theorem startWalk_within {cfg : Cfg} {count : BitVec 16} (hcount : count.toNat ≤ cfg.dlCountMax) (base : Word)
    (s : State) :
    startWalk cfg base count s
      = .next ((s.setWalker ⟨base, count.toNat, none, 0, [], s.quadSize, 0#32⟩).setPhase .walk) :=
  if_neg (not_lt.mpr hcount)

/-- A count above the bound is fatal, whatever the base (R250). -/
theorem startWalk_above {cfg : Cfg} {count : BitVec 16} (hcount : cfg.dlCountMax < count.toNat) (base : Word)
    (s : State) :
    startWalk cfg base count s = .next (s.setFail (.displayListFatal base count.toNat)) :=
  if_pos hcount

/-- Settles O26: both commands are the entry of the walker, on each side of its bound. -/
theorem modelStartsWalkOrIsFatal : Obligations.ModelStartsWalkOrIsFatal := by
  intro s count base
  refine ⟨fun hwithin => ?_, fun habove => ?_⟩
  · have hstart := startWalk_within (cfg := defaults) hwithin base s
    exact ⟨hstart, hstart⟩
  · have hfatal := startWalk_above (cfg := defaults) habove base s
    exact ⟨hfatal, hfatal⟩

/-- Settles O30: the meanings of the three rows. -/
theorem textureSelectAndSync : Obligations.TextureSelectAndSync := fun _ _ => ⟨rfl, rfl, rfl⟩

/-- A register write from a display list, aimed at no FIFO trigger, is the bus write (R257). -/
theorem exec_dSetreg {reg : Offset} (hreg : reg ≠ Config.fifoTrigger) (value : Word) (s : State) :
    exec (.dSetreg reg value) s = busWrite defaults reg value s := if_neg hreg

/-- Settles O31: off the trigger the meaning is that of `WR`, which only stores at an unassigned offset. -/
theorem listRegisterWrite : Obligations.ListRegisterWrite := by
  intro s reg value
  refine ⟨fun htrigger => if_pos htrigger, fun hreg => exec_dSetreg hreg value s, ?unassigned⟩
  intro hs hreg hptr htiming hport
  exact (exec_dSetreg hreg value s).trans (busWrite_unassigned hs hreg hptr htiming hport value)

/-- Settles O32: the meaning of the row, by the framing of the walk. -/
theorem unknownSubcommandWidensFraming : Obligations.UnknownSubcommandWidensFraming := by
  intro s w0 w1
  refine ⟨fun hten => ?_, fun hfourteen => ?_⟩
  · simp only [exec, execDUnk, hten]
  · simp only [exec, execDUnk, hfourteen]

/-! ## One iteration of the walker (R251, R252, R260, R261) -/

/-- At the outer loop's test a step is the test (R251). -/
theorem step_outerLoop {s : State} (hs : s.fail = none) (hp : s.phase = .walk) (hlist : s.walker.list = none) :
    step s = .next (outerLoop defaults s) :=
  step_of_fetch_moved hs (by rw [fetch_walk hp, fetchRecord, hlist])

/-- Settles O35: a step at the outer loop's test is one of the two cases of `outerLoop`. -/
theorem outerLoopRunsOnce : Obligations.OuterLoopRunsOnce := by
  intro s hs hp hlist
  have hstep := step_outerLoop hs hp hlist
  exact ⟨fun hbase => hstep.trans (congrArg _ (if_neg hbase)), fun hbase => hstep.trans (congrArg _ (if_pos hbase))⟩

/-- A whole record inside bank 0 is read, at a list that is aligned (R46, R252). -/
theorem readRecord_inside {m : Memory} {p cur : Nat} (halign : p % 4 = 0) (hinside : p + 8 * cur + 8 ≤ Config.size0) :
    readRecord defaults m p cur = .ok (BitVec.ofNat 32 (m.readLE .bank0 (p + 8 * cur) 4),
      BitVec.ofNat 32 (m.readLE .bank0 (p + 8 * cur + 4) 4)) := by
  have hword : ∀ (k : Int) (a : Nat), (p : Int) + 4 * k = a → a % 4 = 0 → a + 4 ≤ Config.size0 →
      read32 defaults .bank0 m p k = .ok (m.readLE .bank0 a 4) := by
    intro k a hk hmod hend
    rw [read32, hk]
    exact memRead_ok (checkAccess_ok.mpr ⟨by exact_mod_cast hmod, Int.natCast_nonneg a, by exact_mod_cast hend⟩)
  rw [readRecord, hword (2 * cur) (p + 8 * cur) (by omega) (by omega) (by omega),
    hword (2 * cur + 1) (p + 8 * cur + 4) (by omega) (by omega) (by omega)]
  rfl

/-- A record beyond the end of bank 0 fails at its first word (R83, R261). -/
theorem readRecord_beyond {m : Memory} {p cur : Nat} (halign : p % 8 = 0) (hbeyond : Config.size0 < p + 8 * cur + 8) :
    readRecord defaults m p cur = .error (.raise (.waveRange .bank0 (p + 8 * cur : Nat) 4)) := by
  have haddr : (p : Int) + 4 * (2 * cur) = (p + 8 * cur : Nat) := by push_cast; ring
  have hend : Config.size0 % 8 = 0 := rfl
  have hout : (bankSize defaults .bank0 : Int) < (p + 8 * cur : Nat) + 4 := by
    change (Config.size0 : Int) < _
    omega
  rw [readRecord, read32, haddr, memRead_outside (.inr hout)]
  rfl

/-- A record that completes nothing is appended (R252). -/
theorem step_incomplete_record {s : State} {p : Nat} {w0 w1 : Word} {e : DecodeError} (hs : s.fail = none)
    (hp : s.phase = .walk) (hlist : s.walker.list = some p)
    (hread : readRecord defaults s.wave0 p s.walker.cur = .ok (w0, w1))
    (hdec : decodeList defaults s.walker.dlQuadsize (s.walker.buf ++ [w0, w1]) = .error e) :
    step s = .next (s.setWalker (s.walker.advance w0 w1)) := by
  apply step_of_fetch_moved hs
  rw [fetch_walk hp, fetchRecord, hlist]
  simp [hread, Walker.advance, hdec]

/-- A record that cannot be read fails, and changes nothing else (R83). -/
theorem step_failing_record {s : State} {p : Nat} {f : Fault} (hs : s.fail = none) (hp : s.phase = .walk)
    (hlist : s.walker.list = some p) (hread : readRecord defaults s.wave0 p s.walker.cur = .error (.raise f)) :
    step s = .next (s.setFail f) := by
  apply step_of_fetch_moved hs
  rw [fetch_walk hp, fetchRecord, hlist]
  simp [hread, fetchStop]

/-- The words a sub-command needs at the defaults (R253). -/
theorem needed_defaults (framing : Framing) (op : BitVec 8) :
    needed defaults framing op = if op = 0x38#8 then framing.words else 2 := by
  simp [needed, Config.dlOpQuad, Config.dlQuad]

/-- A buffer of fewer words than its sub-command needs is not decoded (R252). -/
theorem decodeList_short {cfg : Cfg} {framing : Framing} {buf : List Word}
    (h : buf.length < needed cfg framing (topByte (wordAt buf 0))) : ∃ e, decodeList cfg framing buf = .error e := by
  cases buf with
  | nil => exact ⟨_, rfl⟩
  | cons w ws => exact ⟨_, if_pos h⟩

/-- Settles O33: the record is read or it is not, and a short buffer runs no sub-command. -/
theorem walkReadsOneRecord : Obligations.WalkReadsOneRecord := by
  intro s p hs hp hlist
  refine ⟨?inside, fun halign hbeyond => step_failing_record hs hp hlist (readRecord_beyond halign hbeyond)⟩
  case inside =>
    intro halign hinside w0 w1 buf op hshort
    obtain ⟨e, he⟩ := decodeList_short (cfg := defaults) (framing := s.walker.dlQuadsize) (buf := buf)
      (hshort.trans_eq (needed_defaults _ _).symm)
    rw [step_incomplete_record hs hp hlist (readRecord_inside halign hinside) he, Walker.advance, hlist]

/-- What a step of the walker does with a record that completes a sub-command. -/
theorem step_record_next {s t : State} {p : Nat} {w0 w1 : Word} {i : Instr} (hp : s.phase = .walk)
    (hlist : s.walker.list = some p) (hread : readRecord defaults s.wave0 p s.walker.cur = .ok (w0, w1))
    (hdec : decodeList defaults s.walker.dlQuadsize (s.walker.buf ++ [w0, w1]) = .ok i) (h : step s = .next t) :
    s.fail = none ∧ ∃ u, exec i (s.setWalker (s.walker.advance w0 w1)) = .next u ∧ t = retire .walk u := by
  have hfetch := fetch_completed_record hp hlist hread hdec
  obtain ⟨hs, hmoved | ⟨j, u, v, hrun, hexec, rfl⟩⟩ := step_next h
  · cases hfetch.symm.trans hmoved
  · cases hfetch.symm.trans hrun
    exact ⟨hs, v, hexec, by rw [State.setWalker_phase, hp]⟩

/-- A sub-command leaves the FIFO buffer as it is. -/
theorem exec_fifo_of_walk {i : Instr} {s t : State} (hi : i.phase = .walk) (hs : s.fail = none)
    (h : exec i s = .next t) : t.fifo = s.fifo := by
  cases exec_intake hs h with
  | leaves ht => exact congrArg Intake.fifo ht
  | push v hidle _ => cases hi.symm.trans hidle
  | walk _ _ ht => exact congrArg Intake.fifo ht

/-- Without a failure, the end of a sub-command empties the local buffer (R252). -/
theorem retire_walk_running {s : State} (hs : (retire .walk s).fail = none) :
    s.fail = none ∧ retire .walk s = clearBuffer s := by
  cases hf : s.fail with
  | some f => rw [retire_failed hf, hf] at hs; cases hs
  | none => exact ⟨rfl, retire_running hf⟩

/-- Settles O34: the sub-command changes the framing and the texture offset of the walk at most, and is then retired. -/
theorem subcommandEmptiesLocalBuffer : Obligations.SubcommandEmptiesLocalBuffer := by
  intro s t p w0 w1 i hp hlist hread hdec h ht
  obtain ⟨hs, u, hexec, rfl⟩ := step_record_next hp hlist hread hdec h
  have hi := decodeList_phase hdec
  obtain ⟨hphase, framing, texoffs, hwalker⟩ := (exec_effect hexec).walker_of_walk hi
  have hfifo : u.fifo = s.fifo := exec_fifo_of_walk (s := s.setWalker (s.walker.advance w0 w1)) hi hs hexec
  rw [(retire_walk_running ht).2, ← hlist]
  exact ⟨hphase.trans hp, rfl, congrArg Walker.cur hwalker, congrArg Walker.list hwalker,
    (congrArg Walker.base hwalker :), (congrArg Walker.count hwalker :), hfifo⟩

/-! ## No instruction of a running machine ends in a fault -/

section
variable {cfg : Cfg}

theorem stop_no_fault (e : Stop) (s : State) (f : Fault) : stop e s ≠ .fault f := by
  cases e <;> exact nofun

theorem andThen_no_fault {o : Result} {k : State → Result} {f : Fault} (ho : o ≠ .fault f)
    (hk : ∀ s, k s ≠ .fault f) : andThen o k ≠ .fault f := by
  cases o with
  | next s =>
    cases hs : s.fail with
    | none => rw [andThen_running hs]; exact hk s
    | some e => rw [andThen_failed hs]; exact nofun
  | fault e => exact ho
  | refused r => exact nofun

theorem portActions_no_fault (l : List PortAction) (s : State) (f : Fault) : portActions cfg l s ≠ .fault f := by
  induction l generalizing s with
  | nil => exact nofun
  | cons a rest ih =>
    refine andThen_no_fault ?_ ih
    cases a with
    | setByte b addr v => exact memWrite_no_fault b addr 1 _ s f
    | setReg o v => exact nofun
    | pointer idx data => exact nofun

/-- Where a bus write is accepted it goes on or is refused (R175). -/
theorem busWrite_no_fault {s : State} (hs : s.fail = none) (o : Offset) (v : Word) (f : Fault) :
    busWrite cfg o v s ≠ .fault f := by
  rw [busWrite, accepting_running hs]
  dsimp only
  split
  · rw [fifoPush]; split <;> exact nofun
  · split
    · exact nofun
    · split
      · exact nofun
      · split
        · rw [portWrite]
          split
          · exact nofun
          · exact portActions_no_fault _ _ f
        · exact nofun

theorem drawPixel_no_fault (e : Extra) (y x : Nat) (p : Sample) (s : State) (f : Fault) :
    drawPixel cfg e y x p s ≠ .fault f := by
  rw [drawPixel]
  split
  · exact stop_no_fault _ s f
  · exact nofun
  · exact andThen_no_fault (memWrite_no_fault _ _ _ _ s f) fun t => memWrite_no_fault _ _ _ _ t f

theorem drawRow_no_fault (sv : List ScreenVertex) (clip : Rect) (e : Extra) (y : Nat) (s : State) (f : Fault) :
    drawRow cfg sv clip e y s ≠ .fault f := by
  rw [drawRow]
  split
  · exact stop_no_fault _ s f
  · exact nofun
  · refine forRange_no_fault (fun x t f => ?_) f
    rw [drawColumn]
    split
    · exact stop_no_fault _ t f
    · exact drawPixel_no_fault _ _ _ _ t f

theorem quadDraw_no_fault (v0 v1 v2 v3 : QVertex) (texoffs : Word) (s : State) (f : Fault) :
    quadDraw cfg v0 v1 v2 v3 texoffs s ≠ .fault f := by
  rw [quadDraw]
  split
  · exact nofun
  · split
    · exact stop_no_fault _ s f
    · exact nofun
    · rw [scanConvert]
      split
      · exact nofun
      · exact forRange_no_fault (drawRow_no_fault _ _ _) f

end

/-- A sub-command of a running machine goes on or is refused (R349). -/
theorem exec_no_fault_of_walk {i : Instr} (hi : i.phase = .walk) {s : State} (hs : s.fail = none) (f : Fault) :
    exec i s ≠ .fault f := by
  cases i with
  | dTexsel21 w => exact nofun
  | dTexsel22 w => exact nofun
  | dSync => exact nofun
  | dSetreg reg value =>
    simp only [exec, execDSetreg, listWrite]
    split
    · exact nofun
    · exact busWrite_no_fault hs reg value f
  | dQuad framing v0 v1 v2 v3 => exact quadDraw_no_fault v0 v1 v2 v3 _ s f
  | dUnk w0 w1 =>
    simp only [exec, execDUnk]
    split <;> exact nofun
  | _ => cases hi

/-! ## The end of a walk (R261) -/

/-- The steps a walk has left: one for each record still to be read, and the tests of the outer loop. -/
def Walker.stepsLeft (w : Walker) : Nat :=
  match w.list with
  | some _ => w.count + 2 - w.cur
  | none => if w.base = 0#32 then 1 else w.count + 3

theorem Walker.stepsLeft_list {w : Walker} {p : Nat} (h : w.list = some p) : w.stepsLeft = w.count + 2 - w.cur := by
  rw [stepsLeft, h]

theorem Walker.stepsLeft_last {w : Walker} (hlist : w.list = none) (hbase : w.base = 0#32) : w.stepsLeft = 1 := by
  rw [stepsLeft, hlist, hbase]; rfl

theorem Walker.stepsLeft_entry {w : Walker} (hlist : w.list = none) (hbase : w.base ≠ 0#32) :
    w.stepsLeft = w.count + 3 := by
  rw [stepsLeft, hlist]; exact if_neg hbase

theorem Walker.stepsLeft_le (w : Walker) : w.stepsLeft ≤ w.count + 3 := by
  rw [stepsLeft]
  split
  · omega
  · split <;> omega

theorem Walker.stepsLeft_pos {w : Walker} (hb : w.InBounds) : 0 < w.stepsLeft := by
  rw [stepsLeft]
  split
  · next p hp =>
    obtain ⟨_, _, _, hcur⟩ := hb.list p hp
    omega
  · split <;> omega

/-- What is left depends on the pointer, the position, the base and the count alone. -/
theorem Walker.stepsLeft_congr {v w : Walker} (hlist : v.list = w.list) (hcur : v.cur = w.cur) (hbase : v.base = w.base)
    (hcount : v.count = w.count) : v.stepsLeft = w.stepsLeft := by
  rw [stepsLeft, hlist, hcur, hbase, hcount, stepsLeft]

/-- Reading a record leaves one step less (R252). -/
theorem Walker.stepsLeft_advance {w : Walker} (hb : w.InBounds) {p : Nat} (hp : w.list = some p) (w0 w1 : Word) :
    (w.advance w0 w1).stepsLeft < w.stepsLeft := by
  obtain ⟨_, _, hbase, hcur⟩ := hb.list p hp
  rw [stepsLeft_list hp]
  by_cases hmore : w.cur < w.count
  · rw [stepsLeft_list (w := w.advance w0 w1) ((if_pos hmore).trans hp)]
    simp only [advance]
    omega
  · rw [stepsLeft_last (w := w.advance w0 w1) (if_neg hmore) hbase]
    omega

/-- The transaction has ended: the machine is between transactions, or a failure is recorded. -/
def State.Ended (s : State) : Prop := s.phase = .idle ∨ s.fail ≠ none

/-- The outer loop's test ends the walk, or leaves it its records and its last test (R251). -/
theorem outerLoop_progress {s : State} (hp : s.phase = .walk) (hb : s.walker.InBounds) :
    (outerLoop defaults s).Ended
    ∨ ((outerLoop defaults s).phase = .walk ∧ (outerLoop defaults s).walker.stepsLeft < s.walker.stepsLeft) := by
  rcases outerLoop_cases (cfg := defaults) s with ⟨_, hl⟩ | ⟨hbase, hl⟩ <;> rw [hl]
  · exact .inl (.inl rfl)
  · have hlist : s.walker.list = none := Option.eq_none_iff_forall_not_mem.mpr fun p hlist =>
      hbase (hb.list p hlist).2.2.1
    rw [Walker.stepsLeft_entry hlist hbase]
    exact .inr ⟨hp, Nat.lt_succ_self _⟩

/-- A step of a walk that goes on ends the transaction or leaves the walk fewer steps. -/
theorem step_walk_progress {s t : State} (hp : s.phase = .walk) (hb : s.walker.InBounds) (h : step s = .next t) :
    t.Ended ∨ (t.phase = .walk ∧ t.walker.stepsLeft < s.walker.stepsLeft) := by
  obtain ⟨hs, hmoved | ⟨i, u, v, hrun, hexec, rfl⟩⟩ := step_next h
  · rw [fetch_walk hp] at hmoved
    rcases fetchRecord_moved hmoved with rfl | ⟨f, rfl⟩ | ⟨p, w0, w1, e, hlist, _, rfl⟩
    · exact outerLoop_progress hp hb
    · exact .inl (.inr (by simp))
    · exact .inr ⟨hp, Walker.stepsLeft_advance hb hlist w0 w1⟩
  · rw [fetch_walk hp] at hrun
    obtain ⟨p, w0, w1, hlist, hdec, rfl⟩ := fetchRecord_run hrun
    obtain ⟨hphase, framing, texoffs, hwalker⟩ := (exec_effect hexec).walker_of_walk (decodeList_phase hdec)
    rw [State.setWalker_phase, hp] at hphase ⊢
    cases hv : v.fail with
    | some f => exact .inl (.inr (by simp [retire_failed hv, hv]))
    | none =>
      rw [retire_running hv]
      have hleft : (clearBuffer v).walker.stepsLeft = (s.walker.advance w0 w1).stepsLeft := by
        simp only [clearBuffer, hwalker, State.setWalker_walker]
        exact Walker.stepsLeft_congr rfl rfl rfl rfl
      exact .inr ⟨hphase, hleft.trans_lt (Walker.stepsLeft_advance hb hlist w0 w1)⟩

/-- A step of a walk goes on or is refused. -/
theorem step_walk_no_fault {s : State} (hs : s.fail = none) (hp : s.phase = .walk) (f : Fault) : step s ≠ .fault f := by
  cases hfetch : fetch defaults s with
  | moved t => rw [step_of_fetch_moved hs hfetch]; exact nofun
  | stuck r => simp [step, hs, hfetch]
  | run i u =>
    have hi : i.phase = .walk := (fetch_run_phase hfetch).trans hp
    have hu : u.fail = none := (congrArg Arch.fail (fetch_run_toArch hfetch)).trans hs
    rw [step_of_fetch_run hs hfetch, runThenRetire]
    cases hexec : exec i u with
    | next v => exact nofun
    | fault e => exact absurd hexec (exec_no_fault_of_walk hi hu e)
    | refused r => exact nofun

theorem runToEnd_ended {s : State} (h : s.Ended) (n : Nat) : runToEnd n s = .next s := by
  cases n with
  | zero => rfl
  | succ n => exact if_pos h

theorem runToEnd_step {s t : State} (hs : s.fail = none) (hp : s.phase = .walk) (h : step s = .next t) (n : Nat) :
    runToEnd (n + 1) s = runToEnd n t := by
  simp [runToEnd, hs, hp, h]

theorem runToEnd_refused {s : State} {r : Refusal} (hs : s.fail = none) (hp : s.phase = .walk) (h : step s = .refused r)
    (n : Nat) : runToEnd (n + 1) s = .refused r := by
  simp [runToEnd, hs, hp, h]

/-- A walk ends within the steps it has left. -/
theorem walk_ends {n : Nat} {s : State} (hs : s.fail = none) (hp : s.phase = .walk) (hok : s.WalkerOk)
    (hn : s.walker.stepsLeft ≤ n) : (∃ t, runToEnd n s = .next t ∧ t.Ended) ∨ ∃ r, runToEnd n s = .refused r := by
  induction n generalizing s with
  | zero =>
    obtain ⟨_, hb, _⟩ := walkerOk_iff.mp hok
    exact absurd (Walker.stepsLeft_pos hb) (not_lt.mpr hn)
  | succ n ih =>
    cases hstep : step s with
    | fault f => exact absurd hstep (step_walk_no_fault hs hp f)
    | refused r => exact .inr ⟨r, runToEnd_refused hs hp hstep n⟩
    | next t =>
      rw [runToEnd_step hs hp hstep]
      by_cases hend : t.Ended
      · exact .inl ⟨t, runToEnd_ended hend n, hend⟩
      · obtain ⟨_, hb, _⟩ := walkerOk_iff.mp hok
        obtain ⟨htp, hlt⟩ := (step_walk_progress hp hb hstep).resolve_left hend
        have htf : t.fail = none := by_contra fun h => hend (.inr h)
        exact ih htf htp (stepKeepsWalkerOk s t hok hstep) (by omega)

/-- Settles O36: no walk has more than `count + 3` steps left. -/
theorem everyWalkEnds : Obligations.EveryWalkEnds := fun s hs hp hok =>
  walk_ends hs hp hok s.walker.stepsLeft_le

end Sys2Proof.Machine

namespace Sys2Proof.Machine

open Sys2Proof.Config (defaults)

/-! ## A render target inside bank 1 (R88, R90, R301) -/

/-- A render target that is aligned and ends inside bank 1. -/
structure RenderTarget (rb : Nat) : Prop where
  aligned : rb % 4 = 0
  inside : rb + 12 * 131072 ≤ Config.size1

theorem pixelCell_lt (y x : Nat) : pixelCell y x < 131072 := by
  unfold pixelCell
  omega

theorem RenderTarget.checkAccess_color {rb : Nat} (h : RenderTarget rb) (y x : Nat) :
    checkAccess defaults .bank1 (colorAddr rb y x) 4 = .ok () := by
  obtain ⟨haligned, hinside⟩ := h
  have hcell := pixelCell_lt y x
  have haddr : colorAddr rb y x % 4 = 0 ∧ colorAddr rb y x + 4 ≤ Config.size1 := by
    unfold colorAddr
    omega
  exact checkAccess_ok.mpr ⟨by exact_mod_cast haddr.1, Int.natCast_nonneg _, by exact_mod_cast haddr.2⟩

theorem RenderTarget.checkAccess_depth {rb : Nat} (h : RenderTarget rb) (y x : Nat) :
    checkAccess defaults .bank1 (depthAddr rb y x) 2 = .ok () := by
  obtain ⟨haligned, hinside⟩ := h
  have hcell := pixelCell_lt y x
  refine Machine.checkAccess_depth (by omega) ?_
  unfold depthAddr
  omega

/-- The contents of bank 1 after one pixel: as before, or with a colour word and a depth written (R301). -/
def storePixel (m : Memory) (rb y x : Nat) : Option (Word × Nat) → Memory
  | none => m
  | some (w, d) => (m.writeLE (colorAddr rb y x) w.toNat 4).writeLE (depthAddr rb y x) d 2

/-- What pixel (`y`, `x`) holds: a colour word and a depth, or what it held in `m₀`. -/
def PixelHolds (o : Option (Word × Nat)) (rb : Nat) (m₀ m : Memory) (y x : Nat) : Prop :=
  match o with
  | none =>
    readPix defaults m rb y x = readPix defaults m₀ rb y x ∧ readDepth defaults m rb y x = readDepth defaults m₀ rb y x
  | some (w, d) => readPix defaults m rb y x = .ok w.toNat ∧ readDepth defaults m rb y x = .ok d

theorem PixelHolds.refl (rb : Nat) (m : Memory) (y x : Nat) : PixelHolds none rb m m y x := ⟨rfl, rfl⟩

/-- A pixel that still holds what it held, then holds what is stored there. -/
theorem PixelHolds.store_same {rb : Nat} (h : RenderTarget rb) {m₀ m : Memory} {y x : Nat}
    (hm : PixelHolds none rb m₀ m y x) {o : Option (Word × Nat)}
    (hdepth : ∀ w d, o = some (w, d) → d ≤ Config.maxDepth) : PixelHolds o rb m₀ (storePixel m rb y x o) y x := by
  cases o with
  | none => exact hm
  | some wd =>
    obtain ⟨w, d⟩ := wd
    have hd : d < 256 ^ 2 := (hdepth w d rfl).trans_lt (by decide)
    have hw : w.toNat < 256 ^ 4 := w.isLt
    refine ⟨(memRead_ok (h.checkAccess_color y x)).trans (congrArg _ ?color),
      (memRead_ok (h.checkAccess_depth y x)).trans (congrArg _ ?depth)⟩
    case color =>
      exact (Memory.readLE_writeLE_outside _ _ _ _ _ _ _ (colorAddr_disjoint_depthAddr rb y x y x)).trans
        ((Memory.readLE_writeLE _ _ _ _ _).trans (Nat.mod_eq_of_lt hw))
    case depth => exact (Memory.readLE_writeLE _ _ _ _ _).trans (Nat.mod_eq_of_lt hd)

/-- What is read depends on the bytes read alone. -/
theorem memRead_congr {cfg : Cfg} {b : Bank} {m m' : Memory} {a n : Nat} (h : m.readLE b a n = m'.readLE b a n) :
    memRead cfg b m a n = memRead cfg b m' a n := by
  simp [memRead, h]

/-- A pixel of another place keeps what it holds. -/
theorem PixelHolds.store_apart {rb : Nat} {m₀ m : Memory} {y x y' x' : Nat} {o : Option (Word × Nat)}
    (hm : PixelHolds o rb m₀ m y' x') (hplace : ¬ (pixelCell y' x' = pixelCell y x ∧ x' % 2 = x % 2))
    (o' : Option (Word × Nat)) : PixelHolds o rb m₀ (storePixel m rb y x o') y' x' := by
  cases o' with
  | none => exact hm
  | some wd =>
    have hcolor : readPix defaults (storePixel m rb y x (some wd)) rb y' x' = readPix defaults m rb y' x' :=
      memRead_congr ((Memory.readLE_writeLE_outside _ _ _ _ _ _ _ (colorAddr_disjoint_depthAddr rb y' x' y x)).trans
        (Memory.readLE_writeLE_outside _ _ _ _ _ _ _ (colorAddr_disjoint rb hplace)))
    have hdepth : readDepth defaults (storePixel m rb y x (some wd)) rb y' x' = readDepth defaults m rb y' x' :=
      memRead_congr ((Memory.readLE_writeLE_outside _ _ _ _ _ _ _ (depthAddr_disjoint rb hplace)).trans
        (Memory.readLE_writeLE_outside _ _ _ _ _ _ _ (colorAddr_disjoint_depthAddr rb y x y' x').symm))
    unfold PixelHolds at hm ⊢
    rwa [hcolor, hdepth]

/-! ## One pixel (R295 to R301) -/

theorem fixedPoint_depth_le {cfg : Cfg} {p : Sample} {c : Texcoord} (h : fixedPoint cfg p = .ok (some c)) :
    c.depth ≤ cfg.maxDepth := by
  obtain ⟨d, _, h⟩ := access_bind_ok.mp h
  split at h
  · cases access_pure_ok.mp h
  · obtain ⟨u, _, h⟩ := access_bind_ok.mp h
    obtain ⟨v, _, h⟩ := access_bind_ok.mp h
    split at h
    · cases h
    · cases access_pure_ok.mp h
      exact min_le_right _ _

/-- A pixel that is written gets the depth of its sample, which `MAX_DEPTH` bounds (R295, R301). -/
theorem shadePixel_depth_le {cfg : Cfg} {e : Extra} {y x : Nat} {p : Sample} {s : State} {w : Word} {d : Nat}
    (h : shadePixel cfg e y x p s = .ok (some (w, d))) : d ≤ cfg.maxDepth := by
  obtain ⟨c, hc, h⟩ := access_bind_ok.mp h
  cases c with
  | none => cases access_pure_ok.mp h
  | some c =>
    obtain ⟨stored, _, h⟩ := access_bind_ok.mp h
    split at h
    · cases access_pure_ok.mp h
    · obtain ⟨o, _, h⟩ := access_bind_ok.mp h
      obtain ⟨w', _, hw⟩ := Option.map_eq_some_iff.mp (access_pure_ok.mp h)
      cases hw
      exact fixedPoint_depth_le hc

/-- The shading of a pixel reads bank 0 and the pixel's own depth (R295 to R300). -/
theorem shadePixel_congr {cfg : Cfg} {s t : State} {y x : Nat} (h0 : t.wave0 = s.wave0)
    (hdepth : readDepth cfg t.wave1 t.renderbase y x = readDepth cfg s.wave1 s.renderbase y x) (e : Extra) (p : Sample) :
    shadePixel cfg e y x p t = shadePixel cfg e y x p s := by
  unfold shadePixel
  rw [h0, hdepth]

/-- What a sample needs is there: it is rejected by its depth, or its texels can be read. -/
theorem sampleReady_cases {m : Memory} {e : Extra} {p : Sample} (h : sampleReady m e p = true) :
    fixedPoint defaults p = .ok none
    ∨ ∃ c o, fixedPoint defaults p = .ok (some c) ∧ shadeColor defaults m e c = .ok o := by
  unfold sampleReady at h
  split at h
  · cases h
  · next hc => exact .inl hc
  · next c hc =>
    split at h
    · cases h
    · next o ho => exact .inr ⟨c, o, hc, ho⟩

/-- A sample that is ready is shaded, on a render target inside bank 1. -/
theorem shadePixel_ready {s : State} (htarget : RenderTarget s.renderbase) {e : Extra} {p : Sample}
    (h : sampleReady s.wave0 e p = true) (y x : Nat) : ∃ o, shadePixel defaults e y x p s = .ok o := by
  rcases sampleReady_cases h with hnone | ⟨c, o, hc, ho⟩
  · exact ⟨none, access_bind_ok.mpr ⟨none, hnone, rfl⟩⟩
  · have hstored : readDepth defaults s.wave1 s.renderbase y x
        = .ok (s.wave1.readLE .bank1 (depthAddr s.renderbase y x) 2) := memRead_ok (htarget.checkAccess_depth y x)
    by_cases hfar : s.wave1.readLE .bank1 (depthAddr s.renderbase y x) 2 < c.depth
    · exact ⟨none, access_bind_ok.mpr ⟨_, hc, access_bind_ok.mpr ⟨_, hstored, if_pos hfar⟩⟩⟩
    · exact ⟨_, access_bind_ok.mpr ⟨_, hc, access_bind_ok.mpr ⟨_, hstored,
        (if_neg hfar).trans (access_bind_ok.mpr ⟨_, ho, rfl⟩)⟩⟩⟩

/-- A pixel that is shaded is drawn, on a render target inside bank 1 (R301). -/
theorem drawPixel_shaded {s : State} (hs : s.fail = none) (htarget : RenderTarget s.renderbase) {e : Extra} {y x : Nat}
    {p : Sample} {o : Option (Word × Nat)} (h : shadePixel defaults e y x p s = .ok o) :
    drawPixel defaults e y x p s = .next (s.setWave1 (storePixel s.wave1 s.renderbase y x o)) := by
  rw [drawPixel, h]
  cases o with
  | none => rfl
  | some wd =>
    obtain ⟨w, d⟩ := wd
    have hcolor : writePix defaults s.renderbase y x w s
        = .next (s.setWave1 (s.wave1.writeLE (colorAddr s.renderbase y x) w.toNat 4)) :=
      memWrite_ok (htarget.checkAccess_color y x)
    simp only [putPixel, hcolor]
    rw [andThen_running (by exact hs)]
    exact memWrite_ok (htarget.checkAccess_depth y x)

/-! ## The pixels a polygon covers (R291 to R294) -/

/-- The pixel (`y`, `x`) lies in the rectangle. -/
structure InRect (c : Rect) (y x : Nat) : Prop where
  minY : c.minY ≤ y
  maxY : y ≤ c.maxY
  minX : c.minX ≤ x
  maxX : x ≤ c.maxX

/-- The index lies in the range whose first and whose length are given. -/
def InRange (r : Nat × Nat) (i : Nat) : Prop := r.1 ≤ i ∧ i < r.1 + r.2

theorem cover_bounds {lo hi : Rat} {cmin cmax i : Nat} (h : InRange (cover lo hi cmin cmax) i) :
    cmin ≤ i ∧ i ≤ cmax := by
  simp only [InRange, cover] at h
  omega

theorem polygonRows_bounds {sv : List ScreenVertex} {clip : Rect} {y : Nat} (h : InRange (polygonRows sv clip) y) :
    clip.minY ≤ y ∧ y ≤ clip.maxY := by
  cases sv with
  | nil => exact absurd h.2 (not_lt.mpr (Nat.zero_le _))
  | cons a rest => exact cover_bounds h

section
variable {sv : List ScreenVertex} {clip : Rect} {y x : Nat}

theorem coveredSample_outside_rows (h : ¬ InRange (polygonRows sv clip) y) (x : Nat) : coveredSample sv clip y x = none :=
  if_neg h

theorem coveredSample_empty_row (h : rowSpan defaults sv y = .ok none) (x : Nat) : coveredSample sv clip y x = none := by
  simp [coveredSample, h]

variable {l r : ScreenVertex}

theorem coveredSample_outside_span (h : rowSpan defaults sv y = .ok (some (l, r)))
    (hx : ¬ InRange (cover l.sx r.sx clip.minX clip.maxX) x) : coveredSample sv clip y x = none := by
  rw [InRange] at hx
  simp only [coveredSample, h, if_neg hx, ite_self]

theorem coveredSample_of_sample (hy : InRange (polygonRows sv clip) y) (h : rowSpan defaults sv y = .ok (some (l, r)))
    (hx : InRange (cover l.sx r.sx clip.minX clip.maxX) x) {p : Sample} (hp : sampleSpan defaults l r x = .ok p) :
    coveredSample sv clip y x = some p := by
  simp only [coveredSample, h]
  exact (if_pos hy).trans ((if_pos hx).trans (congrArg Except.toOption hp))

/-- A pixel that is not covered is not written. -/
theorem pixelWrite_uncovered (h : coveredSample sv clip y x = none) (e : Extra) (s : State) :
    pixelWrite sv clip e y x s = none := by
  simp [pixelWrite, h]

/-- A covered pixel is written as it is shaded. -/
theorem pixelWrite_covered {p : Sample} (hp : coveredSample sv clip y x = some p) {e : Extra} {s : State}
    {o : Option (Word × Nat)} (h : shadePixel defaults e y x p s = .ok o) : pixelWrite sv clip e y x s = o := by
  simp [pixelWrite, hp, h]

/-- What is written depends on the banks and the render pointer alone. -/
theorem pixelWrite_congr {s t : State} (h0 : t.wave0 = s.wave0) (h1 : t.wave1 = s.wave1)
    (hrb : t.renderbase = s.renderbase) (e : Extra) : pixelWrite sv clip e y x t = pixelWrite sv clip e y x s := by
  simp only [pixelWrite, shadePixel_congr h0 (by rw [h1, hrb])]

end

/-! ## Drawing a polygon, pixel by pixel -/

section
variable {sv : List ScreenVertex} {clip : Rect} {e : Extra} {s t : State}

/-- `t` is `s` with the pixels `D` drawn. Where the clip rectangle does not wrap around the frame (R88), each pixel of `D`
holds what the polygon writes there, by its shading on `s`, and each other pixel what it held. -/
structure Drawn (sv : List ScreenVertex) (clip : Rect) (e : Extra) (s : State) (D : Nat → Nat → Prop) (t : State) :
    Prop where
  frame : t = s.setWave1 t.wave1
  done : clip.maxX < 512 → clip.maxY < 512 → ∀ y x, InRect clip y x → D y x →
    PixelHolds (pixelWrite sv clip e y x s) s.renderbase s.wave1 t.wave1 y x
  waiting : clip.maxX < 512 → clip.maxY < 512 → ∀ y x, InRect clip y x → ¬ D y x →
    PixelHolds none s.renderbase s.wave1 t.wave1 y x

variable {D E : Nat → Nat → Prop}

theorem Drawn.nothing (sv : List ScreenVertex) (clip : Rect) (e : Extra) (s : State) :
    Drawn sv clip e s (fun _ _ => False) s :=
  ⟨rfl, fun _ _ _ _ _ h => h.elim, fun _ _ y x _ _ => .refl _ _ y x⟩

/-- Passing over pixels that the polygon does not write. -/
theorem Drawn.pass (h : Drawn sv clip e s D t) (hDE : ∀ y x, D y x → E y x)
    (hE : ∀ y x, E y x → ¬ D y x → pixelWrite sv clip e y x s = none) : Drawn sv clip e s E t := by
  refine ⟨h.frame, fun hX hY y x hin hEyx => ?_, fun hX hY y x hin hnot =>
    h.waiting hX hY y x hin fun hD => hnot (hDE y x hD)⟩
  by_cases hD : D y x
  · exact h.done hX hY y x hin hD
  · rw [hE y x hEyx hD]
    exact h.waiting hX hY y x hin hD

theorem Drawn.wave0 (h : Drawn sv clip e s D t) : t.wave0 = s.wave0 := congrArg (·.wave0) h.frame

theorem Drawn.renderbase (h : Drawn sv clip e s D t) : t.renderbase = s.renderbase := congrArg (·.renderbase) h.frame

/-- In a rectangle that does not wrap, another pixel has another place (R88). -/
theorem InRect.apart {y x y' x' : Nat} (h : InRect clip y x) (h' : InRect clip y' x') (hX : clip.maxX < 512)
    (hY : clip.maxY < 512) (hne : ¬ (y' = y ∧ x' = x)) : ¬ (pixelCell y' x' = pixelCell y x ∧ x' % 2 = x % 2) :=
  fun ⟨hcell, hparity⟩ => hne (Prod.mk.inj (pixel_eq_of_pixelCell_eq (h'.maxY.trans_lt hY) (h'.maxX.trans_lt hX)
    (h.maxY.trans_lt hY) (h.maxX.trans_lt hX) hcell hparity))

/-- Drawing one more pixel: its depth is still the one `s` has there, so it is shaded as on `s`. -/
theorem Drawn.drawPixel (h : Drawn sv clip e s D t) (ht : t.fail = none) (htarget : RenderTarget s.renderbase) {y x : Nat}
    (hin : InRect clip y x) (hnew : ¬ D y x) {p : Sample} (hp : coveredSample sv clip y x = some p)
    (hready : sampleReady s.wave0 e p = true) (hE : ∀ y' x', E y' x' ↔ D y' x' ∨ (y' = y ∧ x' = x)) :
    ∃ u, Machine.drawPixel defaults e y x p t = .next u ∧ u.fail = none ∧ Drawn sv clip e s E u := by
  have htarget' : RenderTarget t.renderbase := h.renderbase ▸ htarget
  obtain ⟨o, ho⟩ := shadePixel_ready htarget' (h.wave0 ▸ hready) y x
  refine ⟨_, drawPixel_shaded ht htarget' ho, ht, ?frame, fun hX hY y' x' hin' hE' => ?done,
    fun hX hY y' x' hin' hE' => ?waiting⟩
  case frame => exact congrArg (·.setWave1 (storePixel t.wave1 t.renderbase y x o)) h.frame
  case done =>
    rw [State.setWave1_wave1, h.renderbase]
    by_cases hsame : y' = y ∧ x' = x
    · obtain ⟨rfl, rfl⟩ := hsame
      have hold := h.waiting hX hY y' x' hin hnew
      have hwrite : pixelWrite sv clip e y' x' s = o :=
        pixelWrite_covered hp ((shadePixel_congr h.wave0 (h.renderbase ▸ hold.2) e p).symm.trans ho)
      rw [hwrite]
      exact hold.store_same htarget fun w d hwd => shadePixel_depth_le (hwd ▸ ho)
    · have hD : D y' x' := ((hE y' x').mp hE').resolve_right hsame
      exact (h.done hX hY y' x' hin' hD).store_apart (hin.apart hin' hX hY hsame) o
  case waiting =>
    rw [State.setWave1_wave1, h.renderbase]
    obtain ⟨hD, hne⟩ := not_or.mp (mt (hE y' x').mpr hE')
    exact (h.waiting hX hY y' x' hin' hD).store_apart (hin.apart hin' hX hY hne) o

/-- What a row needs is there: it is empty, or each of its columns is sampled and can be shaded. -/
theorem rowReady_cases {m : Memory} {y : Nat} (h : rowReady sv clip m e y = true) :
    rowSpan defaults sv y = .ok none
    ∨ ∃ l r, rowSpan defaults sv y = .ok (some (l, r)) ∧ ∀ x, InRange (cover l.sx r.sx clip.minX clip.maxX) x →
        ∃ p, sampleSpan defaults l r x = .ok p ∧ sampleReady m e p = true := by
  unfold rowReady at h
  split at h
  · cases h
  · next hrow => exact .inl hrow
  · next l r hrow =>
    refine .inr ⟨l, r, hrow, fun x hx => ?_⟩
    have hcolumn := List.all_eq_true.mp h x (List.mem_range'_1.mpr hx)
    split at hcolumn
    · cases hcolumn
    · next p hp => exact ⟨p, hp, hcolumn⟩

/-- One row of the polygon, from its first column to its last. -/
theorem drawRow_drawn (htarget : RenderTarget s.renderbase) {y : Nat} (hy : InRange (polygonRows sv clip) y)
    (hready : rowReady sv clip s.wave0 e y = true) (ht : t.fail = none) (h : Drawn sv clip e s (fun y' _ => y' < y) t) :
    ∃ u, drawRow defaults sv clip e y t = .next u ∧ u.fail = none ∧ Drawn sv clip e s (fun y' _ => y' < y + 1) u := by
  rcases rowReady_cases hready with hempty | ⟨l, r, hspan, hcolumns⟩
  · refine ⟨t, by rw [drawRow, hempty], ht, h.pass (fun _ _ => Nat.lt_succ_of_lt) fun y' x' hlt hnot => ?_⟩
    obtain rfl : y' = y := by omega
    exact pixelWrite_uncovered (coveredSample_empty_row hempty x') e s
  · have hunwritten : ∀ x, ¬ InRange (cover l.sx r.sx clip.minX clip.maxX) x → pixelWrite sv clip e y x s = none :=
      fun x hx => pixelWrite_uncovered (coveredSample_outside_span hspan hx) e s
    have hbefore : Drawn sv clip e s
        (fun y' x' => y' < y ∨ y' = y ∧ x' < (cover l.sx r.sx clip.minX clip.maxX).1) t := by
      refine h.pass (fun _ _ => .inl) fun y' x' hlt hnot => ?_
      obtain ⟨rfl, hx⟩ := hlt.resolve_left hnot
      exact hunwritten x' fun hin => absurd hin.1 (not_le.mpr hx)
    obtain ⟨u, hu, hfu, hdrawn⟩ := forRange_reaches (f := drawColumn defaults e l r y)
      (fun X => Drawn sv clip e s (fun y' x' => y' < y ∨ y' = y ∧ x' < X))
      (fun x a hlo hhi ha hDa => by
        obtain ⟨p, hp, hpready⟩ := hcolumns x ⟨hlo, hhi⟩
        have hcovered := coveredSample_of_sample hy hspan ⟨hlo, hhi⟩ hp
        obtain ⟨hminY, hmaxY⟩ := polygonRows_bounds hy
        obtain ⟨hminX, hmaxX⟩ := cover_bounds ⟨hlo, hhi⟩
        obtain ⟨b, hb, hfb, hDb⟩ := hDa.drawPixel ha htarget ⟨hminY, hmaxY, hminX, hmaxX⟩ (by omega) hcovered hpready
          (E := fun y' x' => y' < y ∨ y' = y ∧ x' < x + 1) (fun y' x' => by omega)
        exact ⟨b, by rw [drawColumn, hp]; exact hb, hfb, hDb⟩) ht hbefore
    refine ⟨u, by rw [drawRow, hspan]; exact hu, hfu, hdrawn.pass (fun y' x' => by omega) fun y' x' hlt hnot => ?_⟩
    obtain rfl : y' = y := by omega
    exact hunwritten x' fun hin => hnot (.inr ⟨rfl, hin.2⟩)

/-- The whole polygon, from its first row to its last: every pixel has been dealt with. -/
theorem scanConvert_drawn (hs : s.fail = none) (hclip : s.clip = some clip) (htarget : RenderTarget s.renderbase)
    (hready : ∀ y, InRange (polygonRows sv clip) y → rowReady sv clip s.wave0 e y = true) :
    ∃ t, scanConvert defaults sv e s = .next t ∧ Drawn sv clip e s (fun _ _ => True) t := by
  have hunwritten : ∀ y x, ¬ InRange (polygonRows sv clip) y → pixelWrite sv clip e y x s = none :=
    fun y x hy => pixelWrite_uncovered (coveredSample_outside_rows hy x) e s
  have hbefore : Drawn sv clip e s (fun y' _ => y' < (polygonRows sv clip).1) s :=
    (Drawn.nothing sv clip e s).pass (fun _ _ => False.elim) fun y x hlt _ =>
      hunwritten y x fun hin => absurd hin.1 (not_le.mpr hlt)
  obtain ⟨t, ht, _, hdrawn⟩ := forRange_reaches (f := drawRow defaults sv clip e)
    (fun Y => Drawn sv clip e s (fun y' _ => y' < Y))
    (fun y a hlo hhi ha hDa => drawRow_drawn htarget ⟨hlo, hhi⟩ (hready y ⟨hlo, hhi⟩) ha hDa) hs hbefore
  refine ⟨t, by rw [scanConvert, hclip]; exact ht, hdrawn.pass (fun _ _ _ => trivial) fun y x _ hnot => ?_⟩
  exact hunwritten y x fun hin => hnot hin.2

end

/-! ## A ready quad -/

/-- What `quadReady` asks for (R382, R390). -/
theorem quadReady_elim {v0 v1 v2 v3 : QVertex} {s : State} (h : quadReady v0 v1 v2 v3 s = true) :
    s.debugToggle = false ∧ RenderTarget s.renderbase
    ∧ ∃ sv clip, quadPolygon defaults s.matrix s.point s.zbase s.walker.texoffs v0 v1 v2 v3 = .ok (some sv)
      ∧ s.clip = some clip ∧ ∀ y, InRange (polygonRows sv clip) y →
        rowReady sv clip s.wave0 (capture defaults (classifyWidth defaults s.walker.texoffs s).1
          (classifyWidth defaults s.walker.texoffs s).2) y = true := by
  simp only [quadReady, Bool.and_eq_true, Bool.not_eq_true', decide_eq_true_eq] at h
  obtain ⟨⟨⟨htoggle, haligned⟩, hinside⟩, hrows⟩ := h
  refine ⟨htoggle, ⟨haligned, hinside⟩, ?_⟩
  split at hrows
  · next sv clip hpoly hclip =>
    exact ⟨sv, clip, hpoly, hclip, fun y hy => List.all_eq_true.mp hrows y (List.mem_range'_1.mpr hy)⟩
  · cases hrows

/-- Classifying a texture changes neither bank, nor the render pointer (R289). -/
theorem classifyWidth_target {cfg : Cfg} (texoffs : Word) (s : State) :
    (classifyWidth cfg texoffs s).2.wave0 = s.wave0 ∧ (classifyWidth cfg texoffs s).2.wave1 = s.wave1
    ∧ (classifyWidth cfg texoffs s).2.renderbase = s.renderbase := by
  rcases classifyWidth_snd (cfg := cfg) texoffs s with ⟨w, hw⟩ | ⟨cs, os, n, hw⟩ <;> rw [hw] <;> exact ⟨rfl, rfl, rfl⟩

/-- A quad that is not discarded is scan converted on the state with its texture class recorded (R280). -/
theorem exec_dQuad_polygon {s : State} {v0 v1 v2 v3 : QVertex} {sv : List ScreenVertex} (htoggle : s.debugToggle = false)
    (hpoly : quadPolygon defaults s.matrix s.point s.zbase s.walker.texoffs v0 v1 v2 v3 = .ok (some sv))
    (framing : Framing) :
    exec (.dQuad framing v0 v1 v2 v3) s
      = scanConvert defaults sv (capture defaults (classifyWidth defaults s.walker.texoffs s).1
          (classifyWidth defaults s.walker.texoffs s).2) (classifyWidth defaults s.walker.texoffs s).2 := by
  simp [exec, execDQuad, quadDraw, htoggle, hpoly]

/-- Settles O40: the polygon is drawn pixel by pixel, each once, and no pixel's shading depends on another pixel. -/
theorem readyQuadIsDrawn : Obligations.ReadyQuadIsDrawn := by
  intro s framing v0 v1 v2 v3 hs hready wt
  obtain ⟨htoggle, htarget, sv, clip, hpoly, hclip, hrows⟩ := quadReady_elim hready
  obtain ⟨h0, h1, hrb⟩ := classifyWidth_target (cfg := defaults) s.walker.texoffs s
  obtain ⟨t, ht, hdrawn⟩ := scanConvert_drawn (sv := sv) (clip := clip) (e := capture defaults wt.1 wt.2) (s := wt.2)
    ((classifyWidth_fail _ s).trans hs) ((classifyWidth_clip _ s).trans hclip) (hrb ▸ htarget) (by rw [h0]; exact hrows)
  refine ⟨t.wave1, ?_, fun sv' clip' hpoly' hclip' hX hY y x hminY hmaxY hminX hmaxX => ?_⟩
  · rw [exec_dQuad_polygon htoggle hpoly, ht]
    exact congrArg _ hdrawn.frame
  · cases hpoly.symm.trans hpoly'
    cases hclip.symm.trans hclip'
    have hpixel := hdrawn.done hX hY y x ⟨hminY, hmaxY, hminX, hmaxX⟩ trivial
    rw [pixelWrite_congr h0 h1 hrb, h1, hrb] at hpixel
    exact hpixel

end Sys2Proof.Machine

namespace Sys2Proof.Machine

open Sys2Proof.Config (defaults)

section
variable {cfg : Cfg}

/-! ## The rasterizer's arithmetic, one rounding after each operation (R9) -/

theorem fadd_ok {a b r : Rat} : fadd cfg a b = .ok r ↔ cfg.fl (a + b) = .fin r := finite_ok

theorem fsub_ok {a b r : Rat} : fsub cfg a b = .ok r ↔ cfg.fl (a - b) = .fin r := finite_ok

theorem fmul_ok {a b r : Rat} : fmul cfg a b = .ok r ↔ cfg.fl (a * b) = .fin r := finite_ok

/-! ## The camera vertex (R281 to R284) -/

/-- A finite row of the transform times the coordinates, plus the component of the point (R283). -/
theorem transformRow_ok {x y z m0 m1 m2 c r : Rat} :
    transformRow cfg x y z (.fin m0) (.fin m1) (.fin m2) (.fin c) = .ok r ↔
      ∃ a b ab d abd, cfg.fl (x * m0) = .fin a ∧ cfg.fl (y * m1) = .fin b ∧ cfg.fl (a + b) = .fin ab
        ∧ cfg.fl (z * m2) = .fin d ∧ cfg.fl (ab + d) = .fin abd ∧ cfg.fl (abd + c) = .fin r := by
  simp only [transformRow, access_bind_ok, finite_ok, fadd_ok, fmul_ok, F.fin.injEq, exists_eq_left', exists_and_left]

/-- The camera vertex of a finite transform (R283, R284), by its components. -/
theorem camVertex_ok {m : Mat3 F} {p : Vec3 F} {zbase : Rat} {texoffs : Word} {q : QVertex} {v : CamVertex} :
    camVertex cfg m p (.fin zbase) texoffs q = .ok v ↔
      transformRow cfg q.x.toInt q.y.toInt q.z.toInt m.m00 m.m01 m.m02 p.c0 = .ok v.x
      ∧ transformRow cfg q.x.toInt q.y.toInt q.z.toInt m.m10 m.m11 m.m12 p.c1 = .ok v.y
      ∧ (∃ z, transformRow cfg q.x.toInt q.y.toInt q.z.toInt m.m20 m.m21 m.m22 p.c2 = .ok z
          ∧ cfg.fl (z + zbase) = .fin v.z)
      ∧ v.u = q.u.toNat ∧ cfg.fl (q.v.toNat + (pageSelector texoffs).toNat) = .fin v.v := by
  simp only [camVertex, s16, u8, Rat.mkRat_one, Int.cast_natCast, access_bind_ok, access_pure_ok, finite_ok, fadd_ok,
    F.fin.injEq, exists_eq_left']
  constructor
  · rintro ⟨x, hx, y, hy, z, hz, bz, hbz, w, hw, rfl⟩
    exact ⟨hx, hy, ⟨z, hz, hbz⟩, rfl, hw⟩
  · rintro ⟨hx, hy, ⟨z, hz, hbz⟩, hu, hw⟩
    exact ⟨_, hx, _, hy, z, hz, _, hbz, _, hw, by rw [← hu]⟩

/-! ## The near clip (R285, R286) -/

/-- The crossing of an edge with the near plane (R285). -/
theorem nearCrossing_ok {a b c : CamVertex} :
    nearCrossing cfg a b = .ok c ↔
      ∃ n d t, cfg.fl (cfg.nearEps - a.z) = .fin n ∧ cfg.fl (b.z - a.z) = .fin d ∧ d ≠ 0 ∧ cfg.fl (n / d) = .fin t
        ∧ lerp cfg a.x b.x t = .ok c.x ∧ lerp cfg a.y b.y t = .ok c.y ∧ lerp cfg a.z b.z t = .ok c.z
        ∧ lerp cfg a.u b.u t = .ok c.u ∧ lerp cfg a.v b.v t = .ok c.v := by
  simp only [nearCrossing, access_bind_ok, access_pure_ok, fsub_ok, fdiv_ok]
  constructor
  · rintro ⟨n, hn, d, hd, t, ⟨hd0, ht⟩, x, hx, y, hy, z, hz, u, hu, v, hv, rfl⟩
    exact ⟨n, d, t, hn, hd, hd0, ht, hx, hy, hz, hu, hv⟩
  · rintro ⟨n, d, t, hn, hd, hd0, ht, hx, hy, hz, hu, hv⟩
    exact ⟨n, hn, d, hd, t, ⟨hd0, ht⟩, _, hx, _, hy, _, hz, _, hu, _, hv, rfl⟩

/-- What an edge from `a` to `b` gives where its crossing, if it has one, is `x`: the crossing, then its end if that is
inside. -/
def edgeOutput (cfg : Cfg) (a b x : CamVertex) : List CamVertex :=
  (if outside cfg a = outside cfg b then [] else [x]) ++ (if outside cfg b then [] else [b])

/-- How many vertices an edge gives, by whether its first end and its second are outside. -/
def edgeCount (o o' : Bool) : Nat := (if o = o' then 0 else 1) + (if o' then 0 else 1)

theorem length_edgeOutput (a b x : CamVertex) :
    (edgeOutput cfg a b x).length = edgeCount (outside cfg a) (outside cfg b) := by
  simp only [edgeOutput, edgeCount, List.length_append, apply_ite List.length, List.length_nil, List.length_singleton]

theorem edgeOutput_inside {a b : CamVertex} (ha : outside cfg a = false) (hb : outside cfg b = false) (x : CamVertex) :
    edgeOutput cfg a b x = [b] := by
  simp [edgeOutput, ha, hb]

theorem clipEdge_ok {a b : CamVertex} {l : List CamVertex} :
    clipEdge cfg a b = .ok l ↔
      ∃ x, l = edgeOutput cfg a b x ∧ (outside cfg a ≠ outside cfg b → nearCrossing cfg a b = .ok x) := by
  unfold clipEdge edgeOutput
  by_cases h : outside cfg a = outside cfg b
  · simp only [h, bne_self_eq_false, Bool.false_eq_true, if_false, if_true, List.nil_append, access_pure_ok]
    exact ⟨fun hl => ⟨a, hl.symm, fun hne => absurd rfl hne⟩, fun ⟨_, hl, _⟩ => hl.symm⟩
  · simp only [bne_iff_ne.mpr h, if_true, access_bind_ok, access_pure_ok, ne_eq, h, not_false_eq_true,
      true_imp_iff, if_false]
    refine exists_congr fun x => ?_
    rw [and_comm, eq_comm]
    cases outside cfg b <;> rfl

theorem clipNear_ok {a b c d : CamVertex} {cv : List CamVertex} :
    clipNear cfg a b c d = .ok cv ↔
      ∃ x0 x1 x2 x3,
        cv = edgeOutput cfg d a x0 ++ edgeOutput cfg a b x1 ++ edgeOutput cfg b c x2 ++ edgeOutput cfg c d x3
        ∧ (outside cfg d ≠ outside cfg a → nearCrossing cfg d a = .ok x0)
        ∧ (outside cfg a ≠ outside cfg b → nearCrossing cfg a b = .ok x1)
        ∧ (outside cfg b ≠ outside cfg c → nearCrossing cfg b c = .ok x2)
        ∧ (outside cfg c ≠ outside cfg d → nearCrossing cfg c d = .ok x3) := by
  simp only [clipNear, access_bind_ok, access_pure_ok, clipEdge_ok]
  constructor
  · rintro ⟨_, ⟨x0, rfl, h0⟩, _, ⟨x1, rfl, h1⟩, _, ⟨x2, rfl, h2⟩, _, ⟨x3, rfl, h3⟩, rfl⟩
    exact ⟨x0, x1, x2, x3, rfl, h0, h1, h2, h3⟩
  · rintro ⟨x0, x1, x2, x3, rfl, h0, h1, h2, h3⟩
    exact ⟨_, ⟨x0, rfl, h0⟩, _, ⟨x1, rfl, h1⟩, _, ⟨x2, rfl, h2⟩, _, ⟨x3, rfl, h3⟩, rfl⟩

/-- How many vertices the near clip gives, by which of the four are outside. -/
theorem length_clipNear {a b c d : CamVertex} {cv : List CamVertex} (h : clipNear cfg a b c d = .ok cv) :
    cv.length = edgeCount (outside cfg d) (outside cfg a) + edgeCount (outside cfg a) (outside cfg b)
      + edgeCount (outside cfg b) (outside cfg c) + edgeCount (outside cfg c) (outside cfg d) := by
  obtain ⟨x0, x1, x2, x3, rfl, -⟩ := clipNear_ok.mp h
  simp only [List.length_append, length_edgeOutput]

/-- With no vertex outside, the clip gives the four as they are (R286). -/
theorem clipNear_inside {a b c d : CamVertex} {cv : List CamVertex} (ha : outside cfg a = false)
    (hb : outside cfg b = false) (hc : outside cfg c = false) (hd : outside cfg d = false)
    (h : clipNear cfg a b c d = .ok cv) : cv = [a, b, c, d] := by
  obtain ⟨x0, x1, x2, x3, rfl, -⟩ := clipNear_ok.mp h
  simp [edgeOutput_inside, ha, hb, hc, hd]

/-- With every vertex outside, nothing crosses and nothing is left (R286). -/
theorem clipNear_outside {a b c d : CamVertex} (ha : outside cfg a = true) (hb : outside cfg b = true)
    (hc : outside cfg c = true) (hd : outside cfg d = true) : clipNear cfg a b c d = .ok [] := by
  have hedge : ∀ {p q : CamVertex}, outside cfg p = true → outside cfg q = true → clipEdge cfg p q = .ok [] :=
    fun hp hq => by simp only [clipEdge, hp, hq, bne_self_eq_false, Bool.false_eq_true, if_false, if_true]; rfl
  simp only [clipNear, hedge hd ha, hedge ha hb, hedge hb hc, hedge hc hd]
  rfl

/-- Whether the vertex is inside, as the statements say it. -/
theorem inside_eq_not_outside (v : CamVertex) : decide (cfg.nearEps ≤ v.z) = !outside cfg v := by
  simp [outside, ← not_lt]

/-! ## The polygon of a quad (R280, R286) -/

section
variable {m : Mat3 F} {p : Vec3 F} {zbase : F} {texoffs : Word} {v0 v1 v2 v3 : QVertex} {cv : List CamVertex}

/-- The four vertices of a quad have camera vertices, and `cv` is their near clip. -/
def ClipsTo (cfg : Cfg) (m : Mat3 F) (p : Vec3 F) (zbase : F) (texoffs : Word) (v0 v1 v2 v3 : QVertex)
    (cv : List CamVertex) : Prop :=
  ∃ a b c d, camVertex cfg m p zbase texoffs v0 = .ok a ∧ camVertex cfg m p zbase texoffs v1 = .ok b
    ∧ camVertex cfg m p zbase texoffs v2 = .ok c ∧ camVertex cfg m p zbase texoffs v3 = .ok d
    ∧ clipNear cfg a b c d = .ok cv

/-- What becomes of the vertices the near clip gives (R286 to R288). -/
def screenPolygon (cfg : Cfg) (cv : List CamVertex) : Access (Option (List ScreenVertex)) :=
  if cv.length < 3 then pure none
  else if 5 < cv.length then .error (.refuse .sixVertexClip)
  else do
    let sv ← cv.mapM (project cfg)
    let sv ← nudge cfg sv
    pure (some sv)

/-- A clipped quad becomes what its clip becomes. -/
theorem ClipsTo.quadPolygon (h : ClipsTo cfg m p zbase texoffs v0 v1 v2 v3 cv) :
    quadPolygon cfg m p zbase texoffs v0 v1 v2 v3 = screenPolygon cfg cv := by
  obtain ⟨a, b, c, d, ha, hb, hc, hd, hcv⟩ := h
  simp only [Machine.quadPolygon, ha, hb, hc, hd]
  exact congrArg (· >>= screenPolygon cfg) hcv

/-- A quad has a polygon, or is discarded, exactly where its clip answers and has or is. -/
theorem quadPolygon_ok {o : Option (List ScreenVertex)} :
    quadPolygon cfg m p zbase texoffs v0 v1 v2 v3 = .ok o ↔
      ∃ cv, ClipsTo cfg m p zbase texoffs v0 v1 v2 v3 cv ∧ screenPolygon cfg cv = .ok o := by
  constructor
  · intro h
    simp only [quadPolygon, access_bind_ok] at h
    obtain ⟨a, ha, b, hb, c, hc, d, hd, cv, hcv, h⟩ := h
    exact ⟨cv, ⟨a, b, c, d, ha, hb, hc, hd, hcv⟩, h⟩
  · rintro ⟨cv, hcv, h⟩
    exact hcv.quadPolygon.trans h

theorem screenPolygon_few (h : cv.length < 3) : screenPolygon cfg cv = .ok none := if_pos h

theorem screenPolygon_many (h : 5 < cv.length) : screenPolygon cfg cv = .error (.refuse .sixVertexClip) :=
  (if_neg (by omega)).trans (if_pos h)

end
end

/-- A quad without a polygon is drawn by leaving the state as it is (R280, R286). -/
theorem exec_dQuad_discarded {s : State} {v0 v1 v2 v3 : QVertex} (htoggle : s.debugToggle = false)
    (hpoly : quadPolygon defaults s.matrix s.point s.zbase s.walker.texoffs v0 v1 v2 v3 = .ok none)
    (framing : Framing) : exec (.dQuad framing v0 v1 v2 v3) s = .next s := by
  simp [exec, execDQuad, quadDraw, htoggle, hpoly]

/-- A quad whose polygon is refused is refused (R286). -/
theorem exec_dQuad_refused {s : State} {v0 v1 v2 v3 : QVertex} {r : Refusal} (htoggle : s.debugToggle = false)
    (hpoly : quadPolygon defaults s.matrix s.point s.zbase s.walker.texoffs v0 v1 v2 v3 = .error (.refuse r))
    (framing : Framing) : exec (.dQuad framing v0 v1 v2 v3) s = .refused r := by
  simp [exec, execDQuad, quadDraw, htoggle, hpoly, stop]

/-- Settles O37: the rows of the transform give the camera vertex, and the clip of four vertices outside is empty. -/
theorem quadBehindNearPlaneIsDiscarded : Obligations.QuadBehindNearPlaneIsDiscarded := by
  refine ⟨fun cfg m p zbase texoffs q v => ?_, ?_⟩
  · simp only [camVertex_ok, Mat3.map, Vec3.map, transformRow_ok]
    rfl
  · intro s framing v0 v1 v2 v3 a b c d htoggle ha hb hc hd hza hzb hzc hzd
    have hclip : clipNear defaults a b c d = .ok [] :=
      clipNear_outside (decide_eq_true hza) (decide_eq_true hzb) (decide_eq_true hzc) (decide_eq_true hzd)
    have hclips : ClipsTo defaults s.matrix s.point s.zbase s.walker.texoffs v0 v1 v2 v3 [] :=
      ⟨a, b, c, d, ha, hb, hc, hd, hclip⟩
    exact exec_dQuad_discarded htoggle (hclips.quadPolygon.trans (screenPolygon_few (by decide))) framing

/-- Settles O38: the clip is the output of its four edges, and which of the four vertices are outside decides how many
come out. -/
theorem nearClipVertexCounts : Obligations.NearClipVertexCounts := by
  refine ⟨fun cfg a b c => ?crossing, fun cfg a b c d cv => clipNear_ok, fun cfg a b c d cv h => ?counts, ?six⟩
  case crossing => simp only [nearCrossing_ok, lerp_ok]
  case counts =>
    simp only [List.map_cons, List.map_nil, inside_eq_not_outside]
    refine ⟨fun hall => ?_, ?_⟩
    · have houtside : ∀ oa ob oc od : Bool, [!oa, !ob, !oc, !od].count true = 4 →
          oa = false ∧ ob = false ∧ oc = false ∧ od = false := by decide
      obtain ⟨ha, hb, hc, hd⟩ := houtside _ _ _ _ hall
      exact clipNear_inside ha hb hc hd h
    · rw [length_clipNear h]
      generalize outside cfg a = oa, outside cfg b = ob, outside cfg c = oc, outside cfg d = od
      revert oa ob oc od
      decide
  case six =>
    intro s framing v0 v1 v2 v3 a b c d cv htoggle ha hb hc hd hclip hsix
    have hclips : ClipsTo defaults s.matrix s.point s.zbase s.walker.texoffs v0 v1 v2 v3 cv :=
      ⟨a, b, c, d, ha, hb, hc, hd, hclip⟩
    exact exec_dQuad_refused htoggle (hclips.quadPolygon.trans (screenPolygon_many (by omega))) framing

end Sys2Proof.Machine

namespace Sys2Proof.Machine

section
variable {cfg : Cfg}

/-! ## The projection (R287) -/

theorem project_ok {a : CamVertex} (hz : 0 < a.z) {p : ScreenVertex} :
    project cfg a = .ok p ↔
      (∃ ooz mx my, cfg.fl (cfg.projK / a.z) = .fin ooz
        ∧ cfg.fl (a.x * ooz) = .fin mx ∧ cfg.fl (mx + cfg.centerX) = .fin p.sx
        ∧ cfg.fl (a.y * ooz) = .fin my ∧ cfg.fl (my + cfg.centerY) = .fin p.sy)
      ∧ p.z = a.z ∧ p.u = a.u ∧ p.v = a.v := by
  simp only [project, if_neg (not_le.mpr hz), access_bind_ok, access_pure_ok, fdiv_ok, fmul_ok, fadd_ok]
  constructor
  · rintro ⟨ooz, ⟨-, hooz⟩, mx, hmx, sx, hsx, my, hmy, sy, hsy, rfl⟩
    exact ⟨⟨ooz, mx, my, hooz, hmx, hsx, hmy, hsy⟩, rfl, rfl, rfl⟩
  · rintro ⟨⟨ooz, mx, my, hooz, hmx, hsx, hmy, hsy⟩, hpz, hpu, hpv⟩
    exact ⟨ooz, ⟨hz.ne', hooz⟩, mx, hmx, _, hsx, my, hmy, _, hsy, by rw [← hpz, ← hpu, ← hpv]⟩

theorem project_behind {a : CamVertex} (hz : a.z ≤ 0) : project cfg a = .error (.refuse .nonFiniteCoordinate) :=
  if_pos hz

/-! ## The greatest and the least of a list (R288, R292) -/

/-- A member of the list is the greatest exactly where no member exceeds it. -/
theorem eq_maxOf_iff {a c : Rat} {l : List Rat} (hc : c ∈ a :: l) : c = maxOf a l ↔ ∀ r ∈ a :: l, r ≤ c := by
  obtain ⟨hmem, hbound⟩ := List.max?_eq_some_iff.mp (List.max?_cons' (x := a) (xs := l))
  exact ⟨fun h => h ▸ hbound, fun h => le_antisymm (hbound c hc) (h _ hmem)⟩

/-- A member of the list is the least exactly where it exceeds no member. -/
theorem eq_minOf_iff {a c : Rat} {l : List Rat} (hc : c ∈ a :: l) : c = minOf a l ↔ ∀ r ∈ a :: l, c ≤ r := by
  obtain ⟨hmem, hbound⟩ := List.min?_eq_some_iff.mp (List.min?_cons' (x := a) (xs := l))
  exact ⟨fun h => h ▸ hbound, fun h => le_antisymm (h _ hmem) (hbound c hc)⟩

theorem map_eq_maxOf_iff {α : Type} (f : α → Rat) {a p : α} {l : List α} (hp : p ∈ a :: l) :
    f p = maxOf (f a) (l.map f) ↔ ∀ r ∈ a :: l, f r ≤ f p :=
  (eq_maxOf_iff (List.mem_map_of_mem (f := f) hp)).trans (List.forall_mem_map (l := a :: l))

theorem map_eq_minOf_iff {α : Type} (f : α → Rat) {a p : α} {l : List α} (hp : p ∈ a :: l) :
    f p = minOf (f a) (l.map f) ↔ ∀ r ∈ a :: l, f p ≤ f r :=
  (eq_minOf_iff (List.mem_map_of_mem (f := f) hp)).trans (List.forall_mem_map (l := a :: l))

/-! ## The nudge (R288) -/

theorem nudgeIf_ok {top c r : Rat} :
    nudgeIf cfg top c = .ok r ↔ if c = top then cfg.fl (c + cfg.nudge) = .fin r else r = c := by
  unfold nudgeIf
  split
  · exact fadd_ok
  · exact access_pure_ok.trans eq_comm

/-- Two relations that agree on the members of a list hold of the same lists entry by entry. -/
theorem forall₂_congr_of_mem {α β : Type} {R S : α → β → Prop} {l : List α} {o : List β}
    (h : ∀ a ∈ l, ∀ b, R a b ↔ S a b) : List.Forall₂ R l o ↔ List.Forall₂ S l o := by
  simp only [List.forall₂_iff_zip]
  exact and_congr_right fun _ => ⟨fun H a b hab => (h a (List.of_mem_zip hab).1 b).mp (H hab),
    fun H a b hab => (h a (List.of_mem_zip hab).1 b).mpr (H hab)⟩

/-- The nudge keeps the vertices in order and moves the coordinates that no vertex exceeds. -/
theorem nudge_ok {sv out : List ScreenVertex} :
    nudge cfg sv = .ok out ↔ List.Forall₂ (fun p q => q.z = p.z ∧ q.u = p.u ∧ q.v = p.v
      ∧ (if ∀ r ∈ sv, r.sx ≤ p.sx then cfg.fl (p.sx + cfg.nudge) = .fin q.sx else q.sx = p.sx)
      ∧ (if ∀ r ∈ sv, r.sy ≤ p.sy then cfg.fl (p.sy + cfg.nudge) = .fin q.sy else q.sy = p.sy)) sv out := by
  cases sv with
  | nil => exact access_pure_ok.trans (eq_comm.trans List.forall₂_nil_left_iff.symm)
  | cons a rest =>
    refine access_mapM_ok.trans (forall₂_congr_of_mem fun p hp q => ?_)
    simp only [access_bind_ok, access_pure_ok, nudgeIf_ok, map_eq_maxOf_iff ScreenVertex.sx hp,
      map_eq_maxOf_iff ScreenVertex.sy hp]
    constructor
    · rintro ⟨sx, hsx, sy, hsy, rfl⟩
      exact ⟨rfl, rfl, rfl, hsx, hsy⟩
    · rintro ⟨hz, hu, hv, hsx, hsy⟩
      exact ⟨q.sx, hsx, q.sy, hsy, by rw [← hz, ← hu, ← hv]⟩

/-! ## What becomes of a clipped quad (R280, R286) -/

theorem screenPolygon_some {cv : List CamVertex} {out : List ScreenVertex} :
    screenPolygon cfg cv = .ok (some out) ↔ ∃ sv, 3 ≤ cv.length ∧ cv.length ≤ 5
      ∧ List.Forall₂ (fun v w => project cfg v = .ok w) cv sv ∧ nudge cfg sv = .ok out := by
  by_cases hfew : cv.length < 3
  · rw [screenPolygon_few hfew]
    exact ⟨(nomatch ·), fun ⟨_, h, _⟩ => absurd hfew (by omega)⟩
  by_cases hmany : 5 < cv.length
  · rw [screenPolygon_many hmany]
    exact ⟨(nomatch ·), fun ⟨_, _, h, _⟩ => absurd hmany (by omega)⟩
  simp only [screenPolygon, hfew, hmany, if_false, access_bind_ok, access_pure_ok, access_mapM_ok, Option.some.injEq,
    exists_eq_right, not_lt.mp hfew, not_lt.mp hmany, true_and]

theorem screenPolygon_none {cv : List CamVertex} : screenPolygon cfg cv = .ok none ↔ cv.length < 3 := by
  refine ⟨fun h => not_le.mp fun hlen => ?_, screenPolygon_few⟩
  by_cases hmany : 5 < cv.length
  · cases (screenPolygon_many hmany).symm.trans h
  · simp only [screenPolygon, not_lt.mpr hlen, hmany, if_false, access_bind_ok, access_pure_ok, reduceCtorEq,
      and_false, exists_false] at h

end

/-- Settles O39: the greatest coordinate is the one that no vertex exceeds, and a polygon is what becomes of the clip. -/
theorem nudgeMovesOnlyMaxima : Obligations.NudgeMovesOnlyMaxima := by
  refine ⟨fun cfg a => ⟨fun hz p => project_ok hz, project_behind⟩, fun cfg sv out => nudge_ok, ?polygon⟩
  case polygon =>
    intro cfg m p zbase texoffs v0 v1 v2 v3
    refine ⟨quadPolygon_ok.trans (by simp only [screenPolygon_none]; rfl), fun out => quadPolygon_ok.trans ?_,
      fun cv hclips hmany => ClipsTo.quadPolygon hclips |>.trans (screenPolygon_many hmany)⟩
    simp only [screenPolygon_some]
    exact ⟨fun ⟨cv, hclips, sv, hsv⟩ => ⟨cv, sv, hclips, hsv⟩, fun ⟨cv, sv, hclips, hsv⟩ => ⟨cv, hclips, sv, hsv⟩⟩

end Sys2Proof.Machine

namespace Sys2Proof.Machine

open Sys2Proof.Config (defaults)

/-! ## The bytes of bank 1 that a quad leaves as they are (R90, R280, R301) -/

/-- The byte at `addr` is no colour and no depth byte of the pixel (`y`, `x`). -/
def PixelApart (rb y x addr : Nat) : Prop :=
  (addr < colorAddr rb y x ∨ colorAddr rb y x + 4 ≤ addr) ∧ (addr < depthAddr rb y x ∨ depthAddr rb y x + 2 ≤ addr)

/-- From a state whose render pointer is `rb` to another one, with the byte at `addr` of bank 1 as before. -/
def KeepsByte (rb addr : Nat) (s t : State) : Prop :=
  s.renderbase = rb → t.renderbase = rb ∧ t.wave1.byteAt .bank1 addr = s.wave1.byteAt .bank1 addr

section
variable {cfg : Cfg} {rb addr : Nat}

theorem KeepsByte.refl (s : State) : KeepsByte rb addr s s := fun h => ⟨h, rfl⟩

theorem KeepsByte.trans {s t u : State} (h : KeepsByte rb addr s t) (k : KeepsByte rb addr t u) :
    KeepsByte rb addr s u := fun hs =>
  have ⟨ht, hbyte⟩ := h hs
  have ⟨hu, hbyte'⟩ := k ht
  ⟨hu, hbyte'.trans hbyte⟩

theorem KeepsByte.setFail (s : State) (f : Fault) : KeepsByte rb addr s (s.setFail f) := fun h => ⟨h, rfl⟩

theorem KeepsByte.stop {e : Stop} {s t : State} (h : Machine.stop e s = .next t) : KeepsByte rb addr s t := by
  obtain ⟨f, -, rfl⟩ := stop_next h
  exact .setFail s f

/-- A store that answers next leaves a byte that is none of its own. -/
theorem memWrite_keepsByte {a n v : Nat} {s t : State} (h : memWrite cfg .bank1 a n v s = .next t)
    (hout : addr < a ∨ a + n ≤ addr) : KeepsByte rb addr s t := by
  rcases memWrite_next h with ⟨-, rfl⟩ | rfl
  · exact fun hs => ⟨hs, Memory.byteAt_writeLE_outside _ _ _ _ _ _ hout⟩
  · exact .setFail s _

theorem putPixel_keepsByte {y x : Nat} {w : Word} {d : Nat} {s t : State} (h : putPixel cfg y x w d s = .next t)
    (hout : PixelApart rb y x addr) : KeepsByte rb addr s t := by
  rintro rfl
  obtain ⟨hcolor, hdepth⟩ := hout
  obtain ⟨u, hu, ⟨-, hr⟩ | ⟨-, rfl⟩⟩ := andThen_next h
  · exact (memWrite_keepsByte hu hcolor).trans (memWrite_keepsByte hr hdepth) rfl
  · exact memWrite_keepsByte hu hcolor rfl

theorem drawPixel_keepsByte {e : Extra} {y x : Nat} {p : Sample} {s t : State} (h : drawPixel cfg e y x p s = .next t)
    (hout : PixelApart rb y x addr) : KeepsByte rb addr s t := by
  rcases drawPixel_next h with ⟨-, rfl⟩ | ⟨f, -, rfl⟩ | ⟨w, d, -, hp⟩
  · exact .refl _
  · exact .setFail s f
  · exact putPixel_keepsByte hp hout

theorem drawColumn_keepsByte {e : Extra} {l r : ScreenVertex} {y x : Nat} {s t : State}
    (h : drawColumn cfg e l r y x s = .next t) (hout : PixelApart rb y x addr) : KeepsByte rb addr s t := by
  unfold drawColumn at h
  split at h
  · exact .stop h
  · exact drawPixel_keepsByte h hout

/-- Each column of a row lies in the clip rectangle (R293). -/
theorem drawRow_keepsByte {sv : List ScreenVertex} {clip : Rect} {e : Extra} {y : Nat} {s t : State}
    (h : drawRow cfg sv clip e y s = .next t) (hout : ∀ x, clip.minX ≤ x → x ≤ clip.maxX → PixelApart rb y x addr) :
    KeepsByte rb addr s t := by
  unfold drawRow at h
  split at h
  · exact .stop h
  · cases h
    exact .refl s
  · refine forRange_rel (KeepsByte rb addr) .refl (fun _ _ _ => .trans) (fun x _ _ hlo hhi hcolumn => ?_) h
    obtain ⟨hmin, hmax⟩ := cover_bounds ⟨hlo, hhi⟩
    exact drawColumn_keepsByte hcolumn (hout x hmin hmax)

/-- Each row of a polygon lies in the clip rectangle (R292). -/
theorem scanConvert_keepsByte {sv : List ScreenVertex} {e : Extra} {s t : State} (h : scanConvert cfg sv e s = .next t)
    (hout : ∀ clip y x, s.clip = some clip → InRect clip y x → PixelApart rb y x addr) : KeepsByte rb addr s t := by
  unfold scanConvert at h
  split at h
  · cases h
    exact .setFail s _
  · next clip hclip =>
    refine forRange_rel (KeepsByte rb addr) .refl (fun _ _ _ => .trans) (fun y _ _ hlo hhi hrow => ?_) h
    obtain ⟨hmin, hmax⟩ := polygonRows_bounds ⟨hlo, hhi⟩
    exact drawRow_keepsByte hrow fun x hx hx' => hout clip y x hclip ⟨hmin, hmax, hx, hx'⟩

theorem quadDraw_keepsByte {v0 v1 v2 v3 : QVertex} {texoffs : Word} {s t : State}
    (h : quadDraw cfg v0 v1 v2 v3 texoffs s = .next t)
    (hout : ∀ clip y x, s.clip = some clip → InRect clip y x → PixelApart s.renderbase y x addr) :
    t.wave1.byteAt .bank1 addr = s.wave1.byteAt .bank1 addr := by
  obtain ⟨-, ⟨-, rfl⟩ | ⟨f, -, rfl⟩ | ⟨sv, -, hscan⟩⟩ := quadDraw_next h
  · rfl
  · rfl
  · obtain ⟨-, h1, hrb⟩ := classifyWidth_target (cfg := cfg) texoffs s
    rw [← classifyWidth_clip (cfg := cfg) texoffs s] at hout
    obtain ⟨-, hbyte⟩ := scanConvert_keepsByte hscan hout hrb
    rw [hbyte, h1]

end

/-- Settles O41: a quad writes the pixels of the columns and rows it draws, and those lie in the clip rectangle. -/
theorem quadFrame : Obligations.QuadFrame := by
  intro s t framing v0 v1 v2 v3 h
  refine ⟨?frame, fun a ha => quadDraw_keepsByte h fun clip y x hclip hin =>
    ha clip y x hclip hin.minY hin.maxY hin.minX hin.maxX⟩
  case frame =>
    obtain ⟨m, f, w, cs, os, n, rfl⟩ := quadDraw_frame h
    exact ⟨m, w, cs, os, n, f, rfl⟩

/-! ## The texture class and the capture (R84, R289, R290) -/

/-- The key of the width lookup is the low twelve bits of the texture offset (R138). -/
theorem widthKey_formatCode (texoffs : Word) : widthKey (formatCode texoffs) = texoffs.extractLsb' 0 12 := by
  unfold widthKey formatCode
  ext i hi
  simp only [BitVec.getElem_extractLsb', BitVec.getLsbD_extractLsb']
  simp [show i < 16 by omega]

/-- The table lists no key twice (R289). -/
theorem texWidthTable_lookup : ∀ p ∈ Config.texWidthTable, Config.texWidthTable.lookup p.1 = some p.2 := by decide

theorem tableWidth_some {key : BitVec 12} {w : TexWidth} (h : (key, w) ∈ Config.texWidthTable) :
    tableWidth defaults key = some w := texWidthTable_lookup _ h

theorem tableWidth_none {key : BitVec 12} (h : ∀ w, (key, w) ∉ Config.texWidthTable) : tableWidth defaults key = none :=
  List.lookup_eq_none_iff.mpr fun p hp => bne_iff_ne.mpr fun heq => h p.2 (heq ▸ hp)

/-- The state once an unrecognized code has been seen: it is logged the first time (R289). -/
def noteCode (code : BitVec 16) (s : State) : State :=
  if code ∈ s.seenCodes then s
  else (s.emit (.log (.unknownTexFormat code))).setSeenCodes (s.seenCodes ++ [code])

theorem noteCode_texwidthPrev (code : BitVec 16) (s : State) : (noteCode code s).texwidthPrev = s.texwidthPrev := by
  unfold noteCode
  split <;> rfl

section
variable {cfg : Cfg} {texoffs : Word} {s : State}

theorem classifyWidth_known {w : TexWidth} (h : tableWidth cfg (widthKey (formatCode texoffs)) = some w) :
    classifyWidth cfg texoffs s = (w, s.setTexwidthPrev w) := by
  simp only [classifyWidth, h]

/-- An unrecognized code is noted, and gets the class remembered, or a free choice (R289). -/
theorem classifyWidth_unknown (h : tableWidth cfg (widthKey (formatCode texoffs)) = none) :
    (∀ w, s.texwidthPrev = some w → classifyWidth cfg texoffs s = (w, noteCode (formatCode texoffs) s))
    ∧ (s.texwidthPrev = none →
        classifyWidth cfg texoffs s = (Config.freeWidth s.freeIndex, (noteCode (formatCode texoffs) s).nextFree)) := by
  constructor
  · intro w hprev
    simp only [classifyWidth, h, hprev, noteCode, List.contains_iff_mem]
  · intro hprev
    simp only [classifyWidth, h, hprev, noteCode, List.contains_iff_mem]

end

/-- Settles O42: the table decides whether the code is recognized, and the class remembered decides what an unrecognized
one gets. -/
theorem unknownCodeRetainsWidth : Obligations.UnknownCodeRetainsWidth := by
  refine ⟨fun s texoffs => ?_, fun cfg w s => ⟨rfl, rfl, rfl, ?palette⟩⟩
  case palette => simp only [capture, expand0, Nat.shiftRight_eq_div_pow]
  rw [← widthKey_formatCode]
  refine ⟨fun w hw => classifyWidth_known (tableWidth_some hw), fun hunknown => ?_⟩
  obtain ⟨hretained, hfree⟩ := classifyWidth_unknown (s := s) (tableWidth_none hunknown)
  refine ⟨?_, hretained, fun hprev => congrArg Prod.snd (hfree hprev)⟩
  cases hprev : s.texwidthPrev with
  | none => rw [hfree hprev, ← hprev]; exact noteCode_texwidthPrev _ s
  | some w => rw [hretained w hprev, ← hprev]; exact noteCode_texwidthPrev _ s

end Sys2Proof.Machine

namespace Sys2Proof.Machine

/-! ## The rows and columns drawn (R292, R293) -/

/-- `rnd` rounds to nearest, a tie going down. -/
theorem rnd_eq_ceil (r : Rat) : rnd r = ⌈r - 1 / 2⌉ := by
  have hden : (r.den : ℚ) ≠ 0 := Nat.cast_ne_zero.mpr r.den_nz
  have hquot : r - 1 / 2 = -(((r.den - 2 * r.num : ℤ) : ℚ) / ((2 * r.den : ℕ) : ℚ)) := by
    conv_lhs => rw [← Rat.num_div_den r]
    push_cast
    field_simp
    ring
  rw [hquot, Int.ceil_neg, Rat.floor_intCast_div_natCast]
  push_cast
  rfl

theorem inRange_cover_iff {lo hi : Rat} {cmin cmax i : Nat} :
    InRange (cover lo hi cmin cmax) i ↔ max (rnd lo) cmin ≤ (i : Int) ∧ (i : Int) ≤ min (rnd hi - 1) cmax := by
  simp only [InRange, cover]
  omega

/-- The sample of an index from `rnd(lo)` on is not before `lo`. -/
theorem le_sample_of_rnd_le {lo : Rat} {i : Nat} (h : rnd lo ≤ i) : lo ≤ (i : Rat) + 1 / 2 := by
  rw [rnd_eq_ceil, Int.ceil_le, Int.cast_natCast] at h
  linarith

/-- The sample of an index below `rnd(hi)` is before `hi`. -/
theorem sample_lt_of_lt_rnd {hi : Rat} {i : Nat} (h : (i : Int) < rnd hi) : (i : Rat) + 1 / 2 < hi := by
  rw [rnd_eq_ceil, Int.lt_ceil, Int.cast_natCast] at h
  linarith

/-- The rows of a polygon are those from its least to its greatest `sy` (R292). -/
theorem polygonRows_eq {sv : List ScreenVertex} {clip : Rect} {lo hi : ScreenVertex} (hlo : lo ∈ sv) (hhi : hi ∈ sv)
    (h : ∀ p ∈ sv, lo.sy ≤ p.sy ∧ p.sy ≤ hi.sy) : polygonRows sv clip = cover lo.sy hi.sy clip.minY clip.maxY := by
  cases sv with
  | nil => cases hlo
  | cons a rest =>
    rw [polygonRows, ← (map_eq_minOf_iff ScreenVertex.sy hlo).mpr fun p hp => (h p hp).1,
      ← (map_eq_maxOf_iff ScreenVertex.sy hhi).mpr fun p hp => (h p hp).2]

/-! ## Edges and their crossings (R291, R293) -/

theorem length_edges (sv : List ScreenVertex) : (edges sv).length = sv.length := by
  simp [edges]

/-- Edge `i` joins vertex `i` and the next one round (R291). -/
theorem edges_getElem? {sv : List ScreenVertex} {i : Nat} {a b : ScreenVertex} (ha : sv[i]? = some a)
    (hb : sv[(i + 1) % sv.length]? = some b) : (edges sv)[i]? = some (a, b) := by
  have hi : i < sv.length := (List.getElem?_eq_some_iff.mp ha).1
  exact List.getElem?_zip_eq_some.mpr ⟨ha, (List.getElem?_rotate hi).trans hb⟩

section
variable {cfg : Cfg}

/-- `t` is how far `x` lies from `a` towards `b`, one rounding after each operation. -/
def Ratio (cfg : Cfg) (a b x t : Rat) : Prop :=
  ∃ n d, cfg.fl (x - a) = .fin n ∧ cfg.fl (b - a) = .fin d ∧ d ≠ 0 ∧ cfg.fl (n / d) = .fin t

/-- A computation that begins with a ratio. -/
theorem ratio_bind_ok {α : Type} {a b x : Rat} {k : Rat → Access α} {o : α} :
    (do let n ← fsub cfg x a
        let d ← fsub cfg b a
        let t ← fdiv cfg n d
        k t) = .ok o ↔ ∃ t, Ratio cfg a b x t ∧ k t = .ok o := by
  simp only [access_bind_ok, fsub_ok, fdiv_ok]
  constructor
  · rintro ⟨n, hn, d, hd, t, ⟨hd0, ht⟩, hk⟩
    exact ⟨t, ⟨n, d, hn, hd, hd0, ht⟩, hk⟩
  · rintro ⟨t, ⟨n, d, hn, hd, hd0, ht⟩, hk⟩
    exact ⟨n, hn, d, hd, t, ⟨hd0, ht⟩, hk⟩

theorem crossing_ok {yc : Rat} {a b c : ScreenVertex} :
    crossing cfg yc (a, b) = .ok c ↔
      c.sy = yc ∧ ∃ t, Ratio cfg a.sy b.sy yc t ∧ lerp cfg a.sx b.sx t = .ok c.sx ∧ lerp cfg a.z b.z t = .ok c.z
        ∧ lerp cfg a.u b.u t = .ok c.u ∧ lerp cfg a.v b.v t = .ok c.v := by
  refine ratio_bind_ok.trans ?_
  simp only [access_bind_ok, access_pure_ok]
  constructor
  · rintro ⟨t, ht, sx, hsx, z, hz, u, hu, v, hv, rfl⟩
    exact ⟨rfl, t, ht, hsx, hz, hu, hv⟩
  · rintro ⟨hsy, t, ht, hsx, hz, hu, hv⟩
    exact ⟨t, ht, _, hsx, _, hz, _, hu, _, hv, by rw [← hsy]⟩

/-! ## The span of a row and its samples (R293, R294) -/

theorem sampleAt_ok {i : Nat} {r : Rat} : sampleAt cfg i = .ok r ↔ cfg.fl ((i : Rat) + 1 / 2) = .fin r := by
  rw [sampleAt, fadd_ok, Rat.mkRat_eq_div, Int.cast_one, Nat.cast_ofNat]

theorem sampleSpan_ok {l r : ScreenVertex} {x : Nat} {p : Sample} :
    sampleSpan cfg l r x = .ok p ↔
      ∃ xc s, cfg.fl ((x : Rat) + 1 / 2) = .fin xc ∧ Ratio cfg l.sx r.sx xc s ∧ lerp cfg l.z r.z s = .ok p.z
        ∧ lerp cfg l.u r.u s = .ok p.u ∧ lerp cfg l.v r.v s = .ok p.v := by
  refine access_bind_ok.trans (exists_congr fun xc => ?_)
  rw [sampleAt_ok, ratio_bind_ok]
  simp only [access_bind_ok, access_pure_ok]
  constructor
  · rintro ⟨hxc, s, hs, z, hz, u, hu, v, hv, rfl⟩
    exact ⟨s, hxc, hs, hz, hu, hv⟩
  · rintro ⟨s, hxc, hs, hz, hu, hv⟩
    exact ⟨hxc, s, hs, _, hz, _, hu, _, hv, rfl⟩

/-- The span between the crossings of a row (R293). -/
def spanOf (cs : List ScreenVertex) : Access (Option (ScreenVertex × ScreenVertex)) :=
  match cs with
  | [] => pure none
  | [a, b] => pure (some (if b.sx < a.sx then (b, a) else (a, b)))
  | _ => .error (.refuse .nonConvexPolygon)

theorem spanOf_many {cs : List ScreenVertex} (h : 2 < cs.length) : spanOf cs = .error (.refuse .nonConvexPolygon) := by
  match cs, h with
  | _ :: _ :: _ :: _, _ => rfl

/-- The edges that cross a row, as the statements say it. -/
theorem crosses_eq (yc : Rat) :
    crosses yc = fun e => decide (min e.1.sy e.2.sy ≤ yc ∧ yc < max e.1.sy e.2.sy) :=
  funext fun _ => (Bool.decide_and _ _).symm

/-- A row whose edges have the crossings `cs` has the span between them. -/
theorem rowSpan_eq {sv : List ScreenVertex} {y : Nat} {yc : Rat} {cs : List ScreenVertex}
    (hyc : cfg.fl ((y : Rat) + 1 / 2) = .fin yc)
    (hcs : List.Forall₂ (fun e c => crossing cfg yc e = .ok c) ((edges sv).filter (crosses yc)) cs) :
    rowSpan cfg sv y = spanOf cs := by
  simp only [rowSpan, sampleAt_ok.mpr hyc]
  exact congrArg (· >>= spanOf) (access_mapM_ok.mpr hcs)

/-- Where every entry of a list has a partner, the list has one. -/
theorem exists_forall₂ {α β : Type} {R : α → β → Prop} {l : List α} (h : ∀ a ∈ l, ∃ b, R a b) :
    ∃ o, List.Forall₂ R l o := by
  induction l with
  | nil => exact ⟨[], .nil⟩
  | cons a l ih =>
    obtain ⟨b, hb⟩ := h a List.mem_cons_self
    obtain ⟨o, ho⟩ := ih fun a' ha' => h a' (List.mem_cons_of_mem _ ha')
    exact ⟨b :: o, .cons hb ho⟩

end

/-- Settles O43: the rows and columns by their ceilings, the span by its crossings, the samples by their ratio. -/
theorem coverageIsHalfOpen : Obligations.CoverageIsHalfOpen := by
  refine ⟨rnd_eq_ceil, fun lo hi cmin cmax i => ⟨inRange_cover_iff, ?samples⟩, fun _ _ _ _ => polygonRows_eq,
    fun sv => ⟨length_edges sv, fun i a b => edges_getElem?⟩, fun cfg => ⟨?crossings, ?spans, ?interpolation⟩⟩
  case samples =>
    rintro ⟨hlo, hhi⟩
    exact ⟨le_sample_of_rnd_le (by omega), sample_lt_of_lt_rnd (by omega)⟩
  case crossings =>
    intro yc a b c
    simp only [crossing_ok, lerp_ok]
    rfl
  case interpolation =>
    intro l r x p
    simp only [sampleSpan_ok, lerp_ok]
    rfl
  case spans =>
    intro sv y yc hyc
    rw [← crosses_eq]
    refine ⟨fun hnone => ?_, fun e f a b htwo ha hb => ?_, fun hmany hall => ?_⟩
    · exact rowSpan_eq (cs := []) hyc (hnone ▸ .nil)
    · exact rowSpan_eq (cs := [a, b]) hyc (htwo ▸ .cons ha (.cons hb .nil))
    · obtain ⟨cs, hcs⟩ := exists_forall₂ hall
      exact (rowSpan_eq hyc hcs).trans (spanOf_many (hcs.length_eq ▸ hmany))

end Sys2Proof.Machine

namespace Sys2Proof.Machine

open Sys2Proof.Config (defaults)

/-! ## The depth test and the writes of one pixel (R296, R298, R301, R302) -/

/-- A colour word of an aligned target, inside bank 1, may be accessed (R83, R87, R88). -/
theorem checkAccess_color {rb y x : Nat} (haligned : rb % 4 = 0) (hinside : colorAddr rb y x + 4 ≤ Config.size1) :
    checkAccess defaults .bank1 (colorAddr rb y x) 4 = .ok () := by
  refine checkAccess_ok.mpr ⟨?_, Int.natCast_nonneg _, by exact_mod_cast hinside⟩
  have haddr : colorAddr rb y x % 4 = 0 := by
    unfold colorAddr
    omega
  exact_mod_cast haddr

/-- The colour word of a pixel ends before its depth (R88). -/
theorem colorAddr_add_four_le_depthAddr (rb y x : Nat) : colorAddr rb y x + 4 ≤ depthAddr rb y x := by
  unfold colorAddr depthAddr
  omega

/-- Writing a pixel whose colour word and depth may be accessed stores both (R301). -/
theorem putPixel_next {s : State} {y x : Nat} (hs : s.fail = none)
    (hcolor : checkAccess defaults .bank1 (colorAddr s.renderbase y x) 4 = .ok ())
    (hdepth : checkAccess defaults .bank1 (depthAddr s.renderbase y x) 2 = .ok ()) (w : Word) (d : Nat) :
    putPixel defaults y x w d s = .next (s.setWave1 (storePixel s.wave1 s.renderbase y x (some (w, d)))) := by
  have hwrite : writePix defaults s.renderbase y x w s
      = .next (s.setWave1 (s.wave1.writeLE (colorAddr s.renderbase y x) w.toNat 4)) := memWrite_ok hcolor
  rw [putPixel, hwrite, andThen_running (by exact hs)]
  exact memWrite_ok hdepth

/-- A stored colour word reads back whole: the depth lies apart from it (R83, R88). -/
theorem readLE_color_storePixel (m : Memory) (rb y x : Nat) (w : Word) (d : Nat) :
    (storePixel m rb y x (some (w, d))).readLE .bank1 (colorAddr rb y x) 4 = w.toNat :=
  (Memory.readLE_writeLE_outside _ _ _ _ _ _ _ (colorAddr_disjoint_depthAddr rb y x y x)).trans
    ((Memory.readLE_writeLE _ _ _ _ _).trans (Nat.mod_eq_of_lt w.isLt))

/-- A stored depth reads back as its low 16 bits (R83). -/
theorem readLE_depth_storePixel (m : Memory) (rb y x : Nat) (w : Word) (d : Nat) :
    (storePixel m rb y x (some (w, d))).readLE .bank1 (depthAddr rb y x) 2 = d % 256 ^ 2 :=
  Memory.readLE_writeLE _ _ _ _ _

theorem byteAt_storePixel_apart {m : Memory} {rb y x addr : Nat} (h : PixelApart rb y x addr) (w : Word) (d : Nat) :
    (storePixel m rb y x (some (w, d))).byteAt .bank1 addr = m.byteAt .bank1 addr :=
  (Memory.byteAt_writeLE_outside _ _ _ _ _ _ h.2).trans (Memory.byteAt_writeLE_outside _ _ _ _ _ _ h.1)

section
variable {cfg : Cfg} {e : Extra} {y x : Nat} {p : Sample} {s : State} {c : Texcoord} {stored : Nat}

/-- A pixel farther than the stored depth is rejected (R296). -/
theorem shadePixel_farther (hc : fixedPoint cfg p = .ok (some c))
    (hstored : readDepth cfg s.wave1 s.renderbase y x = .ok stored) (hfar : stored < c.depth) :
    shadePixel cfg e y x p s = .ok none :=
  access_bind_ok.mpr ⟨_, hc, access_bind_ok.mpr ⟨_, hstored, if_pos hfar⟩⟩

/-- A pixel that is not farther is coloured by its texels, or rejected by the first of them (R296 to R300). -/
theorem shadePixel_nearer (hc : fixedPoint cfg p = .ok (some c))
    (hstored : readDepth cfg s.wave1 s.renderbase y x = .ok stored) (hnear : c.depth ≤ stored) {o : Option Word}
    (ho : shadeColor cfg s.wave0 e c = .ok o) : shadePixel cfg e y x p s = .ok (o.map fun w => (w, c.depth)) :=
  access_bind_ok.mpr ⟨_, hc, access_bind_ok.mpr ⟨_, hstored,
    (if_neg (not_lt.mpr hnear)).trans (access_bind_ok.mpr ⟨_, ho, rfl⟩)⟩⟩

theorem drawPixel_rejected (h : shadePixel cfg e y x p s = .ok none) : drawPixel cfg e y x p s = .next s := by
  rw [drawPixel, h]

theorem drawPixel_written {w : Word} {d : Nat} (h : shadePixel cfg e y x p s = .ok (some (w, d))) :
    drawPixel cfg e y x p s = putPixel cfg y x w d s := by
  rw [drawPixel, h]

end

/-- Settles O44: the stored depth decides whether the pixel is shaded, the shading whether it is written. -/
theorem depthTestDecidesPixel : Obligations.DepthTestDecidesPixel := by
  intro s e y x p c hs haligned hinside hc stored
  have hdepth := checkAccess_depth (y := y) (x := x) (show s.renderbase % 2 = 0 by omega) hinside
  have hcolor := checkAccess_color (y := y) (x := x) haligned (by
    have := colorAddr_add_four_le_depthAddr s.renderbase y x
    omega)
  have hstored : readDepth defaults s.wave1 s.renderbase y x = .ok stored := memRead_ok hdepth
  refine ⟨fun hfar => drawPixel_rejected (shadePixel_farther hc hstored hfar), fun w hnear hopaque => ?written,
    fun hnear hclear => drawPixel_rejected (shadePixel_nearer hc hstored hnear hclear)⟩
  case written =>
    have hfits : c.depth < 256 ^ 2 := (fixedPoint_depth_le hc).trans_lt (by decide)
    refine ⟨_, (drawPixel_written (shadePixel_nearer hc hstored hnear hopaque)).trans
      (putPixel_next hs hcolor hdepth w c.depth), (memRead_ok hcolor).trans (congrArg _ ?_),
      (memRead_ok hdepth).trans (congrArg _ ?_), fun a ha ha' => byteAt_storePixel_apart ⟨ha, ha'⟩ w c.depth⟩
    · exact readLE_color_storePixel _ _ _ _ _ _
    · exact (readLE_depth_storePixel _ _ _ _ _ _).trans (Nat.mod_eq_of_lt hfits)

end Sys2Proof.Machine

namespace Sys2Proof.Machine

/-! ## The blend (R299 to R301) -/

/-- The value of a colour channel: a byte. -/
def IsChannel (c : Int) : Prop := 0 ≤ c ∧ c ≤ 255

theorem mix_floor (a b f : Int) :
    256 * (mix a b f - a) ≤ (b - a) * f ∧ (b - a) * f < 256 * (mix a b f - a) + 256 := by
  unfold mix
  omega

theorem mix_zero (a b : Int) : mix a b 0 = a := by simp [mix]

/-- A mix with a weight of 0 to 255 lies between its ends. -/
theorem mix_between {f : Int} (h0 : 0 ≤ f) (h1 : f ≤ 255) (a b : Int) :
    min a b ≤ mix a b f ∧ mix a b f ≤ max a b := by
  obtain ⟨hlo, hhi⟩ := mix_floor a b f
  rcases le_total a b with hab | hba
  · have hpos : 0 ≤ (b - a) * f := mul_nonneg (by omega) h0
    have hless : (b - a) * f ≤ (b - a) * 255 := mul_le_mul_of_nonneg_left h1 (by omega)
    omega
  · have hneg : (b - a) * f ≤ 0 := mul_nonpos_of_nonpos_of_nonneg (by omega) h0
    have hmore : (b - a) * 255 ≤ (b - a) * f := mul_le_mul_of_nonpos_left h1 (by omega)
    omega

theorem IsChannel.mix {a b f : Int} (ha : IsChannel a) (hb : IsChannel b) (h0 : 0 ≤ f) (h1 : f ≤ 255) :
    IsChannel (mix a b f) := by
  obtain ⟨hlo, hhi⟩ := mix_between h0 h1 a b
  unfold IsChannel at *
  omega

/-- Every channel of the colour is a byte. -/
structure Rgb.Bytes (c : Rgb) : Prop where
  r : IsChannel c.r
  g : IsChannel c.g
  b : IsChannel c.b

theorem Rgb.Bytes.mixRgb {c d : Rgb} {f : Int} (hc : c.Bytes) (hd : d.Bytes) (h0 : 0 ≤ f) (h1 : f ≤ 255) :
    (mixRgb c d f).Bytes :=
  ⟨hc.r.mix hd.r h0 h1, hc.g.mix hd.g h0 h1, hc.b.mix hd.b h0 h1⟩

/-- `8*c + c div 4` (R299). -/
theorem expand5_toNat : ∀ c : BitVec 5, (expand5 c).toNat = 8 * c.toNat + c.toNat / 4 := by decide

/-- The channels of a palette entry (R92, R299). -/
theorem entryColor_eq (e : BitVec 16) :
    entryColor e = ⟨(8 * (e.toNat / 1024 % 32) + e.toNat / 1024 % 32 / 4 : Nat),
      (8 * (e.toNat / 32 % 32) + e.toNat / 32 % 32 / 4 : Nat), (8 * (e.toNat % 32) + e.toNat % 32 / 4 : Nat)⟩ := by
  simp only [entryColor, expand5_toNat, BitVec.extractLsb'_toNat, Nat.shiftRight_eq_div_pow]
  simp

theorem entryColor_bytes (e : BitVec 16) : (entryColor e).Bytes := by
  have hbyte : ∀ c : BitVec 8, IsChannel c.toNat := fun c => ⟨Int.natCast_nonneg _, by have := c.isLt; omega⟩
  exact ⟨hbyte _, hbyte _, hbyte _⟩

theorem ofInt_toNat {c : Int} (h : IsChannel c) : ((BitVec.ofInt 8 c).toNat : Int) = c := by
  obtain ⟨h0, h1⟩ := h
  rw [BitVec.toNat_ofInt]
  omega

/-- Words side by side, as a number. -/
theorem toNat_append_eq {v w : Nat} (x : BitVec v) (y : BitVec w) : (x ++ y).toNat = x.toNat * 2 ^ w + y.toNat := by
  rw [BitVec.toNat_append, ← Nat.shiftLeft_add_eq_or_of_lt y.isLt, Nat.shiftLeft_eq]

/-- A colour word holds its channels whole, and nothing above them (R89, R301). -/
theorem colorWord_toNat {c : Rgb} (h : c.Bytes) :
    ((colorWord c.r c.g c.b).toNat : Int) = c.r * 65536 + c.g * 256 + c.b := by
  have hr := ofInt_toNat h.r
  have hg := ofInt_toNat h.g
  have hb := ofInt_toNat h.b
  simp only [colorWord, toNat_append_eq, BitVec.toNat_ofNat]
  omega

section
variable {cfg : Cfg}

/-! ## The integers of a pixel (R295) -/

section
variable {p : Sample} {z u v : Rat}

/-- A negative depth rejects the pixel. -/
theorem fixedPoint_rejected (hz : cfg.fl (p.z * cfg.depthPerZ) = .fin z) (hneg : ⌊z⌋ < 0) :
    fixedPoint cfg p = .ok none :=
  access_bind_ok.mpr ⟨z, fmul_ok.mpr hz, if_pos hneg⟩

/-- The conversion of a sample whose depth is not negative. -/
theorem fixedPoint_eq (hz : cfg.fl (p.z * cfg.depthPerZ) = .fin z) (hdepth : 0 ≤ ⌊z⌋)
    (hu : cfg.fl (p.u * 256) = .fin u) (hv : cfg.fl (p.v * 256) = .fin v) :
    fixedPoint cfg p = if ⌊u⌋ / 256 < 0 ∨ ⌊v⌋ / 256 < 0 then .error (.refuse .negativeTexel)
      else .ok (some ⟨min ⌊z⌋.toNat cfg.maxDepth, (⌊u⌋ / 256).toNat, (⌊u⌋ % 256).toNat, (⌊v⌋ / 256).toNat,
        (⌊v⌋ % 256).toNat⟩) := by
  have hz' : fmul cfg p.z cfg.depthPerZ = .ok z := fmul_ok.mpr hz
  have hu' : fmul cfg p.u (mkRat 256 1) = .ok u := by rwa [Rat.mkRat_one, fmul_ok]
  have hv' : fmul cfg p.v (mkRat 256 1) = .ok v := by rwa [Rat.mkRat_one, fmul_ok]
  simp only [fixedPoint, hz', hu', hv']
  exact if_neg (not_lt.mpr hdepth)

/-- A negative texel coordinate is refused. -/
theorem fixedPoint_refused (hz : cfg.fl (p.z * cfg.depthPerZ) = .fin z) (hdepth : 0 ≤ ⌊z⌋)
    (hu : cfg.fl (p.u * 256) = .fin u) (hv : cfg.fl (p.v * 256) = .fin v) (hneg : ⌊u⌋ < 0 ∨ ⌊v⌋ < 0) :
    fixedPoint cfg p = .error (.refuse .negativeTexel) :=
  (fixedPoint_eq hz hdepth hu hv).trans (if_pos (by omega))

/-- The depth up to `MAX_DEPTH`, and the whole and the 256ths of the texel coordinates. -/
theorem fixedPoint_some (hz : cfg.fl (p.z * cfg.depthPerZ) = .fin z) (hdepth : 0 ≤ ⌊z⌋)
    (hu : cfg.fl (p.u * 256) = .fin u) (hv : cfg.fl (p.v * 256) = .fin v) (hu0 : 0 ≤ ⌊u⌋) (hv0 : 0 ≤ ⌊v⌋) :
    ∃ c, fixedPoint cfg p = .ok (some c) ∧ (c.depth : Int) = min ⌊z⌋ cfg.maxDepth
      ∧ ((256 * c.u0 + c.fu : Nat) : Int) = ⌊u⌋ ∧ c.fu < 256 ∧ ((256 * c.v0 + c.fv : Nat) : Int) = ⌊v⌋ ∧ c.fv < 256 := by
  refine ⟨_, (fixedPoint_eq hz hdepth hu hv).trans (if_neg (by omega)), ?_⟩
  dsimp only
  omega

end

/-! ## The texels and the colour of a pixel (R91, R92, R297, R298) -/

/-- A texel inside bank 0 is its byte. -/
theorem texel_ok {m : Memory} {tb v u : Nat} {w : TexWidth} (h : tb + texelOffset w v u < cfg.size0) :
    texel cfg m tb w v u = .ok (m.byteAt .bank0 (tb + texelOffset w v u)).toNat := by
  have hcheck : checkAccess cfg .bank0 ((tb + texelOffset w v u : Nat) : Int) 1 = .ok () :=
    checkAccess_ok.mpr ⟨Int.emod_one _, Int.natCast_nonneg _, by exact_mod_cast h⟩
  exact memRead_ok hcheck

/-- A palette entry inside bank 0, of an even palette, gives its colour. -/
theorem texelColor_ok {m : Memory} {pb t : Nat} (heven : pb % 2 = 0) (h : pb + 2 * t + 2 ≤ cfg.size0) :
    texelColor cfg m pb t = .ok (entryColor (BitVec.ofNat 16 (m.readLE .bank0 (pb + 2 * t) 2))) := by
  have hcheck : checkAccess cfg .bank0 ((pb + 2 * t : Nat) : Int) 2 = .ok () :=
    checkAccess_ok.mpr ⟨by omega, Int.natCast_nonneg _, by exact_mod_cast h⟩
  have hentry : palEntry cfg m pb t = .ok (m.readLE .bank0 (pb + 2 * t) 2) := memRead_ok hcheck
  rw [texelColor, hentry]
  rfl

/-- The byte of the texel `dv` rows below and `du` columns right of the top-left one (R297). -/
def texelKey (m : Memory) (e : Extra) (c : Texcoord) (dv du : Nat) : Nat :=
  (m.byteAt .bank0 (e.texbase + texelOffset e.texwidth (c.v0 + dv) (c.u0 + du))).toNat

/-- The colour of that texel's palette entry (R299). -/
def texelEntry (m : Memory) (e : Extra) (c : Texcoord) (dv du : Nat) : Rgb :=
  entryColor (BitVec.ofNat 16 (m.readLE .bank0 (e.palbase + 2 * texelKey m e c dv du) 2))

/-- With the four texels and their palette entries inside bank 0, the colour is their blend, unless the first is the
key. -/
theorem shadeColor_eq {m : Memory} {e : Extra} {c : Texcoord} (heven : e.palbase % 2 = 0)
    (h : ∀ dv ≤ 1, ∀ du ≤ 1, e.texbase + texelOffset e.texwidth (c.v0 + dv) (c.u0 + du) < cfg.size0
      ∧ e.palbase + 2 * texelKey m e c dv du + 2 ≤ cfg.size0) :
    shadeColor cfg m e c = .ok (if texelKey m e c 0 0 = e.transkey then none
      else
        let o := blend (texelEntry m e c 0 0) (texelEntry m e c 0 1) (texelEntry m e c 1 0) (texelEntry m e c 1 1)
          c.fu c.fv
        some (colorWord o.r o.g o.b)) := by
  have htexel : ∀ dv ≤ 1, ∀ du ≤ 1,
      texel cfg m e.texbase e.texwidth (c.v0 + dv) (c.u0 + du) = .ok (texelKey m e c dv du) :=
    fun dv hdv du hdu => texel_ok (h dv hdv du hdu).1
  have hcolor : ∀ dv ≤ 1, ∀ du ≤ 1, texelColor cfg m e.palbase (texelKey m e c dv du) = .ok (texelEntry m e c dv du) :=
    fun dv hdv du hdu => texelColor_ok heven (h dv hdv du hdu).2
  have h00 := htexel 0 zero_le_one 0 zero_le_one
  have h01 := htexel 0 zero_le_one 1 le_rfl
  have h10 := htexel 1 le_rfl 0 zero_le_one
  have h11 := htexel 1 le_rfl 1 le_rfl
  simp only [Nat.add_zero] at h00 h01 h10
  unfold shadeColor
  rw [h00, h01, h10, h11]
  by_cases hkey : texelKey m e c 0 0 = e.transkey
  · rw [if_pos hkey]
    exact if_pos hkey
  · rw [if_neg hkey]
    refine (if_neg hkey).trans ?_
    rw [hcolor 0 zero_le_one 0 zero_le_one, hcolor 0 zero_le_one 1 le_rfl, hcolor 1 le_rfl 0 zero_le_one,
      hcolor 1 le_rfl 1 le_rfl]
    rfl

end

/-- Settles O45: a mix lies between its ends, so a blend of bytes is bytes; the texels are read before the key is
tested. -/
theorem blendStaysBetween : Obligations.BlendStaysBetween := by
  refine ⟨fun a b f => ⟨(mix_floor a b f).1, (mix_floor a b f).2, fun h0 h1 => ?between⟩, ?blended,
    fun _ _ _ _ _ _ => rfl, entryColor_eq, fun cfg p z hz => ⟨fixedPoint_rejected hz, fun hdepth u v hu hv =>
      ⟨fixedPoint_refused hz hdepth hu hv, fixedPoint_some hz hdepth hu hv⟩⟩,
    fun cfg m e c heven h => shadeColor_eq heven h⟩
  case between => exact ⟨(mix_between h0 h1 a b).1, (mix_between h0 h1 a b).2, mix_zero a b⟩
  case blended =>
    intro e00 e01 e10 e11 fu fv hfu0 hfu1 hfv0 hfv1 o
    have hbytes : o.Bytes :=
      ((entryColor_bytes e00).mixRgb (entryColor_bytes e01) hfu0 hfu1).mixRgb
        ((entryColor_bytes e10).mixRgb (entryColor_bytes e11) hfu0 hfu1) hfv0 hfv1
    exact ⟨hbytes.r.1, hbytes.r.2, hbytes.g.1, hbytes.g.2, hbytes.b.1, hbytes.b.2, colorWord_toNat hbytes⟩

end Sys2Proof.Machine

namespace Sys2Proof.Machine

open Sys2Proof.Config (defaults)

/-! ## A command that raises a failure (R341, R349) -/

/-- A whole command that raises a failure is not retired: its words stay, and no timer is armed (R341). -/
theorem step_command_failed {s t : State} {i : Instr} {f : Fault} (hs : s.fail = none) (hp : s.phase = .command)
    (hdec : decodeFifo s.fifo = .ok i) (hexec : exec i s = .next t) (ht : t.fail = some f) : step s = .next t := by
  rw [step_of_fetch_run hs (fetch_whole_command hp hdec), runThenRetire, hexec]
  exact congrArg _ (retire_failed ht)

/-- Two words of which the first is headed by either opcode of `MODEL` are a whole command that enters the walker
(R211, R250). -/
theorem decodeFifo_model {fifo : List Word} {w base : Word} (hfifo : fifo = [w, base])
    (hop : topByte w = 0x23#8 ∨ topByte w = 0x24#8) :
    ∃ i, decodeFifo fifo = .ok i ∧ ∀ s, exec i s = startWalk defaults base (lowHalf w) s := by
  rcases hop with hop | hop
  · exact ⟨.model23 (lowHalf w) base, decodeFifo_exact hfifo hop rfl, fun _ => rfl⟩
  · exact ⟨.model24 (lowHalf w) base, decodeFifo_exact hfifo hop rfl, fun _ => rfl⟩

/-- Settles O27: the walker raises the failure before it looks at anything, so the command is not retired, and a failure is
terminal. -/
theorem oversizedListStopsMachine : Obligations.OversizedListStopsMachine := by
  intro s w base hs hp hfifo hop habove f
  obtain ⟨i, hdec, hexec⟩ := decodeFifo_model hfifo hop
  have hraise : exec i s = .next (s.setFail f) := (hexec s).trans (startWalk_above habove base s)
  exact ⟨step_command_failed hs hp hdec hraise rfl, step_failed rfl⟩

/-! ## Timers and diagnostic inputs (R345 to R347, R354) -/

/-- Whether a timer is pending. -/
def State.timer (s : State) : Timer → TimerState
  | .fifo => s.tFifo
  | .vblOn => s.tVblOn
  | .vblOff => s.tVblOff

/-- What a pending timer does to its line and to the timers. -/
def State.fired (s : State) : Timer → State
  | .fifo => s.fireFifo
  | .vblOn => s.fireVblOn
  | .vblOff => s.fireVblOff

theorem fireTimer_eq (x : Timer) (s : State) : fireTimer x s = if s.timer x = .pending then s.fired x else s := by
  cases x <;> rfl

/-- Between transactions a pending timer fires, and the firing of an idle one is only taken from the inputs (R94, R347). -/
theorem step_fire {s : State} {x : Timer} {rest : List Input} (hs : s.fail = none) (hp : s.phase = .idle)
    (hin : s.inputs = .fire x :: rest) :
    (s.timer x = .pending → step s = .next ((s.setInputs rest).fired x))
    ∧ (s.timer x = .idle → step s = .next (s.setInputs rest)) := by
  have htimer : (s.setInputs rest).timer x = s.timer x := by cases x <;> rfl
  have hstep : step s = .next (fireTimer x (s.setInputs rest)) := step_input hs hp hin nofun
  rw [hstep, fireTimer_eq, htimer]
  exact ⟨fun hpending => by rw [if_pos hpending], fun hidle => by simp [hidle]⟩

/-- Settles O50: each timer by its firing, pending or idle; the diagnostic inputs as any input that acts at once. -/
theorem timersDriveInterruptLines : Obligations.TimersDriveInterruptLines := fun _ _ hs hp =>
  ⟨step_fire hs hp, step_fire hs hp, step_fire hs hp, fun _ hin => step_input hs hp hin nofun,
    fun _ hin => step_input hs hp hin nofun⟩

end Sys2Proof.Machine

namespace Sys2Proof.Machine

/-! ## Device reset between transactions (R48, R380) -/

/-- The reset value 2.0 of `zbase`, over any Wave Memory and `fail` (R48). -/
theorem resetArch_zbase (wave0 wave1 : Memory) (fail : Option Fault) : (resetArch wave0 wave1 fail).zbase = .fin 2 :=
  congrArg F.fin (Rat.mkRat_one 2)

@[simp] theorem deviceReset_toArch (s : State) : (deviceReset s).toArch = resetArch s.wave0 s.wave1 s.fail := rfl
@[simp] theorem deviceReset_seenCodes (s : State) : (deviceReset s).seenCodes = [] := rfl
@[simp] theorem deviceReset_outputs (s : State) : (deviceReset s).outputs = s.outputs := rfl

/-- The registers after a device reset are those of `State.reset`. -/
theorem deviceReset_reg (s : State) (o : Offset) : (deviceReset s).reg o = 0#32 := reset_reg o

/-- Settles O52: the input acts at once, and what it leaves is `resetArch` over the Wave Memory and `fail` of the state. -/
theorem deviceResetValues : Obligations.DeviceResetValues := by
  intro s rest hs hp hin
  have hstep : step s = .next (deviceReset (s.setInputs rest)) := step_input hs hp hin nofun
  refine ⟨deviceReset (s.setInputs rest), hstep, deviceReset_reg _, ?table⟩
  rw [deviceReset_toArch, deviceReset_seenCodes, deviceReset_outputs, resetArch_zbase]
  exact ⟨rfl, rfl, rfl, rfl, rfl, rfl, rfl, rfl, rfl, rfl, rfl, rfl, rfl, rfl, rfl, rfl, rfl, rfl, rfl, rfl, rfl⟩

end Sys2Proof.Machine
